-- ==== Sys2Proof/Word.lean ====
section
/-! DEFINITION. The plain word types of the Bunkeys crypto unit (BKU). Every value is unsigned
(00_scope.md R9); bits are numbered from 0 at the least significant end (R8). The operations over
these types that a rule of the spec fixes (packing, byte order) are in Machine/Operands.lean. -/

namespace Sys2Proof

/-- One byte of WORDBUF, BUF or DICT. -/
abbrev Byte := BitVec 8

/-- One bus word: the unit of every host transaction (20_memory.md R48) and of a command (30_encoding.md R67). -/
abbrev Word := BitVec 32

/-- The contents of a W register (10_state.md R28). -/
abbrev U256 := BitVec 256

/-- The contents of a COEF, SHX or SHY slot (10_state.md R29, R30). -/
abbrev U128 := BitVec 128

end Sys2Proof
end

