-- ==== Sys2Proof/Syntax.lean ====
section
/-! DEFINITION. The commands of the unit: one constructor per row of spec/opcode_table.json
(30_encoding.md R69), and the raw fields of a command word (R67). -/

namespace Sys2Proof

/-- A W register number, `w0` to `w15`: every value 0 to 15 is valid (30_encoding.md R71). -/
abbrev Reg := Fin 16

/-- A legal command (30_encoding.md R69). The scalar operands of a command are not part of its word:
they are the latched ARG values (R71, 10_state.md R26). -/
inductive Instr where
  /-- R82 -/
  | nop
  /-- R83 -/
  | mov (rd ra : Reg)
  /-- R84 -/
  | fadd (rd ra rb : Reg)
  /-- R85 -/
  | fsub (rd ra rb : Reg)
  /-- R86 -/
  | fmul (rd ra rb : Reg)
  /-- R87 -/
  | finv (rd ra : Reg)
  /-- R90 -/
  | rnd256 (rd : Reg)
  /-- R91 -/
  | rndf (rd : Reg)
  /-- R95 -/
  | menc (ra : Reg)
  /-- R96 -/
  | mdec (rd : Reg)
  /-- R97 -/
  | dchk
  /-- R98 -/
  | dfind
  /-- R102 -/
  | peval (rd ra : Reg)
  /-- R104: `k` is bit K of the word, true for `SPLIT.K`. -/
  | split (ra : Reg) (k : Bool)
  /-- R105 -/
  | recon (rd : Reg)
  /-- R109 -/
  | aenc (ra : Reg)
  /-- R110 -/
  | adec (ra : Reg)
  deriving DecidableEq, Repr

/-- The assigned opcodes (30_encoding.md R69). -/
inductive Op where
  | nop | mov | fadd | fsub | fmul | finv | rnd256 | rndf | menc | mdec | dchk | dfind
  | peval | split | recon | aenc | adec
  deriving DecidableEq, Repr

/-- The fields of a command word, reserved ones included (30_encoding.md R67). -/
structure CmdFields where
  /-- bits 7:0 -/
  opc : BitVec 8
  /-- bits 11:8 -/
  rd : BitVec 4
  /-- bits 15:12 -/
  ra : BitVec 4
  /-- bits 19:16 -/
  rb : BitVec 4
  /-- bits 23:20, reserved -/
  rsvLo : BitVec 4
  /-- bit 24 -/
  k : BitVec 1
  /-- bits 31:25, reserved -/
  rsvHi : BitVec 7
  deriving DecidableEq, Repr

/-- The "uses" column of 30_encoding.md R69: which fields of the word an opcode uses. -/
structure Uses where
  rd : Bool
  ra : Bool
  rb : Bool
  k : Bool
  deriving DecidableEq, Repr

/-- Why a command word is not legal (30_encoding.md R68, R77). The unit reports every one of them as
ILLEGAL_CMD. -/
inductive Illegal where
  /-- OPC is not assigned in R69 (R70). -/
  | unassignedOpcode
  /-- a bit of [23:20] or [31:25] is not 0. -/
  | reservedBits
  /-- the opcode does not use RD, and RD is not 0. -/
  | unusedRd
  /-- the opcode does not use RA, and RA is not 0. -/
  | unusedRa
  /-- the opcode does not use RB, and RB is not 0. -/
  | unusedRb
  /-- the opcode does not use K, and K is not 0. -/
  | unusedK
  deriving DecidableEq, Repr

end Sys2Proof
end

