-- ==== Sys2Proof/WellFormed.lean ====
section
/-! DEFINITION. When the fields of a command word are legal for an opcode (30_encoding.md R68). An `Instr`
needs no check of its own: its register numbers are `Fin 16`, and R71 makes every number 0 to 15 valid.
What can be ill-formed is a command word, and each check below refuses one way of being so. -/

namespace Sys2Proof

/-- The legality checks of 30_encoding.md R77 in its order: the opcode is assigned, the reserved bits are
0, and every field the opcode does not use is 0. `none` is legal. -/
def CmdFields.check (uses : Option Uses) (f : CmdFields) : Option Illegal :=
  match uses with
  | none => some .unassignedOpcode
  | some u =>
    if f.rsvLo ≠ 0#4 ∨ f.rsvHi ≠ 0#7 then some .reservedBits
    else if u.rd = false ∧ f.rd ≠ 0#4 then some .unusedRd
    else if u.ra = false ∧ f.ra ≠ 0#4 then some .unusedRa
    else if u.rb = false ∧ f.rb ≠ 0#4 then some .unusedRb
    else if u.k = false ∧ f.k ≠ 0#1 then some .unusedK
    else none

/-- A legal command word's fields. -/
def CmdFields.legal (uses : Option Uses) (f : CmdFields) : Bool :=
  (f.check uses).isNone

end Sys2Proof
end

