-- ==== Sys2Proof/Decode.lean ====
section
/-! DEFINITION. The decoder of 30_encoding.md R77, total on every 32-bit word and rejecting by name, and
after it the encoder, both from the one table of R69. -/

namespace Sys2Proof

/-- The OPC column of 30_encoding.md R69. -/
def opcode : Op → BitVec 8
  | .nop => 0x00#8
  | .mov => 0x01#8
  | .fadd => 0x08#8
  | .fsub => 0x09#8
  | .fmul => 0x0A#8
  | .finv => 0x0B#8
  | .rnd256 => 0x10#8
  | .rndf => 0x11#8
  | .menc => 0x20#8
  | .mdec => 0x21#8
  | .dchk => 0x22#8
  | .dfind => 0x23#8
  | .peval => 0x30#8
  | .split => 0x31#8
  | .recon => 0x32#8
  | .aenc => 0x40#8
  | .adec => 0x41#8

/-- The "uses" column of 30_encoding.md R69. -/
def usesOf : Op → Uses
  | .nop => ⟨false, false, false, false⟩
  | .mov => ⟨true, true, false, false⟩
  | .fadd => ⟨true, true, true, false⟩
  | .fsub => ⟨true, true, true, false⟩
  | .fmul => ⟨true, true, true, false⟩
  | .finv => ⟨true, true, false, false⟩
  | .rnd256 => ⟨true, false, false, false⟩
  | .rndf => ⟨true, false, false, false⟩
  | .menc => ⟨false, true, false, false⟩
  | .mdec => ⟨true, false, false, false⟩
  | .dchk => ⟨false, false, false, false⟩
  | .dfind => ⟨false, false, false, false⟩
  | .peval => ⟨true, true, false, false⟩
  | .split => ⟨false, true, false, true⟩
  | .recon => ⟨true, false, false, false⟩
  | .aenc => ⟨false, true, false, false⟩
  | .adec => ⟨false, true, false, false⟩

/-- Every assigned opcode, in the order of 30_encoding.md R69. -/
def allOps : List Op :=
  [.nop, .mov, .fadd, .fsub, .fmul, .finv, .rnd256, .rndf, .menc, .mdec, .dchk, .dfind,
   .peval, .split, .recon, .aenc, .adec]

/-- The opcode an OPC value is assigned to, if any (30_encoding.md R69, R70). -/
def opOf (c : BitVec 8) : Option Op :=
  allOps.find? fun op => opcode op = c

/-- The fields of a command word (30_encoding.md R67). -/
def splitWord (w : Word) : CmdFields where
  opc := w.extractLsb' 0 8
  rd := w.extractLsb' 8 4
  ra := w.extractLsb' 12 4
  rb := w.extractLsb' 16 4
  rsvLo := w.extractLsb' 20 4
  k := w.extractLsb' 24 1
  rsvHi := w.extractLsb' 25 7

/-- The register a 4-bit field names (30_encoding.md R71). -/
def regOf (b : BitVec 4) : Reg := b.toFin

/-- The command that legal fields stand for. -/
def buildInstr (op : Op) (f : CmdFields) : Instr :=
  match op with
  | .nop => .nop
  | .mov => .mov (regOf f.rd) (regOf f.ra)
  | .fadd => .fadd (regOf f.rd) (regOf f.ra) (regOf f.rb)
  | .fsub => .fsub (regOf f.rd) (regOf f.ra) (regOf f.rb)
  | .fmul => .fmul (regOf f.rd) (regOf f.ra) (regOf f.rb)
  | .finv => .finv (regOf f.rd) (regOf f.ra)
  | .rnd256 => .rnd256 (regOf f.rd)
  | .rndf => .rndf (regOf f.rd)
  | .menc => .menc (regOf f.ra)
  | .mdec => .mdec (regOf f.rd)
  | .dchk => .dchk
  | .dfind => .dfind
  | .peval => .peval (regOf f.rd) (regOf f.ra)
  | .split => .split (regOf f.ra) (f.k = 1#1)
  | .recon => .recon (regOf f.rd)
  | .aenc => .aenc (regOf f.ra)
  | .adec => .adec (regOf f.ra)

/-- Decoding of a command word (30_encoding.md R77): the command, or the first check that fails. -/
def decode (w : Word) : Except Illegal Instr :=
  let f := splitWord w
  match opOf f.opc with
  | none => .error .unassignedOpcode
  | some op =>
    match f.check (some (usesOf op)) with
    | some e => .error e
    | none => .ok (buildInstr op f)

/-- What the decoder reads from a row of spec/opcode_table.json: the unit has one command length, 32 bits
(30_encoding.md R73), and a word is one bus word, so bit n of the row is bit n of the word. -/
def decodeTableWord (nbits w : Nat) : Option Instr :=
  if nbits ≤ 32 then
    match decode (BitVec.ofNat 32 (w % 2 ^ nbits)) with
    | .ok i => some i
    | .error _ => none
  else none

/-- A register number as a 4-bit field. -/
def regField (r : Reg) : BitVec 4 := BitVec.ofFin r

/-- The opcode of a command. -/
def opOfInstr : Instr → Op
  | .nop => .nop
  | .mov _ _ => .mov
  | .fadd _ _ _ => .fadd
  | .fsub _ _ _ => .fsub
  | .fmul _ _ _ => .fmul
  | .finv _ _ => .finv
  | .rnd256 _ => .rnd256
  | .rndf _ => .rndf
  | .menc _ => .menc
  | .mdec _ => .mdec
  | .dchk => .dchk
  | .dfind => .dfind
  | .peval _ _ => .peval
  | .split _ _ => .split
  | .recon _ => .recon
  | .aenc _ => .aenc
  | .adec _ => .adec

/-- Fields with the given RD, RA, RB and K, and the reserved bits 0. -/
def mkFields (op : Op) (rd ra rb : BitVec 4) (k : BitVec 1) : CmdFields :=
  ⟨opcode op, rd, ra, rb, 0#4, k, 0#7⟩

/-- The fields of a command's word: what R69 says the opcode uses, and 0 elsewhere (R68). -/
def fieldsOf : Instr → CmdFields
  | .nop => mkFields .nop 0 0 0 0
  | .mov rd ra => mkFields .mov (regField rd) (regField ra) 0 0
  | .fadd rd ra rb => mkFields .fadd (regField rd) (regField ra) (regField rb) 0
  | .fsub rd ra rb => mkFields .fsub (regField rd) (regField ra) (regField rb) 0
  | .fmul rd ra rb => mkFields .fmul (regField rd) (regField ra) (regField rb) 0
  | .finv rd ra => mkFields .finv (regField rd) (regField ra) 0 0
  | .rnd256 rd => mkFields .rnd256 (regField rd) 0 0 0
  | .rndf rd => mkFields .rndf (regField rd) 0 0 0
  | .menc ra => mkFields .menc 0 (regField ra) 0 0
  | .mdec rd => mkFields .mdec (regField rd) 0 0 0
  | .dchk => mkFields .dchk 0 0 0 0
  | .dfind => mkFields .dfind 0 0 0 0
  | .peval rd ra => mkFields .peval (regField rd) (regField ra) 0 0
  | .split ra k => mkFields .split 0 (regField ra) 0 (BitVec.ofBool k)
  | .recon rd => mkFields .recon (regField rd) 0 0 0
  | .aenc ra => mkFields .aenc 0 (regField ra) 0 0
  | .adec ra => mkFields .adec 0 (regField ra) 0 0

/-- A command word from its fields, most significant field first (30_encoding.md R67). -/
def joinFields (f : CmdFields) : Word :=
  f.rsvHi ++ f.k ++ f.rsvLo ++ f.rb ++ f.ra ++ f.rd ++ f.opc

/-- The command word of a command (30_encoding.md R67, R69). -/
def encode (i : Instr) : Word := joinFields (fieldsOf i)

end Sys2Proof
end

