-- ==== Sys2Proof/Config.lean ====
section
/-! DEFINITION. What is fixed for the machine: the parameter values of 00_scope.md R7, the constant
registers, and the two parameters the spec leaves OPEN (BKU_BASE, and AEAD_ALG). The hash parameter
HASH256 has this spec's value SHA-256 and is Machine/Sha256.lean's. -/

namespace Sys2Proof

/-- The field modulus P = 2^127 − 1 (00_scope.md R7, 90_conflicts.md C1), a hardwired constant (10_state.md R27). -/
def Config.P : Nat := 2 ^ 127 - 1

/-- MAX_SHARES (R7): slots of COEF, SHX and SHY. -/
def Config.maxShares : Nat := 16
/-- W_COUNT (R7). -/
def Config.wCount : Nat := 16
/-- MN_WORDS (R7): words of a mnemonic, and slots of IDX. -/
def Config.mnWords : Nat := 24
/-- DICT_ENTRIES (R7). -/
def Config.dictEntries : Nat := 2048
/-- DICT_WORD_BYTES (R7): bytes of a dictionary entry and of WORDBUF. -/
def Config.dictWordBytes : Nat := 16
/-- BUF_BYTES (R7). -/
def Config.bufBytes : Nat := 4096
/-- NONCE_BYTES (R7). -/
def Config.nonceBytes : Nat := 12
/-- TAG_BYTES (R7). -/
def Config.tagBytes : Nat := 16

/-- ID_VALUE: ASCII "BKU" followed by 0x07 (R7, 10_state.md R18). -/
def Config.idValue : Word := 0x424B5507#32
/-- CAPS: MAX_SHARES, W_COUNT and BUF_BYTES in their fields (10_state.md R25). -/
def Config.capsValue : Word := 0x10001010#32

/-- Bus offset of WORDBUF (20_memory.md R50). -/
def Config.wordbufBase : Nat := 0x0780
/-- Bus offset of BUF (20_memory.md R50). -/
def Config.bufBase : Nat := 0x1000
/-- Bus offset of DICT (20_memory.md R50). -/
def Config.dictBase : Nat := 0x8000

/-- BKU_BASE, the unit's base address in the host's system map: an OPEN parameter of the platform
(20_memory.md R47; 92_eei_decisions.md allows no constraint on it). No body: nothing can evaluate it. -/
opaque Config.bkuBase : Nat

/-- The system address of a bus offset (20_memory.md R47: every address of the spec is an offset from BKU_BASE). -/
def Config.systemAddress (offset : BitVec 16) : Nat := Config.bkuBase + offset.toNat

/-- What the parameter AEAD_ALG is: AEAD_SEAL and AEAD_OPEN over byte strings (00_scope.md R14) with
the one length R14 gives and the one law R15 allows, correctness. No other property of it is available to a
proof: no tamper detection, no length of what opens, no algorithm (assumption log 3). -/
structure AeadAlg where
  /-- AEAD_SEAL(key32, nonce12, aad, pt): ciphertext followed by the tag. -/
  sealBytes : List Byte → List Byte → List Byte → List Byte → List Byte
  /-- AEAD_OPEN(key32, nonce12, aad, ct_tag): `some pt` or `none`. -/
  openBytes : List Byte → List Byte → List Byte → List Byte → Option (List Byte)
  /-- R14: the sealed string is 16 bytes longer than the plaintext. -/
  sealBytes_length : ∀ key nonce aad pt, (sealBytes key nonce aad pt).length = pt.length + 16
  /-- R15, the correctness law, for keys of 32 bytes and nonces of 12. -/
  openBytes_sealBytes : ∀ key nonce aad pt, key.length = 32 → nonce.length = 12 →
    openBytes key nonce aad (sealBytes key nonce aad pt) = some pt

/-- Shows only that the laws of `AeadAlg` are consistent; the machine never uses it as its algorithm. -/
def Config.toyAead : AeadAlg where
  sealBytes _ _ _ pt := pt ++ List.replicate 16 0#8
  openBytes _ _ _ ct := if 16 ≤ ct.length then some (ct.take (ct.length - 16)) else none
  sealBytes_length _ _ _ pt := by simp
  openBytes_sealBytes _ _ _ pt _ _ := by simp

/-- The free value AEAD_ALG (00_scope.md R7, R14: `OPEN`). No body: a proof knows of it the laws of `AeadAlg`
and nothing else. -/
opaque Config.aeadAlg [Inhabited AeadAlg] : AeadAlg

/-- The unit's AEAD primitive: the open parameter AEAD_ALG. -/
def Config.aead : AeadAlg := @Config.aeadAlg ⟨Config.toyAead⟩

/-- A free value: byte `i` of what ADEC writes when AEAD_OPEN of this key and blob answers a plaintext that is not
n − 28 bytes long. 44_aead.md R110 writes n − 28 bytes and does not say which bytes then (assumption log 14). No body. -/
opaque Config.freePlaintextByte (key blob : List Byte) (i : Nat) : Byte

end Sys2Proof
end

