-- ==== Sys2Proof/Machine/State.lean ====
section
/-! DEFINITION. The state of the machine: everything 10_state.md gives the unit, the bus response of
20_memory.md R48, and the inputs that the two environment agents of 00_scope.md R5 (the host and the
entropy source) have yet to deliver. Plain data throughout. -/

namespace Sys2Proof.Machine

/-- The error codes of 60_exceptions.md R114; no other code is ever written. -/
inductive ErrCode where
  | ok
  | formatWordCount
  | formatUnknownWord
  | formatDict
  | formatDataShort
  | checksumMismatch
  | cryptoAuth
  | valueRange
  | valueDupShare
  | valueZeroInv
  | valueParam
  | valueLength
  | illegalCmd
  | entropyFail
  deriving DecidableEq, Repr

/-- The hidden engine variable ENG (10_state.md R43); STATUS.BUSY is always equal to it and is read from it. -/
inductive Eng where
  | idle
  | busy
  deriving DecidableEq, Repr

/-- One answer of the entropy source (41_entropy.md R88) on its port (60_exceptions.md R126): `ent_valid`
with the 256 lines of `ent_data`, or `ent_fail`. No answer is the absence of an `Answer`. -/
inductive Answer where
  | bits (data : BitVec 256)
  | fail
  deriving DecidableEq, Repr

/-- A host bus transaction: one 32-bit word read or written at a 16-bit byte offset (20_memory.md R48). -/
inductive Txn where
  | read (addr : BitVec 16)
  | write (addr : BitVec 16) (data : Word)
  deriving DecidableEq, Repr

/-- The response of a bus transaction (20_memory.md R48). -/
inductive Resp where
  | okay
  | slverr
  deriving DecidableEq, Repr

/-- What the unit drives on the bus when a transaction completes: the response and, for a read, a data word. -/
structure BusResp where
  resp : Resp
  rdata : Option Word
  deriving DecidableEq, Repr

/-- One step of an agent (00_scope.md R5), or a change of the reset pin (70_reset_and_hazards.md R132).
Which agent moves next is input data: 70_reset_and_hazards.md R145 leaves every interleaving open. -/
inductive Event where
  /-- The host performs a bus transaction. -/
  | bus (t : Txn)
  /-- The engine takes its turn: its completion step, if it is enabled. -/
  | engine
  /-- The entropy source answers the outstanding request. -/
  | entropy (a : Answer)
  /-- The entropy source answers, late, a request that a reset has withdrawn (R132). -/
  | lateEntropy (a : Answer)
  /-- The pin `rst_n` is driven to this level. -/
  | rst (level : Bool)
  deriving DecidableEq, Repr

/-- The byte-addressed storage: WORDBUF, BUF and DICT, keyed by bus offset (20_memory.md R50). A list of
(address, byte) pairs with strictly rising addresses and no byte 0x00, which is what an unlisted address
reads as: the reset contents of 10_state.md R32, R33 and R34. -/
abbrev Memory := List Host.Cell

/-- The state. Registers that are constants (ID, CAPS, PMOD0-3) are in Config, and views of stored state
(STATUS, CMD, `irq`) are computed in Machine/Flags.lean and Machine/Bus.lean. -/
structure State where
  /-- CTRL.IE (10_state.md R19). -/
  ie : Bool
  /-- ENG, and so STATUS.BUSY (R36, R43). -/
  eng : Eng
  /-- STATUS.DONE (R37). -/
  done : Bool
  /-- STATUS.DICT_VALID (R41). -/
  dictValid : Bool
  /-- STATUS.OVR (R39). -/
  ovr : Bool
  /-- STATUS.ACCERR (R40). -/
  accerr : Bool
  /-- STATUS.ERRCODE (R38). -/
  errcode : ErrCode
  /-- ARG0, ARG1, ARG2 (R22). -/
  arg0 : Word
  arg1 : Word
  arg2 : Word
  /-- RES0 (R23). -/
  res0 : Word
  /-- ERRCMD (R24). -/
  errcmd : Word
  /-- The command latch CMDL, which CMD reads back (R21, R26). -/
  cmdl : Word
  /-- The latched ARG values ARGL0, ARGL1, ARGL2 (R26). -/
  argl0 : Word
  argl1 : Word
  argl2 : Word
  /-- w0 to w15 (R28). -/
  w : Vector U256 16
  /-- COEF[0] to COEF[15] (R29). -/
  coef : Vector U128 16
  /-- SHX[0] to SHX[15] (R30). -/
  shx : Vector U128 16
  /-- SHY[0] to SHY[15] (R30). -/
  shy : Vector U128 16
  /-- IDX[0] to IDX[23] (R31). -/
  idx : Vector (BitVec 11) 24
  /-- WORDBUF, BUF and DICT (R32, R33, R34). -/
  mem : Memory
  /-- The answers the command in flight has received so far, oldest first: with the command latch it determines
  the pending entropy request, part of Busy (R43). -/
  answers : List Answer
  /-- The level of the pin `rst_n` (60_exceptions.md R126). -/
  rstN : Bool
  /-- The bus response of the latest transaction, an output (20_memory.md R48). -/
  busOut : Option BusResp
  /-- What the environment does next, in order: the model's own field (assumption log 1). -/
  inputs : List Event
  deriving DecidableEq, Repr

/-- The state after reset (10_state.md R45): every element at the value of that table, the unit out of reset,
no transaction answered and no input pending. -/
def State.reset : State where
  ie := false
  eng := .idle
  done := false
  dictValid := false
  ovr := false
  accerr := false
  errcode := .ok
  arg0 := 0#32
  arg1 := 0#32
  arg2 := 0#32
  res0 := 0#32
  errcmd := 0#32
  cmdl := 0#32
  argl0 := 0#32
  argl1 := 0#32
  argl2 := 0#32
  w := Vector.replicate 16 0#256
  coef := Vector.replicate 16 0#128
  shx := Vector.replicate 16 0#128
  shy := Vector.replicate 16 0#128
  idx := Vector.replicate 24 0#11
  mem := []
  answers := []
  rstN := true
  busOut := none
  inputs := []

/-- Why the machine stops. It never does: 93_implementation_defined.md gives every command word one outcome and
every bus access a response, and a command error is a completion, not a stop (60_exceptions.md R120). No
constructor, so nothing raises one: safe, since no behaviour is left out (the model's reading, assumption log 13). -/
inductive Fault where
  deriving DecidableEq, Repr

/-- Why an instruction has no meaning in the model. -/
inductive Refusal where
  /-- Raised by an arm of `exec` whose instruction is not modelled yet, by name; no arm raises it now. Safe: the
  model stops where the hardware would go on. -/
  | notModelled (mnemonic : String)
  deriving DecidableEq, Repr

end Sys2Proof.Machine
end

