-- ==== Sys2Proof/Machine/Ops.lean ====
section
/-! DEFINITION. The shared operations: reading and writing the byte storage, the two ways a command completes
(60_exceptions.md R115), and draws from the entropy source (41_entropy.md R88, R89). -/

namespace Sys2Proof.Machine

/-! ### Byte storage -/

/-- What an unlisted address of the byte storage reads as (10_state.md R32, R33, R34: reset to 0x00). -/
def unlistedByte : Byte := 0#8

/-- The byte at a bus offset. -/
def memRead : Memory → Nat → Byte
  | [], _ => unlistedByte
  | (k, b) :: rest, a => if k = a then b else memRead rest a

/-- The storage with one byte written, in the canonical form: rising addresses, no byte `unlistedByte`. -/
def memWrite : Memory → Nat → Byte → Memory
  | [], a, b => if b = unlistedByte then [] else [(a, b)]
  | (k, c) :: rest, a, b =>
    if a < k then (if b = unlistedByte then (k, c) :: rest else (a, b) :: (k, c) :: rest)
    else if a = k then (if b = unlistedByte then rest else (a, b) :: rest)
    else (k, c) :: memWrite rest a b

/-- The `n` bytes from a bus offset on: MemRead (00_scope.md R10) when the offset is BUF's. -/
def memReadBytes (m : Memory) (a n : Nat) : List Byte :=
  (List.range n).map fun i => memRead m (a + i)

/-- Writes a byte string from a bus offset on: MemWrite (00_scope.md R10) when the offset is BUF's. -/
def memWriteBytes : Memory → Nat → List Byte → Memory
  | m, _, [] => m
  | m, a, b :: bs => memWriteBytes (memWrite m a b) (a + 1) bs

/-- Every listed address is at least `lo`, addresses rise strictly, and no listed byte is `unlistedByte`. -/
def Memory.wfFrom : Nat → Memory → Bool
  | _, [] => true
  | lo, (k, b) :: rest => decide (lo ≤ k) && decide (b ≠ unlistedByte) && Memory.wfFrom (k + 1) rest

/-- The canonical form of the byte storage. -/
def Memory.wf (m : Memory) : Bool := Memory.wfFrom 0 m

/-! ### Completion -/

/-- How the evaluation of a command's pseudocode ends (60_exceptions.md R115). -/
inductive CmdResult where
  /-- A draw of `nbits` bits has no answer yet: the completion step is not enabled. -/
  | wait (nbits : Nat)
  /-- `raise code` (00_scope.md R12). -/
  | raise (code : ErrCode)
  /-- Success: the state with every staged write (00_scope.md R10) made. -/
  | commit (s : State)
  deriving DecidableEq, Repr

/-- A command ends with an error (60_exceptions.md R115, R117): the code goes to STATUS.ERRCODE and the command
word to ERRCMD. This is the unit's whole exception entry (R120: no trap, no mode, no transfer of control). -/
def raiseError (code : ErrCode) (s : State) : State :=
  { s with errcode := code, errcmd := s.cmdl, done := true, eng := .idle, answers := [] }

/-- A command whose staged writes are in `s` ends with success (60_exceptions.md R115). -/
def completeOk (s : State) : State :=
  { s with errcode := .ok, done := true, eng := .idle, answers := [] }

/-- The completion step of a command whose pseudocode ends as `r` (60_exceptions.md R115). A command that waits for
an entropy answer has no completion step: its turn changes nothing (70_reset_and_hazards.md R144). -/
def complete (s : State) : CmdResult → Host.Outcome State Fault Refusal
  | .wait _ => .next s
  | .raise code => .next (raiseError code s)
  | .commit t => .next (completeOk t)

/-- The host's acknowledgement of a completion, the unit's only return from an error (60_exceptions.md R121): writing
1 to STATUS.DONE, OVR or ACCERR clears it; ERRCODE and ERRCMD keep their values. -/
def acknowledge (v : Word) (s : State) : State :=
  { s with done := s.done && !v.getLsbD 1, ovr := s.ovr && !v.getLsbD 4, accerr := s.accerr && !v.getLsbD 5 }

/-- A CMD write is accepted (10_state.md R26, R36): BUSY ← 1, DONE ← 0, and the latch takes the word and the ARGs. -/
def acceptCommand (c : Word) (s : State) : State :=
  { s with eng := .busy, done := false, cmdl := c, argl0 := s.arg0, argl1 := s.arg1, argl2 := s.arg2, answers := [] }

/-- Every state element goes to its reset value (10_state.md R45), `rst_n` standing at `level`; what the
environment does next is not the unit's to reset. -/
def resetUnit (level : Bool) (s : State) : State :=
  { State.reset with rstN := level, inputs := s.inputs }

/-! ### Entropy draws -/

/-- How a draw from the answers received so far ends: a value and the answers left, FAIL, or no answer yet. -/
inductive Drawn (α : Type) where
  | got (v : α) (rest : List Answer)
  | failed
  | pending (nbits : Nat)
  deriving DecidableEq, Repr

/-- Draw.Bits(n) (41_entropy.md R88): a natural in [0, 2^n), the low n lines of the answer's data. -/
def drawBits (n : Nat) : List Answer → Drawn Nat
  | [] => .pending n
  | .fail :: _ => .failed
  | .bits d :: rest => .got (d.toNat % 2 ^ n) rest

/-- Draw.Field(), the rejection sampler (41_entropy.md R89): 0 and P are drawn again, without a bound. -/
def drawField : List Answer → Drawn Nat
  | [] => .pending 127
  | .fail :: _ => .failed
  | .bits d :: rest =>
    let v := d.toNat % 2 ^ 127
    if 1 ≤ v ∧ v < Config.P then .got v rest else drawField rest

/-- `n` draws of Draw.Field() in order (43_sharing.md R104), stopping at the first that fails or has no answer. -/
def drawFields : Nat → List Answer → Drawn (List Nat)
  | 0, as => .got [] as
  | n + 1, as =>
    match drawField as with
    | .pending k => .pending k
    | .failed => .failed
    | .got v rest =>
      match drawFields n rest with
      | .pending k => .pending k
      | .failed => .failed
      | .got vs rest' => .got (v :: vs) rest'

/-- The command goes on with a drawn value, raises ENTROPY_FAIL, or waits (41_entropy.md R88). -/
def withDraw {α : Type} (d : Drawn α) (k : α → CmdResult) : CmdResult :=
  match d with
  | .pending n => .wait n
  | .failed => .raise .entropyFail
  | .got v _ => k v

end Sys2Proof.Machine
end

