-- ==== Sys2Proof/Machine/Flags.lean ====
section
/-! DEFINITION. STATUS and CTRL as words, the error codes' numbers and classes (60_exceptions.md R114), and the
interrupt output (R123). Field arithmetic has no flags (40_field.md R81). -/

namespace Sys2Proof.Machine

/-- The code column of 60_exceptions.md R114. -/
def ErrCode.toByte : ErrCode → Byte
  | .ok => 0x00#8
  | .formatWordCount => 0x01#8
  | .formatUnknownWord => 0x02#8
  | .formatDict => 0x03#8
  | .formatDataShort => 0x04#8
  | .checksumMismatch => 0x10#8
  | .cryptoAuth => 0x20#8
  | .valueRange => 0x30#8
  | .valueDupShare => 0x31#8
  | .valueZeroInv => 0x32#8
  | .valueParam => 0x33#8
  | .valueLength => 0x34#8
  | .illegalCmd => 0x40#8
  | .entropyFail => 0x50#8

/-- The "source kind" column of 60_exceptions.md R114, by which the host maps codes (R122). -/
inductive SourceKind where
  | success
  | formatError
  | checksumMismatchError
  | cryptoError
  | valueError
  /-- ILLEGAL_CMD: the source has no command words. -/
  | commandError
  /-- ENTROPY_FAIL: the source's failing random-number call. -/
  | entropyError
  deriving DecidableEq, Repr

/-- The source kind of a code (60_exceptions.md R114). -/
def ErrCode.kind : ErrCode → SourceKind
  | .ok => .success
  | .formatWordCount => .formatError
  | .formatUnknownWord => .formatError
  | .formatDict => .formatError
  | .formatDataShort => .formatError
  | .checksumMismatch => .checksumMismatchError
  | .cryptoAuth => .cryptoError
  | .valueRange => .valueError
  | .valueDupShare => .valueError
  | .valueZeroInv => .valueError
  | .valueParam => .valueError
  | .valueLength => .valueError
  | .illegalCmd => .commandError
  | .entropyFail => .entropyError

/-- STATUS.BUSY: 1 while a command is in flight (10_state.md R20, R43). -/
def busyFlag (s : State) : Bool := s.eng = .busy

/-- STATUS.ERR, not stored: 1 exactly when ERRCODE is not 0 (10_state.md R20, R38). -/
def errFlag (s : State) : Bool := s.errcode ≠ .ok

/-- The STATUS word (10_state.md R20): bits 7:6 and 31:16 read 0. -/
def statusWord (s : State) : Word :=
  0#16 ++ s.errcode.toByte ++ 0#2 ++ BitVec.ofBool s.accerr ++ BitVec.ofBool s.ovr ++
    BitVec.ofBool s.dictValid ++ BitVec.ofBool (errFlag s) ++ BitVec.ofBool s.done ++ BitVec.ofBool (busyFlag s)

/-- The CTRL word (10_state.md R19): SRST and bits 31:2 read 0. -/
def ctrlWord (s : State) : Word := (BitVec.ofBool s.ie).setWidth 32

/-- The interrupt output `irq` = CTRL.IE AND STATUS.DONE, at all times (60_exceptions.md R123). -/
def irq (s : State) : Bool := s.ie && s.done

end Sys2Proof.Machine
end

