-- ==== Sys2Proof/Machine/Operands.lean ====
section
/-! DEFINITION. Operand forms: W registers, latched ARG values, table slots, field-element checks, the 32-bit
lanes of wide values (20_memory.md R51, R53) and the big-endian byte strings of commands (00_scope.md R11). -/

namespace Sys2Proof.Machine

/-! ### W registers and latched ARG values -/

/-- W[r] (00_scope.md R10): no register is hardwired, banked or aliased (10_state.md R28). -/
def readW (s : State) (r : Reg) : U256 := s.w[r]

/-- W[r] <- v. -/
def writeW (s : State) (r : Reg) (v : U256) : State :=
  { s with w := s.w.set r.val v r.isLt }

/-- ARG0 in a command's pseudocode: the latched value, a natural (10_state.md R26, 30_encoding.md R71). -/
def argNat0 (s : State) : Nat := s.argl0.toNat
/-- ARG1 in a command's pseudocode. -/
def argNat1 (s : State) : Nat := s.argl1.toNat
/-- ARG2 in a command's pseudocode. -/
def argNat2 (s : State) : Nat := s.argl2.toNat

/-- A natural below 2^256 in a W register: zext_256 (00_scope.md R9). -/
def zext256 (v : Nat) : U256 := BitVec.ofNat 256 v

/-- A natural below 2^128 in a slot. -/
def zext128 (v : Nat) : U128 := BitVec.ofNat 128 v

/-- RES0 <- v (10_state.md R23). -/
def writeRes0 (s : State) (v : Nat) : State := { s with res0 := BitVec.ofNat 32 v }

/-! ### Field elements and slots -/

/-- A field element is a natural in [0, P) (40_field.md R81). -/
def isField (v : Nat) : Bool := decide (v < Config.P)

/-- A field element other than 0. -/
def isNonzeroField (v : Nat) : Bool := decide (v ≠ 0) && isField v

/-- The first `n` slots of a table, as naturals. -/
def slots {m : Nat} (v : Vector U128 m) (n : Nat) : List Nat :=
  (v.toList.take n).map BitVec.toNat

/-- A table with its first `l.length` slots written from `l`, the others unchanged. -/
def writeSlots {m : Nat} (v : Vector U128 m) (l : List Nat) : Vector U128 m :=
  Vector.ofFn fun i =>
    match l[i.val]? with
    | some x => zext128 x
    | none => v[i]

/-! ### Lanes of wide values -/

/-- The 32-bit word k of a wide value: bits [32k + 31 : 32k] (20_memory.md R51). -/
def lane {n : Nat} (v : BitVec n) (k : Nat) : Word := v.extractLsb' (32 * k) 32

/-- A wide value with its 32-bit word k replaced (20_memory.md R51). -/
def setLane {n : Nat} (v : BitVec n) (k : Nat) (x : Word) : BitVec n :=
  (v &&& ~~~((0xFFFFFFFF#32).setWidth n <<< (32 * k))) ||| (x.setWidth n <<< (32 * k))

/-- The word at a bus offset of the byte storage: little-endian byte lanes (20_memory.md R53). -/
def memReadWord (m : Memory) (a : Nat) : Word :=
  memRead m (a + 3) ++ memRead m (a + 2) ++ memRead m (a + 1) ++ memRead m a

/-- A word written at a bus offset of the byte storage (20_memory.md R53). -/
def memWriteWord (m : Memory) (a : Nat) (v : Word) : Memory :=
  memWriteBytes m a [v.extractLsb' 0 8, v.extractLsb' 8 8, v.extractLsb' 16 8, v.extractLsb' 24 8]

/-! ### Big-endian byte strings -/

/-- The `n` bytes of `v`, the most significant first (00_scope.md R11). -/
def toBytesBE (n v : Nat) : List Byte :=
  (List.range n).map fun i => BitVec.ofNat 8 (v >>> (8 * (n - 1 - i)))

/-- be32 (00_scope.md R11): byte i is v[255 − 8i : 248 − 8i]. -/
def be32 (v : U256) : List Byte := toBytesBE 32 v.toNat

/-- be12 (00_scope.md R11), for the 96-bit nonce. -/
def be12 (v : Nat) : List Byte := toBytesBE 12 v

/-- be16 (00_scope.md R11). -/
def be16 (v : U128) : List Byte := toBytesBE 16 v.toNat

/-- int_be (00_scope.md R11), the inverse of the `be` forms. -/
def intBE (s : List Byte) : Nat := s.foldl (fun acc b => acc * 256 + b.toNat) 0

/-! ### Words of the dictionary -/

/-- The bytes up to the first 0x00, or all of them (10_state.md R32, R34). -/
def untilZero (bs : List Byte) : List Byte := bs.takeWhile fun b => b ≠ 0#8

/-- word(i), the word of dictionary entry i (10_state.md R34). -/
def dictWord (m : Memory) (i : Nat) : List Byte :=
  untilZero (memReadBytes m (Config.dictBase + Config.dictWordBytes * i) Config.dictWordBytes)

/-- The candidate word in WORDBUF (10_state.md R32). -/
def wordbufWord (m : Memory) : List Byte :=
  untilZero (memReadBytes m Config.wordbufBase Config.dictWordBytes)

end Sys2Proof.Machine
end

