-- ==== Sys2Proof/Machine/Bus.lean ====
section
/-! DEFINITION. The host bus (20_memory.md): the address map of R50, reads and writes of every register and
window, blocking while BUSY (R55), and the responses of R66. -/

namespace Sys2Proof.Machine

/-- What a word of the address map is (20_memory.md R50). -/
inductive Target where
  | id
  | ctrl
  | status
  | cmd
  | arg0
  | arg1
  | arg2
  | res0
  | errcmd
  | caps
  | pmod (k : Fin 4)
  /-- word k of W[n] -/
  | w (n : Fin 16) (k : Fin 8)
  /-- word k of COEF[i] -/
  | coef (i : Fin 16) (k : Fin 4)
  | shx (i : Fin 16) (k : Fin 4)
  | shy (i : Fin 16) (k : Fin 4)
  | idx (i : Fin 24)
  /-- the word of WORDBUF at this bus offset -/
  | wordbuf (offset : Nat)
  /-- the word of BUF at this bus offset -/
  | buf (offset : Nat)
  /-- the word of DICT at this bus offset -/
  | dict (offset : Nat)
  deriving DecidableEq, Repr

/-- The address map (20_memory.md R50). `none` is an access that completes with SLVERR: A[1:0] ≠ 0 (R49), or an
offset outside every range (R54). -/
def target (addr : BitVec 16) : Option Target :=
  let a := addr.toNat
  if a % 4 ≠ 0 then none
  else if a = 0x0000 then some .id
  else if a = 0x0004 then some .ctrl
  else if a = 0x0008 then some .status
  else if a = 0x000C then some .cmd
  else if a = 0x0010 then some .arg0
  else if a = 0x0014 then some .arg1
  else if a = 0x0018 then some .arg2
  else if a = 0x001C then some .res0
  else if a = 0x0020 then some .errcmd
  else if a = 0x0024 then some .caps
  else if h : 0x0040 ≤ a ∧ a ≤ 0x004F then some (.pmod ⟨(a - 0x0040) / 4, by omega⟩)
  else if h : 0x0100 ≤ a ∧ a ≤ 0x02FF then
    some (.w ⟨(a - 0x0100) / 32, by omega⟩ ⟨(a - 0x0100) % 32 / 4, by omega⟩)
  else if h : 0x0400 ≤ a ∧ a ≤ 0x04FF then
    some (.coef ⟨(a - 0x0400) / 16, by omega⟩ ⟨(a - 0x0400) % 16 / 4, by omega⟩)
  else if h : 0x0500 ≤ a ∧ a ≤ 0x05FF then
    some (.shx ⟨(a - 0x0500) / 16, by omega⟩ ⟨(a - 0x0500) % 16 / 4, by omega⟩)
  else if h : 0x0600 ≤ a ∧ a ≤ 0x06FF then
    some (.shy ⟨(a - 0x0600) / 16, by omega⟩ ⟨(a - 0x0600) % 16 / 4, by omega⟩)
  else if h : 0x0700 ≤ a ∧ a ≤ 0x075F then some (.idx ⟨(a - 0x0700) / 4, by omega⟩)
  else if 0x0780 ≤ a ∧ a ≤ 0x078F then some (.wordbuf a)
  else if 0x1000 ≤ a ∧ a ≤ 0x1FFF then some (.buf a)
  else if 0x8000 ≤ a then some (.dict a)
  else none

/-- Operand storage, blocked while BUSY = 1 (20_memory.md R50, R55). -/
def isOperandStorage : Target → Bool
  | .id | .ctrl | .status | .cmd | .arg0 | .arg1 | .arg2 | .res0 | .errcmd | .caps | .pmod _ => false
  | .w _ _ | .coef _ _ | .shx _ _ | .shy _ _ | .idx _ | .wordbuf _ | .buf _ | .dict _ => true

/-- What a word of the address map reads as: no read has a side effect (20_memory.md R58). -/
def readTarget (s : State) : Target → Word
  | .id => Config.idValue
  | .ctrl => ctrlWord s
  | .status => statusWord s
  | .cmd => s.cmdl
  | .arg0 => s.arg0
  | .arg1 => s.arg1
  | .arg2 => s.arg2
  | .res0 => s.res0
  | .errcmd => s.errcmd
  | .caps => Config.capsValue
  | .pmod k => lane (zext128 Config.P) k.val
  | .w n k => lane s.w[n] k.val
  | .coef i k => lane s.coef[i] k.val
  | .shx i k => lane s.shx[i] k.val
  | .shy i k => lane s.shy[i] k.val
  | .idx i => s.idx[i].setWidth 32
  | .wordbuf a => memReadWord s.mem a
  | .buf a => memReadWord s.mem a
  | .dict a => memReadWord s.mem a

/-- A CTRL write (10_state.md R19): SRST = 1 performs the soft reset (70_reset_and_hazards.md R133) whatever IE is;
otherwise IE is written. -/
def writeCtrl (v : Word) (s : State) : State :=
  if v.getLsbD 1 then resetUnit s.rstN s else { s with ie := v.getLsbD 0 }

/-- A CMD write (10_state.md R21): accepted when BUSY = 0 (R36), dropped with OVR set when BUSY = 1 (R39). -/
def writeCmd (v : Word) (s : State) : State :=
  match s.eng with
  | .idle => acceptCommand v s
  | .busy => { s with ovr := true }

/-- What a write to a word of the address map does: a read-only register ignores it (10_state.md R17), and a DICT
write clears DICT_VALID whatever the value (R41). -/
def writeTarget (v : Word) (s : State) : Target → State
  | .id => s
  | .ctrl => writeCtrl v s
  | .status => acknowledge v s
  | .cmd => writeCmd v s
  | .arg0 => { s with arg0 := v }
  | .arg1 => { s with arg1 := v }
  | .arg2 => { s with arg2 := v }
  | .res0 => s
  | .errcmd => s
  | .caps => s
  | .pmod _ => s
  | .w n k => { s with w := s.w.set n.val (setLane s.w[n] k.val v) n.isLt }
  | .coef i k => { s with coef := s.coef.set i.val (setLane s.coef[i] k.val v) i.isLt }
  | .shx i k => { s with shx := s.shx.set i.val (setLane s.shx[i] k.val v) i.isLt }
  | .shy i k => { s with shy := s.shy.set i.val (setLane s.shy[i] k.val v) i.isLt }
  | .idx i => { s with idx := s.idx.set i.val (v.setWidth 11) i.isLt }
  | .wordbuf a => { s with mem := memWriteWord s.mem a v }
  | .buf a => { s with mem := memWriteWord s.mem a v }
  | .dict a => { s with mem := memWriteWord s.mem a v, dictValid := false }

/-- The transaction reaches operand storage of a busy unit (20_memory.md R55). -/
def isBlocked (s : State) (t : Target) : Bool := isOperandStorage t && busyFlag s

/-- The unit completes a transaction with this response and, for a read, this data word. -/
def respond (r : Resp) (rdata : Option Word) (s : State) : State :=
  { s with busOut := some ⟨r, rdata⟩ }

/-- A host transaction on a unit out of reset (20_memory.md R66). -/
def busAccess (t : Txn) (s : State) : State :=
  match t with
  | .read a =>
    match target a with
    | none => respond .slverr (some 0#32) s
    | some tg =>
      if isBlocked s tg then respond .okay (some 0#32) { s with accerr := true }
      else respond .okay (some (readTarget s tg)) s
  | .write a v =>
    match target a with
    | none => respond .slverr none s
    | some tg =>
      if isBlocked s tg then respond .okay none { s with accerr := true }
      else respond .okay none (writeTarget v s tg)

/-- The host's step: while `rst_n` = 0 the unit takes no bus transaction (70_reset_and_hazards.md R132). -/
def busStep (t : Txn) (s : State) : State :=
  match s.rstN with
  | true => busAccess t s
  | false => { s with busOut := none }

end Sys2Proof.Machine
end

