-- ==== Sys2Proof/Machine/Aead.lean ====
section
/-! DEFINITION. The AEAD framing commands (44_aead.md): AENC, ADEC. The primitive is the open parameter
AEAD_ALG, `Config.aead`; the associated data is the empty string in both directions (R108). -/

namespace Sys2Proof.Machine

/-- MemRead(a, n) (00_scope.md R10): the bytes BUF[a..a+n). -/
def bufRead (s : State) (a n : Nat) : List Byte := memReadBytes s.mem (Config.bufBase + a) n

/-- MemWrite(a, n, bs) (00_scope.md R10), n the length of `bs`. -/
def bufWrite (s : State) (a : Nat) (bs : List Byte) : State :=
  { s with mem := memWriteBytes s.mem (Config.bufBase + a) bs }

/-- The AEAD key: be32(W[ra]), with no derivation step (44_aead.md R108). -/
def aeadKey (s : State) (ra : Reg) : List Byte := be32 (readW s ra)

/-- The pseudocode of AENC (44_aead.md R109): source range, destination range, nonce draw. -/
def aencResult (ra : Reg) (s : State) : CmdResult :=
  let src := argNat0 s
  let n := argNat1 s
  let dst := argNat2 s
  if Config.bufBytes < src + n then .raise .valueLength
  else if Config.bufBytes < dst + n + 28 then .raise .valueLength
  else
    withDraw (drawBits 96 s.answers) fun v =>
      let nonce := be12 v
      let blob := nonce ++ Config.aead.sealBytes (aeadKey s ra) nonce [] (bufRead s src n)
      .commit (writeRes0 (bufWrite s dst blob) (n + 28))

/-- AENC (44_aead.md R109). -/
def execAenc (ra : Reg) (s : State) : Host.Outcome State Fault Refusal :=
  complete s (aencResult ra s)

/-- The `n` bytes that ADEC writes for an opened plaintext (44_aead.md R110): the plaintext, and, where the primitive
answers one of another length, on which R110 states no bytes, free values (assumption log 14). -/
def plaintextBytes (key blob pt : List Byte) (n : Nat) : List Byte :=
  if pt.length = n then pt else (List.range n).map (Config.freePlaintextByte key blob)

/-- The pseudocode of ADEC (44_aead.md R110): source range, nonce, tag, destination range, authentication. -/
def adecResult (ra : Reg) (s : State) : CmdResult :=
  let src := argNat0 s
  let n := argNat1 s
  let dst := argNat2 s
  if Config.bufBytes < src + n then .raise .valueLength
  else if n < 12 then .raise .formatDataShort
  else if n < 28 then .raise .cryptoAuth
  else if Config.bufBytes < dst + (n - 28) then .raise .valueLength
  else
    let blob := bufRead s src n
    match Config.aead.openBytes (aeadKey s ra) (blob.take 12) [] (blob.drop 12) with
    | none => .raise .cryptoAuth
    | some pt => .commit (writeRes0 (bufWrite s dst (plaintextBytes (aeadKey s ra) blob pt (n - 28))) (n - 28))

/-- ADEC (44_aead.md R110). -/
def execAdec (ra : Reg) (s : State) : Host.Outcome State Fault Refusal :=
  complete s (adecResult ra s)

end Sys2Proof.Machine
end

