-- ==== Sys2Proof/Machine/Entropy.lean ====
section
/-! DEFINITION. The entropy commands (41_entropy.md): RND256, RNDF. -/

namespace Sys2Proof.Machine

/-- The pseudocode of RND256 (41_entropy.md R90): any value in [0, 2^256). -/
def rnd256Result (rd : Reg) (s : State) : CmdResult :=
  withDraw (drawBits 256 s.answers) fun v => .commit (writeW s rd (zext256 v))

/-- RND256 (41_entropy.md R90). -/
def execRnd256 (rd : Reg) (s : State) : Host.Outcome State Fault Refusal :=
  complete s (rnd256Result rd s)

/-- The pseudocode of RNDF (41_entropy.md R91): draws of 0 and P are discarded. -/
def rndfResult (rd : Reg) (s : State) : CmdResult :=
  withDraw (drawField s.answers) fun v => .commit (writeW s rd (zext256 v))

/-- RNDF (41_entropy.md R91). -/
def execRndf (rd : Reg) (s : State) : Host.Outcome State Fault Refusal :=
  complete s (rndfResult rd s)

end Sys2Proof.Machine
end

