-- ==== Sys2Proof/Machine/Field.lean ====
section
/-! DEFINITION. The general and field-arithmetic commands (40_field.md): NOP, MOV, FADD, FSUB, FMUL, FINV. All
arithmetic is exact on naturals before the reduction modulo P (R81). -/

namespace Sys2Proof.Machine

/-- A command over two field operands: both are checked, the first first, and `op` gives the result
(40_field.md R81, R84, R85, R86). -/
def fieldBinary (op : Nat → Nat → Nat) (rd ra rb : Reg) (s : State) : CmdResult :=
  let x := (readW s ra).toNat
  let y := (readW s rb).toNat
  if isField x = false then .raise .valueRange
  else if isField y = false then .raise .valueRange
  else .commit (writeW s rd (zext256 (op x y)))

/-- (x + y) mod P (40_field.md R84). -/
def fieldAdd (x y : Nat) : Nat := (x + y) % Config.P

/-- (x − y + P) mod P, for field elements (40_field.md R85). -/
def fieldSub (x y : Nat) : Nat := (x + Config.P - y) % Config.P

/-- (x · y) mod P (40_field.md R86). -/
def fieldMul (x y : Nat) : Nat := (x * y) % Config.P

/-- The loop of 40_field.md R87 on (r0, r1) and (t0, t1), for at most `fuel` turns: t0 when r1 has reached 0. -/
def euclid : Nat → Nat → Nat → Int → Int → Int
  | 0, _, _, t0, _ => t0
  | fuel + 1, r0, r1, t0, t1 =>
    if r1 = 0 then t0
    else euclid fuel r1 (r0 - r0 / r1 * r1) t1 (t0 - (r0 / r1 : Nat) * t1)

/-- The inverse of x modulo P by the extended Euclidean algorithm (40_field.md R87). Two turns at least halve the
remainder, so from P < 2^127 the loop ends within 255 turns. -/
def fieldInv (x : Nat) : Nat := (euclid 256 Config.P x 0 1 % (Config.P : Int)).toNat

/-- NOP (40_field.md R82). -/
def execNop (s : State) : Host.Outcome State Fault Refusal :=
  complete s (.commit s)

/-- MOV (40_field.md R83): all 256 bits, no range check. -/
def execMov (rd ra : Reg) (s : State) : Host.Outcome State Fault Refusal :=
  complete s (.commit (writeW s rd (readW s ra)))

/-- FADD (40_field.md R84). -/
def execFadd (rd ra rb : Reg) (s : State) : Host.Outcome State Fault Refusal :=
  complete s (fieldBinary fieldAdd rd ra rb s)

/-- FSUB (40_field.md R85). -/
def execFsub (rd ra rb : Reg) (s : State) : Host.Outcome State Fault Refusal :=
  complete s (fieldBinary fieldSub rd ra rb s)

/-- FMUL (40_field.md R86). -/
def execFmul (rd ra rb : Reg) (s : State) : Host.Outcome State Fault Refusal :=
  complete s (fieldBinary fieldMul rd ra rb s)

/-- The pseudocode of FINV (40_field.md R87): the range check before the zero check. -/
def finvResult (rd ra : Reg) (s : State) : CmdResult :=
  let x := (readW s ra).toNat
  if isField x = false then .raise .valueRange
  else if x = 0 then .raise .valueZeroInv
  else .commit (writeW s rd (zext256 (fieldInv x)))

/-- FINV (40_field.md R87). -/
def execFinv (rd ra : Reg) (s : State) : Host.Outcome State Fault Refusal :=
  complete s (finvResult rd ra s)

end Sys2Proof.Machine
end

