-- ==== Sys2Proof/Machine/Sha256.lean ====
section
/-! DEFINITION. HASH256, whose value in this spec is SHA-256 (00_scope.md R7, R14). The spec gives no algorithm:
SHA-256 is written here from general knowledge (PRESUMED, assumption log 4) and checked against the digests of
95_test_vectors.md section 2.4. -/

namespace Sys2Proof.Machine

/-- The round constants, first quarter. -/
def shaK0 : List Word :=
  [0x428A2F98#32, 0x71374491#32, 0xB5C0FBCF#32, 0xE9B5DBA5#32, 0x3956C25B#32, 0x59F111F1#32,
   0x923F82A4#32, 0xAB1C5ED5#32, 0xD807AA98#32, 0x12835B01#32, 0x243185BE#32, 0x550C7DC3#32,
   0x72BE5D74#32, 0x80DEB1FE#32, 0x9BDC06A7#32, 0xC19BF174#32]
/-- The round constants, second quarter. -/
def shaK1 : List Word :=
  [0xE49B69C1#32, 0xEFBE4786#32, 0x0FC19DC6#32, 0x240CA1CC#32, 0x2DE92C6F#32, 0x4A7484AA#32,
   0x5CB0A9DC#32, 0x76F988DA#32, 0x983E5152#32, 0xA831C66D#32, 0xB00327C8#32, 0xBF597FC7#32,
   0xC6E00BF3#32, 0xD5A79147#32, 0x06CA6351#32, 0x14292967#32]
/-- The round constants, third quarter. -/
def shaK2 : List Word :=
  [0x27B70A85#32, 0x2E1B2138#32, 0x4D2C6DFC#32, 0x53380D13#32, 0x650A7354#32, 0x766A0ABB#32,
   0x81C2C92E#32, 0x92722C85#32, 0xA2BFE8A1#32, 0xA81A664B#32, 0xC24B8B70#32, 0xC76C51A3#32,
   0xD192E819#32, 0xD6990624#32, 0xF40E3585#32, 0x106AA070#32]
/-- The round constants, last quarter. -/
def shaK3 : List Word :=
  [0x19A4C116#32, 0x1E376C08#32, 0x2748774C#32, 0x34B0BCB5#32, 0x391C0CB3#32, 0x4ED8AA4A#32,
   0x5B9CCA4F#32, 0x682E6FF3#32, 0x748F82EE#32, 0x78A5636F#32, 0x84C87814#32, 0x8CC70208#32,
   0x90BEFFFA#32, 0xA4506CEB#32, 0xBEF9A3F7#32, 0xC67178F2#32]

/-- The 64 round constants: the first 32 bits of the fractional parts of the cube roots of the first 64 primes. -/
def shaK : List Word := shaK0 ++ shaK1 ++ shaK2 ++ shaK3

/-- The eight working words. -/
structure ShaState where
  a : Word
  b : Word
  c : Word
  d : Word
  e : Word
  f : Word
  g : Word
  h : Word
  deriving DecidableEq, Repr

/-- The initial hash value: the first 32 bits of the fractional parts of the square roots of the first 8 primes. -/
def shaInit : ShaState :=
  ⟨0x6A09E667#32, 0xBB67AE85#32, 0x3C6EF372#32, 0xA54FF53A#32,
   0x510E527F#32, 0x9B05688C#32, 0x1F83D9AB#32, 0x5BE0CD19#32⟩

/-- One round, with message word `w` and round constant `k`. -/
def shaRound (s : ShaState) (k w : Word) : ShaState :=
  let t1 := s.h + (s.e.rotateRight 6 ^^^ s.e.rotateRight 11 ^^^ s.e.rotateRight 25) +
    ((s.e &&& s.f) ^^^ (~~~s.e &&& s.g)) + k + w
  let t2 := (s.a.rotateRight 2 ^^^ s.a.rotateRight 13 ^^^ s.a.rotateRight 22) +
    ((s.a &&& s.b) ^^^ (s.a &&& s.c) ^^^ (s.b &&& s.c))
  ⟨t1 + t2, s.a, s.b, s.c, s.d + t1, s.e, s.f, s.g⟩

/-- The message word 16 places after the head of the last 16 words `ws`, oldest first. -/
def shaNextWord (ws : List Word) : Word :=
  let x := ws.getD 14 0#32
  let y := ws.getD 1 0#32
  (x.rotateRight 17 ^^^ x.rotateRight 19 ^^^ (x >>> 10)) + ws.getD 9 0#32 +
    (y.rotateRight 7 ^^^ y.rotateRight 18 ^^^ (y >>> 3)) + ws.getD 0 0#32

/-- The rounds for the given constants; `ws` is the message words from this round's on, sixteen of them. -/
def shaRounds : List Word → List Word → ShaState → ShaState
  | [], _, s => s
  | k :: ks, ws, s => shaRounds ks (ws.drop 1 ++ [shaNextWord ws]) (shaRound s k (ws.getD 0 0#32))

/-- The compression of one block of sixteen words. -/
def shaCompress (s : ShaState) (block : List Word) : ShaState :=
  let r := shaRounds shaK block s
  ⟨s.a + r.a, s.b + r.b, s.c + r.c, s.d + r.d, s.e + r.e, s.f + r.f, s.g + r.g, s.h + r.h⟩

/-- Big-endian 32-bit words of a byte string whose length is a multiple of 4. -/
def shaWords : List Byte → List Word
  | b0 :: b1 :: b2 :: b3 :: rest => (b0 ++ b1 ++ b2 ++ b3) :: shaWords rest
  | _ => []

/-- The padded message: 0x80, zeros, and the length in bits as 8 big-endian bytes. -/
def shaPad (msg : List Byte) : List Byte :=
  msg ++ 0x80#8 :: List.replicate ((119 - msg.length % 64) % 64) 0#8 ++
    (List.range 8).map fun i => BitVec.ofNat 8 ((8 * msg.length) >>> (8 * (7 - i)))

/-- Compresses the first `n` blocks of the words. -/
def shaBlocks : Nat → List Word → ShaState → ShaState
  | 0, _, s => s
  | n + 1, ws, s => shaBlocks n (ws.drop 16) (shaCompress s (ws.take 16))

/-- The four big-endian bytes of a word. -/
def shaBytes (x : Word) : List Byte :=
  [x.extractLsb' 24 8, x.extractLsb' 16 8, x.extractLsb' 8 8, x.extractLsb' 0 8]

/-- HASH256 (00_scope.md R14): a byte string to a digest of 32 bytes. -/
def hash256 (msg : List Byte) : List Byte :=
  let ws := shaWords (shaPad msg)
  let r := shaBlocks (ws.length / 16) ws shaInit
  shaBytes r.a ++ shaBytes r.b ++ shaBytes r.c ++ shaBytes r.d ++ shaBytes r.e ++ shaBytes r.f ++
    shaBytes r.g ++ shaBytes r.h

end Sys2Proof.Machine
end

