-- ==== Sys2Proof/Machine/Mnemonic.lean ====
section
/-! DEFINITION. The mnemonic codec commands (42_mnemonic.md): MENC, MDEC, DCHK, DFIND. -/

namespace Sys2Proof.Machine

/-- cs(E) = HASH256(be32(E))[0] (42_mnemonic.md R93). -/
def checksum (e : U256) : Byte := (hash256 (be32 e)).headD 0#8

/-- Word i of the mnemonic: bits [263 − 11i : 253 − 11i] of V = E · 2^8 + c (42_mnemonic.md R94). -/
def packIndex (e : U256) (c : Byte) (i : Nat) : BitVec 11 :=
  (e ++ c : BitVec 264).extractLsb' (253 - 11 * i) 11

/-- V = Σ I[i] · 2^(11·(23 − i)) (42_mnemonic.md R94), the first index the most significant. -/
def unpackValue (idx : Vector (BitVec 11) 24) : BitVec 264 :=
  BitVec.ofNat 264 (idx.toList.foldl (fun acc i => acc * 2 ^ 11 + i.toNat) 0)

/-- unpack_E(I) = V[263:8] (42_mnemonic.md R94). -/
def unpackE (idx : Vector (BitVec 11) 24) : U256 := (unpackValue idx).extractLsb' 8 256

/-- unpack_c(I) = V[7:0] (42_mnemonic.md R94). -/
def unpackC (idx : Vector (BitVec 11) 24) : Byte := (unpackValue idx).extractLsb' 0 8

/-- The pseudocode of MENC (42_mnemonic.md R92, R95). -/
def mencResult (ra : Reg) (s : State) : CmdResult :=
  if s.dictValid = false then .raise .formatDict
  else
    let e := readW s ra
    let c := checksum e
    .commit (writeRes0 { s with idx := Vector.ofFn fun i => packIndex e c i.val } c.toNat)

/-- MENC (42_mnemonic.md R95). -/
def execMenc (ra : Reg) (s : State) : Host.Outcome State Fault Refusal :=
  complete s (mencResult ra s)

/-- The pseudocode of MDEC (42_mnemonic.md R92, R96): dictionary, word count, checksum. -/
def mdecResult (rd : Reg) (s : State) : CmdResult :=
  if s.dictValid = false then .raise .formatDict
  else if argNat0 s ≠ 24 then .raise .formatWordCount
  else
    let e := unpackE s.idx
    let c := unpackC s.idx
    if checksum e ≠ c then .raise .checksumMismatch
    else .commit (writeRes0 (writeW s rd e) c.toNat)

/-- MDEC (42_mnemonic.md R96). -/
def execMdec (rd : Reg) (s : State) : Host.Outcome State Fault Refusal :=
  complete s (mdecResult rd s)

/-- The whitespace bytes of 42_mnemonic.md R97. -/
def isBlankByte (b : Byte) : Bool :=
  b = 0x09#8 || b = 0x0A#8 || b = 0x0B#8 || b = 0x0C#8 || b = 0x0D#8 || b = 0x20#8

/-- blank(w): empty, or only whitespace bytes (42_mnemonic.md R97). -/
def isBlank (w : List Byte) : Bool := w.all isBlankByte

/-- The words of the dictionary table, in order (10_state.md R34). -/
def dictWords (m : Memory) : List (List Byte) :=
  (List.range Config.dictEntries).map (dictWord m)

/-- The dictionary passes DCHK: no word is blank, and no two are equal (42_mnemonic.md R97). -/
def dictOk (m : Memory) : Bool :=
  (dictWords m).all (fun w => !isBlank w) && decide (dictWords m).Nodup

/-- DCHK (42_mnemonic.md R97). Its writes of DICT_VALID are not staged: a failing DCHK clears the flag and
then raises (60_exceptions.md R116, 90_conflicts.md C10). -/
def execDchk (s : State) : Host.Outcome State Fault Refusal :=
  if dictOk s.mem then complete s (.commit { s with dictValid := true })
  else complete { s with dictValid := false } (.raise .formatDict)

/-- The lowest i with word(i) = w, the only one when DCHK has passed (42_mnemonic.md R98). -/
def dictFind (m : Memory) (w : List Byte) : Option Nat :=
  (List.range Config.dictEntries).find? fun i => dictWord m i = w

/-- IDX[i] <- v, for i in 0..23 (00_scope.md R10). -/
def writeIdx (s : State) (i : Nat) (v : BitVec 11) : State :=
  { s with idx := s.idx.setIfInBounds i v }

/-- The pseudocode of DFIND (42_mnemonic.md R92, R98): dictionary, slot, lookup. -/
def dfindResult (s : State) : CmdResult :=
  if s.dictValid = false then .raise .formatDict
  else if 24 ≤ argNat0 s then .raise .valueParam
  else
    match dictFind s.mem (wordbufWord s.mem) with
    | none => .raise .formatUnknownWord
    | some i => .commit (writeRes0 (writeIdx s (argNat0 s) (BitVec.ofNat 11 i)) i)

/-- DFIND (42_mnemonic.md R98). -/
def execDfind (s : State) : Host.Outcome State Fault Refusal :=
  complete s (dfindResult s)

end Sys2Proof.Machine
end

