-- ==== Sys2Proof/Machine/Sharing.lean ====
section
/-! DEFINITION. The polynomial and threshold-sharing commands (43_sharing.md): PEVAL, SPLIT, RECON. -/

namespace Sys2Proof.Machine

/-- Horner evaluation (43_sharing.md R101): the coefficients lowest degree first, the highest taken first. -/
def horner : List Nat → Nat → Nat
  | [], _ => 0
  | c :: cs, x => (horner cs x * x + c) % Config.P

/-- The inner loop of lagrange0 (43_sharing.md R103): `term` multiplied by x[j] · inv(x[j] − x[i]) for every
j ≠ i, lowest j first; `j` counts the list's place. -/
def lagrangeTerm (i xi : Nat) : List Nat → Nat → Nat → Nat
  | [], _, term => term
  | xj :: xs, j, term =>
    lagrangeTerm i xi xs (j + 1)
      (if j = i then term
       else fieldMul (fieldMul term xj) (fieldInv (fieldSub xj xi)))

/-- The outer loop of lagrange0 (43_sharing.md R103) over the shares from place `i` on; `xs` is all the x values. -/
def lagrangeSum (xs : List Nat) : List (Nat × Nat) → Nat → Nat → Nat
  | [], _, acc => acc
  | (xi, yi) :: shares, i, acc =>
    lagrangeSum xs shares (i + 1) (fieldAdd acc (lagrangeTerm i xi xs 0 yi))

/-- Lagrange interpolation at 0 (43_sharing.md R103). -/
def lagrange0 (xs ys : List Nat) : Nat := lagrangeSum xs (xs.zip ys) 0 0

/-- The pseudocode of PEVAL (43_sharing.md R102): degree, point, coefficients. -/
def pevalResult (rd ra : Reg) (s : State) : CmdResult :=
  let d := argNat0 s
  if 16 ≤ d then .raise .valueParam
  else
    let x := (readW s ra).toNat
    if isField x = false then .raise .valueRange
    else if (slots s.coef (d + 1)).all isField = false then .raise .valueRange
    else .commit (writeW s rd (zext256 (horner (slots s.coef (d + 1)) x)))

/-- PEVAL (43_sharing.md R102). -/
def execPeval (rd ra : Reg) (s : State) : Host.Outcome State Fault Refusal :=
  complete s (pevalResult rd ra s)

/-- The writes of SPLIT with coefficients `c` (43_sharing.md R104): COEF[0..T−1], the shares of x = 1 to N, and
RES0 <- N. -/
def splitCommit (c : List Nat) (n : Nat) (s : State) : State :=
  let xs := (List.range n).map (· + 1)
  writeRes0
    { s with
      coef := writeSlots s.coef c
      shx := writeSlots s.shx xs
      shy := writeSlots s.shy (xs.map (horner c)) } n

/-- The pseudocode of SPLIT and SPLIT.K (43_sharing.md R104): parameters, secret, then the host's coefficients
(K = 1) or fresh draws (K = 0). -/
def splitResult (ra : Reg) (k : Bool) (s : State) : CmdResult :=
  let t := argNat0 s
  let n := argNat1 s
  if ¬(1 ≤ t ∧ t ≤ n ∧ n ≤ 16) then .raise .valueParam
  else
    let secret := (readW s ra).toNat
    if isField secret = false then .raise .valueRange
    else
      match k with
      | true =>
        let cs := (slots s.coef t).drop 1
        if cs.all isNonzeroField = false then .raise .valueRange
        else .commit (splitCommit (secret :: cs) n s)
      | false => withDraw (drawFields (t - 1) s.answers) fun cs => .commit (splitCommit (secret :: cs) n s)

/-- SPLIT, and with `k` SPLIT.K (43_sharing.md R104). -/
def execSplit (ra : Reg) (k : Bool) (s : State) : Host.Outcome State Fault Refusal :=
  complete s (splitResult ra k s)

/-- The pseudocode of RECON (43_sharing.md R105): count, ranges, duplicates. -/
def reconResult (rd : Reg) (s : State) : CmdResult :=
  let k := argNat0 s
  if k < 1 ∨ 16 < k then .raise .valueParam
  else
    let xs := slots s.shx k
    let ys := slots s.shy k
    if (xs.zip ys).all (fun p => isNonzeroField p.1 && isField p.2) = false then .raise .valueRange
    else if ¬xs.Nodup then .raise .valueDupShare
    else .commit (writeW s rd (zext256 (lagrange0 xs ys)))

/-- RECON (43_sharing.md R105). -/
def execRecon (rd : Reg) (s : State) : Host.Outcome State Fault Refusal :=
  complete s (reconResult rd s)

end Sys2Proof.Machine
end

