-- ==== Sys2Proof/Machine/Dispatch.lean ====
section
/-! DEFINITION. The completion step of each legal command (60_exceptions.md R115), one arm per constructor of Instr. -/

namespace Sys2Proof.Machine

/-- The engine's turn with the command `i` in flight in state `s`. -/
def exec (i : Instr) (s : State) : Host.Outcome State Fault Refusal :=
  match i with
  | .nop => Sys2Proof.Machine.execNop s
  | .mov rd ra => Sys2Proof.Machine.execMov rd ra s
  | .fadd rd ra rb => Sys2Proof.Machine.execFadd rd ra rb s
  | .fsub rd ra rb => Sys2Proof.Machine.execFsub rd ra rb s
  | .fmul rd ra rb => Sys2Proof.Machine.execFmul rd ra rb s
  | .finv rd ra => Sys2Proof.Machine.execFinv rd ra s
  | .rnd256 rd => Sys2Proof.Machine.execRnd256 rd s
  | .rndf rd => Sys2Proof.Machine.execRndf rd s
  | .menc ra => Sys2Proof.Machine.execMenc ra s
  | .mdec rd => Sys2Proof.Machine.execMdec rd s
  | .dchk => Sys2Proof.Machine.execDchk s
  | .dfind => Sys2Proof.Machine.execDfind s
  | .peval rd ra => Sys2Proof.Machine.execPeval rd ra s
  | .split ra k => Sys2Proof.Machine.execSplit ra k s
  | .recon rd => Sys2Proof.Machine.execRecon rd s
  | .aenc ra => Sys2Proof.Machine.execAenc ra s
  | .adec ra => Sys2Proof.Machine.execAdec ra s

end Sys2Proof.Machine
end

