-- ==== Sys2Proof/Machine/Engine.lean ====
section
/-! DEFINITION. The agents' steps (00_scope.md R5): the engine's, the entropy source's and the host's, the reset
pin, and which of them is next. -/

namespace Sys2Proof.Machine

/-- The engine's turn (60_exceptions.md R115): idle, it does nothing; busy, it completes the latched command, an
illegal word with ILLEGAL_CMD before any other check (30_encoding.md R79). -/
def engineStep (s : State) : Host.Outcome State Fault Refusal :=
  match s.eng with
  | .idle => .next s
  | .busy =>
    match decode s.cmdl with
    | .ok i => exec i s
    | .error _ => complete s (.raise .illegalCmd)

/-- The bits a result waits for, if it waits. -/
def CmdResult.request : CmdResult → Option Nat
  | .wait n => some n
  | .raise _ => none
  | .commit _ => none

/-- The width of the draw a command waits for, given the answers so far: only RND256, RNDF, SPLIT with K = 0 and
T ≥ 2, and AENC draw entropy (70_reset_and_hazards.md R144). -/
def commandRequest (i : Instr) (s : State) : Option Nat :=
  match i with
  | .nop => none
  | .mov _ _ => none
  | .fadd _ _ _ => none
  | .fsub _ _ _ => none
  | .fmul _ _ _ => none
  | .finv _ _ => none
  | .rnd256 rd => (rnd256Result rd s).request
  | .rndf rd => (rndfResult rd s).request
  | .menc _ => none
  | .mdec _ => none
  | .dchk => none
  | .dfind => none
  | .peval _ _ => none
  | .split ra k => (splitResult ra k s).request
  | .recon _ => none
  | .aenc ra => (aencResult ra s).request
  | .adec _ => none

/-- The outstanding entropy request (10_state.md R43): the port's `ent_req`, and `ent_nbits` when there is one
(60_exceptions.md R126). -/
def entropyRequest (s : State) : Option Nat :=
  match s.eng with
  | .idle => none
  | .busy =>
    match decode s.cmdl with
    | .ok i => commandRequest i s
    | .error _ => none

/-- The port signal `ent_req` (60_exceptions.md R126). -/
def entReq (s : State) : Bool := (entropyRequest s).isSome

/-- The port signal `ent_nbits[8:0]` (60_exceptions.md R126). With no request outstanding the spec gives these lines no
value; that the model gives them none either, and not some value of its own, is a DESIGN CHOICE (assumption log 15). -/
def entNbits (s : State) : Option (BitVec 9) := (entropyRequest s).map (BitVec.ofNat 9)

/-- The entropy source's step (41_entropy.md R88): it answers the outstanding request. With none outstanding there is
nothing to answer, and the step changes nothing (assumption log 6). -/
def entropyStep (a : Answer) (s : State) : State :=
  match entropyRequest s with
  | none => s
  | some _ => { s with answers := s.answers ++ [a] }

/-- The late answer to a request that a reset has withdrawn is ignored (70_reset_and_hazards.md R132, R133), whether or
not a later command has a request of its own outstanding. -/
def lateEntropyStep (_ : Answer) (s : State) : State := s

/-- The pin `rst_n` is driven to a level (70_reset_and_hazards.md R132): at a low level the command in flight is
abandoned, and when the pin rises every element holds its reset value. -/
def rstStep (level : Bool) (s : State) : State :=
  match level, s.rstN with
  | false, _ => resetUnit false s
  | true, false => resetUnit true s
  | true, true => s

/-- One input of the environment, taken. -/
def eventStep (e : Event) (s : State) : Host.Outcome State Fault Refusal :=
  match e with
  | .bus t => .next (busStep t s)
  | .engine => engineStep s
  | .entropy a => .next (entropyStep a s)
  | .lateEntropy a => .next (lateEntropyStep a s)
  | .rst level => .next (rstStep level s)

/-- The next step of the machine: the first pending input, or, when the environment is silent, the engine's turn
(70_reset_and_hazards.md R145: its completion step is not put off for ever). -/
def nextStep (s : State) : Host.Outcome State Fault Refusal :=
  match s.inputs with
  | [] => engineStep s
  | e :: es => eventStep e { s with inputs := es }

/-- The state in which the command word `c` has just been accepted by an idle unit and the engine's turn is next
(10_state.md R36, R42: a command is delivered by a CMD write, and there is no other fetch). -/
def placeCommand (c : Word) (s : State) : State :=
  { acceptCommand c s with inputs := .engine :: s.inputs }

end Sys2Proof.Machine
end

