-- ==== Sys2Proof/Safety.lean ====
section
/-! DEFINITION. The terms claims are stated in: the two ways a command ends, the invariant of the machine, the codes a
command may raise, accepted entropy draws, and the end state of a run. -/

namespace Sys2Proof.Safety

open Sys2Proof.Machine

/-- The command word with these fields, as 30_encoding.md R67 lays them out: OPC in bits 7:0, RD in 11:8, RA in
15:12, RB in 19:16, K in 24, and 0 elsewhere. -/
def commandWord (opc rd ra rb k : Nat) : Word :=
  BitVec.ofNat 32 (opc + 2 ^ 8 * rd + 2 ^ 12 * ra + 2 ^ 16 * rb + 2 ^ 24 * k)

/-- `s` after a completion with error code `c` (60_exceptions.md R115, R116): ERRCODE, ERRCMD, DONE and BUSY are
written, and the answers drawn are gone (10_state.md R44: no entropy pool). -/
def failedWith (c : ErrCode) (s : State) : State :=
  { s with errcode := c, errcmd := s.cmdl, done := true, eng := .idle, answers := [] }

/-- `s`, which holds a command's staged writes, after its successful completion (60_exceptions.md R115). -/
def succeeded (s : State) : State :=
  { s with errcode := .ok, done := true, eng := .idle, answers := [] }

/-- Every listed cell of the byte storage lies in WORDBUF, BUF or DICT (20_memory.md R50). -/
def inWindows (m : Memory) : Bool :=
  m.all fun c => decide (0x0780 ≤ c.1 ∧ c.1 < 0x0790) || decide (0x1000 ≤ c.1 ∧ c.1 < 0x2000) ||
    decide (0x8000 ≤ c.1 ∧ c.1 < 0x10000)

/-- The invariant of the machine. -/
structure Inv (s : State) : Prop where
  /-- The byte storage is in its canonical form. -/
  memWf : s.mem.wf = true
  /-- and holds only bytes of the three windows. -/
  memIn : inWindows s.mem = true
  /-- DICT_VALID = 1 implies that the DICT content passed DCHK (10_state.md R41). -/
  dictSound : s.dictValid = true → dictOk s.mem = true
  /-- Acceptance clears DONE, and only a completion sets it (10_state.md R36, R37). -/
  busyNotDone : s.eng = .busy → s.done = false
  /-- An idle engine holds no entropy answer (10_state.md R44). -/
  idleNoAnswers : s.eng = .idle → s.answers = []
  /-- While `rst_n` = 0 no command is in flight (70_reset_and_hazards.md R132). -/
  resetIdle : s.rstN = false → s.eng = .idle

/-- The codes the "raised by" column of 60_exceptions.md R114 lets a legal command raise. -/
def raisedBy : Instr → List ErrCode
  | .nop => []
  | .mov _ _ => []
  | .fadd _ _ _ => [.valueRange]
  | .fsub _ _ _ => [.valueRange]
  | .fmul _ _ _ => [.valueRange]
  | .finv _ _ => [.valueRange, .valueZeroInv]
  | .rnd256 _ => [.entropyFail]
  | .rndf _ => [.entropyFail]
  | .menc _ => [.formatDict]
  | .mdec _ => [.formatDict, .formatWordCount, .checksumMismatch]
  | .dchk => [.formatDict]
  | .dfind => [.formatDict, .valueParam, .formatUnknownWord]
  | .peval _ _ => [.valueParam, .valueRange]
  | .split _ true => [.valueParam, .valueRange]
  | .split _ false => [.valueParam, .valueRange, .entropyFail]
  | .recon _ => [.valueParam, .valueRange, .valueDupShare]
  | .aenc _ => [.valueLength, .entropyFail]
  | .adec _ => [.valueLength, .formatDataShort, .cryptoAuth]

/-- The outcomes of Draw.Field() on a run of answers (41_entropy.md R89): `some v` for an accepted value, `none` for
FAIL, and nothing for the draws of 0 and of P, which are made again. -/
def fieldDraws : List Answer → List (Option Nat)
  | [] => []
  | .fail :: as => none :: fieldDraws as
  | .bits d :: as =>
    if d.toNat % 2 ^ 127 = 0 ∨ d.toNat % 2 ^ 127 = Config.P then fieldDraws as
    else some (d.toNat % 2 ^ 127) :: fieldDraws as

/-- The value at x of the polynomial with these coefficients, lowest degree first, modulo P (43_sharing.md R101). -/
def polyAt (c : List Nat) (x : Nat) : Nat :=
  (∑ i ∈ Finset.range c.length, c.getD i 0 * x ^ i) % Config.P

/-- What SPLIT leaves when it succeeds with coefficients `c` and `n` shares (43_sharing.md R104). -/
def SplitDone (s t : State) (c : List Nat) (n : Nat) : Prop :=
  t = succeeded { s with coef := t.coef, shx := t.shx, shy := t.shy, res0 := BitVec.ofNat 32 n } ∧
  ∀ i : Fin 16,
    t.coef[i] = (if i.val < c.length then BitVec.ofNat 128 (c.getD i.val 0) else s.coef[i]) ∧
    t.shx[i] = (if i.val < n then BitVec.ofNat 128 (i.val + 1) else s.shx[i]) ∧
    t.shy[i] = (if i.val < n then BitVec.ofNat 128 (polyAt c (i.val + 1)) else s.shy[i])

/-- The storage a command works on and the latch of the command in flight are the same in both states. -/
def SameCommandView (s t : State) : Prop :=
  t.eng = s.eng ∧ t.cmdl = s.cmdl ∧ t.argl0 = s.argl0 ∧ t.argl1 = s.argl1 ∧ t.argl2 = s.argl2 ∧
  t.answers = s.answers ∧ t.dictValid = s.dictValid ∧ t.w = s.w ∧ t.coef = s.coef ∧ t.shx = s.shx ∧
  t.shy = s.shy ∧ t.idx = s.idx ∧ t.mem = s.mem

/-- The registers and inputs that belong to the host's side are the same in both states. -/
def SameHostView (s t : State) : Prop :=
  t.ie = s.ie ∧ t.ovr = s.ovr ∧ t.accerr = s.accerr ∧ t.arg0 = s.arg0 ∧ t.arg1 = s.arg1 ∧ t.arg2 = s.arg2 ∧
  t.cmdl = s.cmdl ∧ t.argl0 = s.argl0 ∧ t.argl1 = s.argl1 ∧ t.argl2 = s.argl2 ∧ t.rstN = s.rstN ∧
  t.busOut = s.busOut ∧ t.inputs = s.inputs

/-- An input is a host transaction. -/
def isHostTransaction : Event → Bool
  | .bus _ => true
  | .engine | .entropy _ | .lateEntropy _ | .rst _ => false

/-- A host run has ended: the host's last transaction has completed, so none is left, and BUSY = 0
(70_reset_and_hazards.md R146). What the other agents may yet do does not matter. A transaction offered while `rst_n` = 0
is not taken and gets no response; that it counts as completed here, once it has left the inputs, is a DESIGN CHOICE, on
which the spec is silent (assumption log 16). -/
def runEnded (s : State) : Prop := (∀ e ∈ s.inputs, isHostTransaction e = false) ∧ busyFlag s = false

/-- The run from `s` ends after `k` steps with end state `t`: the state at the first point at which it has ended
(70_reset_and_hazards.md R146). -/
def RunEndsIn (k : Nat) (s t : State) : Prop :=
  Sys2Proof.core.run k s = .next t ∧ runEnded t ∧ ∀ j < k, ∀ u : State, Sys2Proof.core.run j s = .next u → ¬runEnded u

end Sys2Proof.Safety
end

