-- ==== Sys2Proof/Certificates/Slice0/Obligations.lean ====
section
/-! DEFINITION. The statements for the provers, from the numbered rules of spec/. `exec i s` is the engine's turn with
command `i` in flight; `succeeded` and `failedWith` are the two completions written out (Safety.lean); a record update
that names its fields says that every other field of the state is unchanged. -/

open Sys2Proof
open Sys2Proof.Machine
open Sys2Proof.Safety

/-! ### Encoding -/

/-- 30_encoding.md R67, R69, R77: decoding the word of any command, with every operand, gives the command back. -/
def Obligations.DecodeOfEncodeIsTheCommand : Prop :=
  ∀ i : Instr, decode (encode i) = .ok i

/-- 30_encoding.md R67, R68: a word that decodes is the word of its command, so no two words are one command and no
bit of a legal word is ignored. -/
def Obligations.EncodeOfDecodeIsTheWord : Prop :=
  ∀ (w : Word) (i : Instr), decode w = .ok i → encode i = w

/-- 30_encoding.md R68: a word decodes exactly when its OPC is assigned, bits [23:20] and [31:25] are 0 and every field
its opcode does not use is 0; a word that does not completes with ILLEGAL_CMD and no other effect. -/
def Obligations.LegalWordsDecodeAndOthersRaise : Prop :=
  (∀ w : Word, (∃ i, decode w = .ok i) ↔
    ∃ op : Op, w.extractLsb' 0 8 = opcode op ∧ w.extractLsb' 20 4 = 0#4 ∧ w.extractLsb' 25 7 = 0#7 ∧
      ((usesOf op).rd = false → w.extractLsb' 8 4 = 0#4) ∧ ((usesOf op).ra = false → w.extractLsb' 12 4 = 0#4) ∧
      ((usesOf op).rb = false → w.extractLsb' 16 4 = 0#4) ∧ ((usesOf op).k = false → w.extractLsb' 24 1 = 0#1)) ∧
  (∀ s : State, s.eng = .busy → (∀ i, decode s.cmdl ≠ .ok i) → engineStep s = .next (failedWith .illegalCmd s))

/-- 30_encoding.md R78: the worked decodings. -/
def Obligations.WorkedDecodings : Prop :=
  decode 0x00021308#32 = .ok (.fadd 3 1 2) ∧ decode 0x01000031#32 = .ok (.split 0 true) ∧
  decode 0x00000131#32 = .error .unusedRd ∧ decode 0x01000008#32 = .error .unusedK ∧
  decode 0x00100000#32 = .error .reservedBits ∧ decode 0x000000FF#32 = .error .unassignedOpcode ∧
  decode 0x00000000#32 = .ok .nop

/-! ### Steps -/

/-- 60_exceptions.md R115, 10_state.md R42: when the engine's turn comes with a legal command latched, the step is that
command's completion step. That the turn comes from the pending inputs, or when there is none, is the model's choice
(assumption logs 1 and 9). -/
def Obligations.StepRunsTheLatchedCommand : Prop :=
  ∀ (s : State) (i : Instr), s.eng = .busy → decode s.cmdl = .ok i →
    (s.inputs = [] → step s = exec i s) ∧
    (∀ es, s.inputs = .engine :: es → step s = exec i { s with inputs := es })

/-- The model's reading of a fetch (assumption log 2), from 10_state.md R36: after `withFetchWord` the very next step
is the completion step of the command the word decodes to, on the state its acceptance leaves. -/
def Obligations.StepRunsThePlacedWord : Prop :=
  ∀ (s : State) (w : Word) (i : Instr), decode w = .ok i →
    step (s.withFetchWord 32 w.toNat) =
      exec i { s with eng := .busy, done := false, cmdl := w, argl0 := s.arg0, argl1 := s.arg1, argl2 := s.arg2,
                      answers := [] }

/-- 00_scope.md R5: a pending input is taken by the agent it belongs to, the late answer to a withdrawn request is ignored
(70_reset_and_hazards.md R132), and an idle engine's turn changes nothing (R134). The list of pending inputs is the model's choice (assumption logs 1 and 9). -/
def Obligations.StepTakesThePendingInput : Prop :=
  ∀ (s : State) (es : List Event),
    (∀ t, s.inputs = .bus t :: es → step s = .next (busStep t { s with inputs := es })) ∧
    (∀ a, s.inputs = .entropy a :: es → step s = .next (entropyStep a { s with inputs := es })) ∧
    (∀ a, s.inputs = .lateEntropy a :: es → step s = .next { s with inputs := es }) ∧
    (∀ l, s.inputs = .rst l :: es → step s = .next (rstStep l { s with inputs := es })) ∧
    (s.inputs = .engine :: es → s.eng = .idle → step s = .next { s with inputs := es }) ∧
    (s.inputs = [] → s.eng = .idle → step s = .next s)

/-- 30_encoding.md R79: a word the decoder refuses is accepted like any other (BUSY ← 1, the latch is loaded), and its
completion writes STATUS and ERRCMD and nothing else, whatever the rest of the state holds. -/
def Obligations.IllegalWordIsAcceptedAndCompletes : Prop :=
  ∀ (s : State) (v : Word) (e : Illegal), decode v = .error e → s.eng = .idle → s.rstN = true →
    ∃ t, busStep (.write 0x000C#16 v) s = t ∧
      t = { s with eng := .busy, done := false, cmdl := v, argl0 := s.arg0, argl1 := s.arg1, argl2 := s.arg2,
                   answers := [], busOut := some ⟨.okay, none⟩ } ∧
      engineStep t = .next (failedWith .illegalCmd t)

/-- The model's reading (assumption log 13, DEDUCED): what 93_implementation_defined.md treats as `fault`, `refuse` or
`stuck` is a next state here, so no step of the machine stops with a fault or a refusal. That file says of `stuck` "no
further step"; in the model the turn of a command without its answer leaves the state as it is. -/
def Obligations.NoStepStops : Prop :=
  ∀ s : State, ∃ t, step s = .next t

/-! ### General and field commands -/

/-- 40_field.md R82. -/
def Obligations.NopOnlyCompletes : Prop :=
  decode (commandWord 0x00 0 0 0 0) = .ok .nop ∧
  ∀ s : State, exec .nop s = .next (succeeded s)

/-- 40_field.md R83: all 256 bits, no range check. -/
def Obligations.MovCopiesARegister : Prop :=
  ∀ rd ra : Reg, decode (commandWord 0x01 rd ra 0 0) = .ok (.mov rd ra) ∧
    ∀ s : State, exec (.mov rd ra) s = .next (succeeded (writeW s rd (readW s ra)))

/-- 40_field.md R84. -/
def Obligations.FaddAddsModuloP : Prop :=
  ∀ rd ra rb : Reg, decode (commandWord 0x08 rd ra rb 0) = .ok (.fadd rd ra rb) ∧
    ∀ (s : State) (x y : Nat), (readW s ra).toNat = x → (readW s rb).toNat = y →
      (x < Config.P → y < Config.P →
        exec (.fadd rd ra rb) s = .next (succeeded (writeW s rd (BitVec.ofNat 256 ((x + y) % Config.P))))) ∧
      (Config.P ≤ x → exec (.fadd rd ra rb) s = .next (failedWith .valueRange s)) ∧
      (Config.P ≤ y → exec (.fadd rd ra rb) s = .next (failedWith .valueRange s))

/-- 40_field.md R85: the result is (x − y + P) mod P over the integers. -/
def Obligations.FsubSubtractsModuloP : Prop :=
  ∀ rd ra rb : Reg, decode (commandWord 0x09 rd ra rb 0) = .ok (.fsub rd ra rb) ∧
    ∀ (s : State) (x y : Nat), (readW s ra).toNat = x → (readW s rb).toNat = y →
      (x < Config.P → y < Config.P →
        exec (.fsub rd ra rb) s =
          .next (succeeded (writeW s rd
            (BitVec.ofNat 256 (((x : Int) - (y : Int) + (Config.P : Int)) % (Config.P : Int)).toNat)))) ∧
      (Config.P ≤ x → exec (.fsub rd ra rb) s = .next (failedWith .valueRange s)) ∧
      (Config.P ≤ y → exec (.fsub rd ra rb) s = .next (failedWith .valueRange s))

/-- 40_field.md R86. -/
def Obligations.FmulMultipliesModuloP : Prop :=
  ∀ rd ra rb : Reg, decode (commandWord 0x0A rd ra rb 0) = .ok (.fmul rd ra rb) ∧
    ∀ (s : State) (x y : Nat), (readW s ra).toNat = x → (readW s rb).toNat = y →
      (x < Config.P → y < Config.P →
        exec (.fmul rd ra rb) s = .next (succeeded (writeW s rd (BitVec.ofNat 256 (x * y % Config.P))))) ∧
      (Config.P ≤ x → exec (.fmul rd ra rb) s = .next (failedWith .valueRange s)) ∧
      (Config.P ≤ y → exec (.fmul rd ra rb) s = .next (failedWith .valueRange s))

/-- 40_field.md R87: FINV writes the unique y in [1, P) with x · y mod P = 1; the range check comes before the zero
check. -/
def Obligations.FinvWritesTheInverse : Prop :=
  ∀ rd ra : Reg, decode (commandWord 0x0B rd ra 0 0) = .ok (.finv rd ra) ∧
    ∀ (s : State) (x : Nat), (readW s ra).toNat = x →
      (0 < x → x < Config.P →
        ∃ y, 1 ≤ y ∧ y < Config.P ∧ x * y % Config.P = 1 ∧
          (∀ z, 1 ≤ z → z < Config.P → x * z % Config.P = 1 → z = y) ∧
          exec (.finv rd ra) s = .next (succeeded (writeW s rd (BitVec.ofNat 256 y)))) ∧
      (Config.P ≤ x → exec (.finv rd ra) s = .next (failedWith .valueRange s)) ∧
      (x = 0 → exec (.finv rd ra) s = .next (failedWith .valueZeroInv s))

/-- 10_state.md R28: no alias, no bank, no hardwired register, whatever the register number; and a write of one W
register changes no other field. -/
def Obligations.WRegistersAreIndependent : Prop :=
  ∀ (s : State) (r r' : Reg) (v : U256),
    readW (writeW s r v) r = v ∧ (r' ≠ r → readW (writeW s r v) r' = readW s r') ∧
    writeW s r v = { s with w := (writeW s r v).w } ∧ readW State.reset r = 0#256

/-! ### Entropy commands -/

/-- 41_entropy.md R90: the answer's 256 bits, whatever they are; FAIL raises; no answer, no completion. -/
def Obligations.Rnd256WritesTheAnswer : Prop :=
  ∀ rd : Reg, decode (commandWord 0x10 rd 0 0 0) = .ok (.rnd256 rd) ∧
    ∀ (s : State) (as : List Answer),
      (∀ d, s.answers = .bits d :: as → exec (.rnd256 rd) s = .next (succeeded (writeW s rd d))) ∧
      (s.answers = .fail :: as → exec (.rnd256 rd) s = .next (failedWith .entropyFail s)) ∧
      (s.answers = [] → exec (.rnd256 rd) s = .next s ∧ commandRequest (.rnd256 rd) s = some 256)

/-- 41_entropy.md R89, R91: the first answer whose 127 bits are neither 0 nor P, any number of others discarded
before it; FAIL before one raises; neither, and the command waits for 127 bits. Which lines of an answer carry the
127 bits is the model's reading (assumption log 5). -/
def Obligations.RndfWritesTheFirstAcceptedDraw : Prop :=
  ∀ rd : Reg, decode (commandWord 0x11 rd 0 0 0) = .ok (.rndf rd) ∧
    ∀ s : State,
      (∀ v as, fieldDraws s.answers = some v :: as →
        1 ≤ v ∧ v < Config.P ∧ exec (.rndf rd) s = .next (succeeded (writeW s rd (BitVec.ofNat 256 v)))) ∧
      (∀ as, fieldDraws s.answers = none :: as → exec (.rndf rd) s = .next (failedWith .entropyFail s)) ∧
      (fieldDraws s.answers = [] → exec (.rndf rd) s = .next s ∧ commandRequest (.rndf rd) s = some 127)

/-! ### Mnemonic codec -/

/-- 42_mnemonic.md R92, R93, R94, R95: cs(E) is byte 0 of the 32-byte digest of be32(E), IDX[i] is
V[263 − 11i : 253 − 11i] of V = E · 2^8 + cs(E), RES0 the checksum; without DICT_VALID, FORMAT_DICT. Which function the
digest is (SHA-256) is assumption log 4's. -/
def Obligations.MencWritesTheIndices : Prop :=
  ∀ ra : Reg, decode (commandWord 0x20 0 ra 0 0) = .ok (.menc ra) ∧
    ∀ s : State,
      ((hash256 (be32 (readW s ra))).length = 32 ∧
        (hash256 (be32 (readW s ra)))[0]? = some (checksum (readW s ra))) ∧
      (s.dictValid = true →
        ∃ t, exec (.menc ra) s = .next t ∧ t = succeeded { s with idx := t.idx, res0 := t.res0 } ∧
          t.res0.toNat = (checksum (readW s ra)).toNat ∧
          ∀ i : Fin 24, (t.idx[i]).toNat =
            ((readW s ra).toNat * 2 ^ 8 + (checksum (readW s ra)).toNat) / 2 ^ (253 - 11 * i.val) % 2 ^ 11) ∧
      (s.dictValid = false → exec (.menc ra) s = .next (failedWith .formatDict s))

/-- 42_mnemonic.md R92, R93, R94, R96: cs(E) is byte 0 of the 32-byte digest of be32(E) (which function the digest is,
SHA-256, is assumption log 4's); with V = Σ IDX[i] · 2^(11(23 − i)), E = V[263:8] and c = V[7:0]; the dictionary is
checked before the word count and the count before the checksum. -/
def Obligations.MdecVerifiesAndWritesTheSecret : Prop :=
  ∀ rd : Reg, decode (commandWord 0x21 rd 0 0 0) = .ok (.mdec rd) ∧
    ∀ (s : State) (v : Nat) (e : U256),
      v = ∑ i : Fin 24, (s.idx[i]).toNat * 2 ^ (11 * (23 - i.val)) → e = BitVec.ofNat 256 (v / 2 ^ 8) →
      ((hash256 (be32 e)).length = 32 ∧ (hash256 (be32 e))[0]? = some (checksum e)) ∧
      (s.dictValid = true → s.argl0.toNat = 24 → (checksum e).toNat = v % 2 ^ 8 →
        exec (.mdec rd) s = .next (succeeded { writeW s rd e with res0 := BitVec.ofNat 32 (v % 2 ^ 8) })) ∧
      (s.dictValid = false → exec (.mdec rd) s = .next (failedWith .formatDict s)) ∧
      (s.dictValid = true → s.argl0.toNat ≠ 24 → exec (.mdec rd) s = .next (failedWith .formatWordCount s)) ∧
      (s.dictValid = true → s.argl0.toNat = 24 → (checksum e).toNat ≠ v % 2 ^ 8 →
        exec (.mdec rd) s = .next (failedWith .checksumMismatch s))

/-- 42_mnemonic.md R100: MENC on E, then MDEC with ARG0 = 24 and IDX as MENC left it, writes E and raises nothing. -/
def Obligations.MnemonicRoundTrip : Prop :=
  ∀ (ra rd : Reg) (s : State), s.dictValid = true →
    ∃ t, exec (.menc ra) s = .next t ∧
      ∀ u : State, u.dictValid = true → u.argl0.toNat = 24 → u.idx = t.idx →
        ∃ u', exec (.mdec rd) u = .next u' ∧ readW u' rd = readW s ra ∧ u'.errcode = .ok ∧ u'.done = true

/-- 10_state.md R32, R34: the word of an entry, or of WORDBUF, is its bytes up to the first 0x00, or all 16. -/
def Obligations.WordsEndAtTheFirstZeroByte : Prop :=
  ∀ (m : Memory) (base : Nat) (w : List Byte),
    (base = 0x0780 ∧ w = wordbufWord m) ∨ (∃ i < 2048, base = 0x8000 + 16 * i ∧ w = dictWord m i) →
      w.length ≤ 16 ∧ (∀ (k : Nat) (h : k < w.length), w[k] = memRead m (base + k) ∧ w[k] ≠ 0#8) ∧
      (w.length = 16 ∨ memRead m (base + w.length) = 0#8)

/-- 42_mnemonic.md R97: DCHK sets DICT_VALID exactly when no word is blank and no two are equal; otherwise it clears
the flag and raises FORMAT_DICT. -/
def Obligations.DchkValidatesTheDictionary : Prop :=
  decode (commandWord 0x22 0 0 0 0) = .ok .dchk ∧
  ∀ (s : State) (good : Prop),
    (good ↔ (∀ i < 2048, ∃ b ∈ dictWord s.mem i, b ∉ [0x09#8, 0x0A#8, 0x0B#8, 0x0C#8, 0x0D#8, 0x20#8]) ∧
      ∀ i < 2048, ∀ j < 2048, i < j → dictWord s.mem i ≠ dictWord s.mem j) →
    (good → exec .dchk s = .next (succeeded { s with dictValid := true })) ∧
    (¬good → exec .dchk s = .next (failedWith .formatDict { s with dictValid := false }))

/-- 42_mnemonic.md R92, R98, in states whose DICT_VALID is sound (an invariant, `StepKeepsTheInvariant`): the slot is
checked after the dictionary and before the lookup, and the index found is the one whose word is WORDBUF's. -/
def Obligations.DfindFindsTheWord : Prop :=
  decode (commandWord 0x23 0 0 0 0) = .ok .dfind ∧
  ∀ s : State, (s.dictValid = true → dictOk s.mem = true) →
    (∀ (i : Nat) (h : s.argl0.toNat < 24), s.dictValid = true → i < 2048 → dictWord s.mem i = wordbufWord s.mem →
      exec .dfind s =
        .next (succeeded { s with idx := s.idx.set s.argl0.toNat (BitVec.ofNat 11 i) h, res0 := BitVec.ofNat 32 i })) ∧
    (s.dictValid = false → exec .dfind s = .next (failedWith .formatDict s)) ∧
    (s.dictValid = true → 24 ≤ s.argl0.toNat → exec .dfind s = .next (failedWith .valueParam s)) ∧
    (s.dictValid = true → s.argl0.toNat < 24 → (∀ i < 2048, dictWord s.mem i ≠ wordbufWord s.mem) →
      exec .dfind s = .next (failedWith .formatUnknownWord s))

/-! ### Polynomials and sharing -/

/-- 43_sharing.md R101: Horner's accumulation is the sum of c[i] · x^i modulo P, with x^0 = 1, for every list of
coefficients. -/
def Obligations.HornerIsThePolynomialValue : Prop :=
  ∀ (c : List Nat) (x : Nat), horner c x = polyAt c x

/-- 43_sharing.md R102: PEVAL with degree D, point x and COEF[0..D]; the degree is checked first, then the point, then
the coefficients, and slots above D are neither read nor checked. -/
def Obligations.PevalEvaluatesThePolynomial : Prop :=
  ∀ rd ra : Reg, decode (commandWord 0x30 rd ra 0 0) = .ok (.peval rd ra) ∧
    ∀ (s : State) (d x : Nat) (c : List Nat), s.argl0.toNat = d → (readW s ra).toNat = x →
      c = (s.coef.toList.take (d + 1)).map BitVec.toNat →
      (d < 16 → x < Config.P → (∀ v ∈ c, v < Config.P) →
        exec (.peval rd ra) s = .next (succeeded (writeW s rd (BitVec.ofNat 256 (polyAt c x))))) ∧
      (16 ≤ d → exec (.peval rd ra) s = .next (failedWith .valueParam s)) ∧
      (d < 16 → Config.P ≤ x → exec (.peval rd ra) s = .next (failedWith .valueRange s)) ∧
      (d < 16 → (∃ v ∈ c, Config.P ≤ v) → exec (.peval rd ra) s = .next (failedWith .valueRange s))

/-- 43_sharing.md R104, K = 1: the host's coefficients COEF[1..T−1], each in [1, P); parameters are checked first, then
the secret, then the coefficients; slots from T and from N on are unchanged. -/
def Obligations.SplitKMakesSharesFromTheHostsCoefficients : Prop :=
  ∀ ra : Reg, decode (commandWord 0x31 0 ra 0 1) = .ok (.split ra true) ∧
    ∀ (s : State) (th n x : Nat) (cs : List Nat), s.argl0.toNat = th → s.argl1.toNat = n → (readW s ra).toNat = x →
      cs = ((s.coef.toList.take th).drop 1).map BitVec.toNat →
      (1 ≤ th → th ≤ n → n ≤ 16 → x < Config.P → (∀ v ∈ cs, 1 ≤ v ∧ v < Config.P) →
        ∃ t, exec (.split ra true) s = .next t ∧ SplitDone s t (x :: cs) n) ∧
      ((th < 1 ∨ n < th ∨ 16 < n) → exec (.split ra true) s = .next (failedWith .valueParam s)) ∧
      (1 ≤ th → th ≤ n → n ≤ 16 → Config.P ≤ x → exec (.split ra true) s = .next (failedWith .valueRange s)) ∧
      (1 ≤ th → th ≤ n → n ≤ 16 → (∃ v ∈ cs, v = 0 ∨ Config.P ≤ v) →
        exec (.split ra true) s = .next (failedWith .valueRange s))

/-- 43_sharing.md R104, K = 0: T − 1 coefficients drawn by Draw.Field (41_entropy.md R89); the first FAIL raises, and too
few answers leave the command waiting for 127 bits. Which lines of an answer carry the 127 bits is the model's reading
(assumption log 5). -/
def Obligations.SplitMakesSharesFromDrawnCoefficients : Prop :=
  ∀ ra : Reg, decode (commandWord 0x31 0 ra 0 0) = .ok (.split ra false) ∧
    ∀ (s : State) (th n x : Nat), s.argl0.toNat = th → s.argl1.toNat = n → (readW s ra).toNat = x →
      (∀ cs : List Nat, 1 ≤ th → th ≤ n → n ≤ 16 → x < Config.P → cs.length + 1 = th →
        (fieldDraws s.answers).take cs.length = cs.map some →
        ∃ t, exec (.split ra false) s = .next t ∧ SplitDone s t (x :: cs) n) ∧
      ((th < 1 ∨ n < th ∨ 16 < n) → exec (.split ra false) s = .next (failedWith .valueParam s)) ∧
      (1 ≤ th → th ≤ n → n ≤ 16 → Config.P ≤ x → exec (.split ra false) s = .next (failedWith .valueRange s)) ∧
      (∀ cs : List Nat, 1 ≤ th → th ≤ n → n ≤ 16 → x < Config.P → cs.length + 1 < th →
        (fieldDraws s.answers).take (cs.length + 1) = cs.map some ++ [none] →
        exec (.split ra false) s = .next (failedWith .entropyFail s)) ∧
      (∀ cs : List Nat, 1 ≤ th → th ≤ n → n ≤ 16 → x < Config.P → cs.length + 1 < th →
        fieldDraws s.answers = cs.map some →
        exec (.split ra false) s = .next s ∧ commandRequest (.split ra false) s = some 127)

/-- 43_sharing.md R103, R105: RECON writes Σ_i y_i · Π_{j≠i} x_j / (x_j − x_i) in GF(P), as a field element; the count is
checked first, then every slot's range, then duplicates, and slots from k on are not read. -/
def Obligations.ReconInterpolatesAtZero : Prop :=
  ∀ rd : Reg, decode (commandWord 0x32 rd 0 0 0) = .ok (.recon rd) ∧
    ∀ (s : State) (k : Nat) (x y : Nat → Nat), s.argl0.toNat = k →
      (∀ i : Fin 16, x i.val = (s.shx[i]).toNat ∧ y i.val = (s.shy[i]).toNat) →
      (1 ≤ k → k ≤ 16 → (∀ i < k, 1 ≤ x i ∧ x i < Config.P ∧ y i < Config.P) →
        (∀ i < k, ∀ j < k, x i = x j → i = j) →
        ∃ r, r < Config.P ∧ exec (.recon rd) s = .next (succeeded (writeW s rd (BitVec.ofNat 256 r))) ∧
          (r : ZMod Config.P) = ∑ i ∈ Finset.range k, (y i : ZMod Config.P) *
            ∏ j ∈ (Finset.range k).erase i, (x j : ZMod Config.P) * ((x j : ZMod Config.P) - x i)⁻¹) ∧
      ((k < 1 ∨ 16 < k) → exec (.recon rd) s = .next (failedWith .valueParam s)) ∧
      (1 ≤ k → k ≤ 16 → (∃ i < k, x i = 0 ∨ Config.P ≤ x i ∨ Config.P ≤ y i) →
        exec (.recon rd) s = .next (failedWith .valueRange s)) ∧
      (1 ≤ k → k ≤ 16 → (∀ i < k, 1 ≤ x i ∧ x i < Config.P ∧ y i < Config.P) →
        (∃ i < k, ∃ j < k, i < j ∧ x i = x j) → exec (.recon rd) s = .next (failedWith .valueDupShare s))

/-- 43_sharing.md R106: from any k ≥ T distinct shares a SPLIT made, in any order, RECON writes the secret. -/
def Obligations.AnyThresholdOfSharesReconstructs : Prop :=
  ∀ (ra rd : Reg) (k : Bool) (s t : State), exec (.split ra k) s = .next t → t.eng = .idle → t.errcode = .ok →
    s.eng = .busy →
    ∀ (u : State) (pick : Nat → Nat), s.argl0.toNat ≤ u.argl0.toNat → u.argl0.toNat ≤ 16 →
      (∀ i < u.argl0.toNat, pick i < s.argl1.toNat) →
      (∀ i < u.argl0.toNat, ∀ j < u.argl0.toNat, pick i = pick j → i = j) →
      (∀ i < u.argl0.toNat, u.shx[i]? = t.shx[pick i]? ∧ u.shy[i]? = t.shy[pick i]?) →
      exec (.recon rd) u = .next (succeeded (writeW u rd (readW s ra)))

/-! ### AEAD framing -/

/-- 00_scope.md R11: the big-endian byte strings, and int_be as their inverse. -/
def Obligations.BigEndianByteStrings : Prop :=
  (∀ v : U256, (be32 v).length = 32 ∧ intBE (be32 v) = v.toNat ∧
    ∀ (i : Nat) (h : i < (be32 v).length), (be32 v)[i] = v.extractLsb' (248 - 8 * i) 8) ∧
  (∀ v : BitVec 96, (be12 v.toNat).length = 12 ∧ intBE (be12 v.toNat) = v.toNat ∧
    ∀ (i : Nat) (h : i < (be12 v.toNat).length), (be12 v.toNat)[i] = v.extractLsb' (88 - 8 * i) 8) ∧
  (∀ v : U128, (be16 v).length = 16 ∧ intBE (be16 v) = v.toNat ∧
    ∀ (i : Nat) (h : i < (be16 v).length), (be16 v)[i] = v.extractLsb' (120 - 8 * i) 8)

/-- 44_aead.md R108, R109, 20_memory.md R59: the blob is nonce ‖ AEAD_SEAL(be32(W[ra]), nonce, "", BUF[src..src+n)), the
nonce the 96 bits of a fresh answer; no byte outside BUF[dst..dst+n+28) changes; the source range is checked before the
destination range and both before the draw. The byte storage is canonical (an invariant). Which lines of an answer
carry the 96 bits is the model's reading (assumption log 5). -/
def Obligations.AencSealsThePayload : Prop :=
  ∀ ra : Reg, decode (commandWord 0x40 0 ra 0 0) = .ok (.aenc ra) ∧
    ∀ (s : State) (src n dst : Nat), s.argl0.toNat = src → s.argl1.toNat = n → s.argl2.toNat = dst →
      s.mem.wf = true →
      (∀ d as, src + n ≤ 4096 → dst + n + 28 ≤ 4096 → s.answers = .bits d :: as →
        ∃ t, exec (.aenc ra) s = .next t ∧
          t = succeeded { s with mem := t.mem, res0 := BitVec.ofNat 32 (n + 28) } ∧
          memReadBytes t.mem (0x1000 + dst) (n + 28) =
            be12 (d.toNat % 2 ^ 96) ++ Config.aead.sealBytes (be32 (readW s ra)) (be12 (d.toNat % 2 ^ 96)) []
              (memReadBytes s.mem (0x1000 + src) n) ∧
          ∀ a, a < 0x1000 + dst ∨ 0x1000 + dst + (n + 28) ≤ a → memRead t.mem a = memRead s.mem a) ∧
      (4096 < src + n → exec (.aenc ra) s = .next (failedWith .valueLength s)) ∧
      (4096 < dst + n + 28 → exec (.aenc ra) s = .next (failedWith .valueLength s)) ∧
      (∀ as, src + n ≤ 4096 → dst + n + 28 ≤ 4096 → s.answers = .fail :: as →
        exec (.aenc ra) s = .next (failedWith .entropyFail s)) ∧
      (src + n ≤ 4096 → dst + n + 28 ≤ 4096 → s.answers = [] →
        exec (.aenc ra) s = .next s ∧ commandRequest (.aenc ra) s = some 96)

/-- 44_aead.md R108, R110, R112, 20_memory.md R59: ADEC opens BUF[src..src+n) with the key be32(W[ra]) into
BUF[dst..dst+n−28) and changes no other byte; on any error it writes no byte. The checks are in the order of the rule.
No law says that AEAD_OPEN answers n − 28 bytes (R15); where it does not, R110 states no bytes, and those n − 28 bytes are
free values, of which nothing is said; that ADEC then still completes, sets RES0 to n − 28 and keeps to its bytes is the
model's choice (assumption log 14). The byte storage is canonical (an invariant). -/
def Obligations.AdecOpensTheBlob : Prop :=
  ∀ ra : Reg, decode (commandWord 0x41 0 ra 0 0) = .ok (.adec ra) ∧
    ∀ (s : State) (src n dst : Nat) (opened : Option (List Byte)),
      s.argl0.toNat = src → s.argl1.toNat = n → s.argl2.toNat = dst → s.mem.wf = true →
      opened = Config.aead.openBytes (be32 (readW s ra)) (memReadBytes s.mem (0x1000 + src) 12) []
        (memReadBytes s.mem (0x1000 + src + 12) (n - 12)) →
      (∀ pt, src + n ≤ 4096 → 28 ≤ n → dst + (n - 28) ≤ 4096 → opened = some pt →
        ∃ t, exec (.adec ra) s = .next t ∧
          t = succeeded { s with mem := t.mem, res0 := BitVec.ofNat 32 (n - 28) } ∧
          (pt.length = n - 28 → memReadBytes t.mem (0x1000 + dst) (n - 28) = pt) ∧
          ∀ a, a < 0x1000 + dst ∨ 0x1000 + dst + (n - 28) ≤ a → memRead t.mem a = memRead s.mem a) ∧
      (4096 < src + n → exec (.adec ra) s = .next (failedWith .valueLength s)) ∧
      (src + n ≤ 4096 → n < 12 → exec (.adec ra) s = .next (failedWith .formatDataShort s)) ∧
      (src + n ≤ 4096 → 12 ≤ n → n < 28 → exec (.adec ra) s = .next (failedWith .cryptoAuth s)) ∧
      (src + n ≤ 4096 → 28 ≤ n → 4096 < dst + (n - 28) → exec (.adec ra) s = .next (failedWith .valueLength s)) ∧
      (src + n ≤ 4096 → 28 ≤ n → dst + (n - 28) ≤ 4096 → opened = none →
        exec (.adec ra) s = .next (failedWith .cryptoAuth s))

/-- 44_aead.md R113: what AENC sealed, ADEC opens with the same key value, wherever it writes the plaintext. -/
def Obligations.AeadRoundTrip : Prop :=
  ∀ (ra ra' : Reg) (s : State) (src n dst : Nat) (d : BitVec 256) (as : List Answer),
    s.argl0.toNat = src → s.argl1.toNat = n → s.argl2.toNat = dst → s.mem.wf = true →
    src + n ≤ 4096 → dst + n + 28 ≤ 4096 → s.answers = .bits d :: as →
    ∃ t, exec (.aenc ra) s = .next t ∧ t.errcode = .ok ∧
      ∀ (u : State) (dst2 : Nat), u.argl0.toNat = dst → u.argl1.toNat = n + 28 → u.argl2.toNat = dst2 →
        dst2 + n ≤ 4096 → u.mem.wf = true → readW u ra' = readW s ra →
        memReadBytes u.mem (0x1000 + dst) (n + 28) = memReadBytes t.mem (0x1000 + dst) (n + 28) →
        ∃ u', exec (.adec ra') u = .next u' ∧ u'.errcode = .ok ∧
          memReadBytes u'.mem (0x1000 + dst2) n = memReadBytes s.mem (0x1000 + src) n

/-! ### Completion and errors, over all commands -/

/-- 60_exceptions.md R116: a command that raises writes ERRCODE, DONE, BUSY and ERRCMD and nothing else, but for DCHK's
DICT_VALID ← 0. -/
def Obligations.FailingCommandsChangeNothingElse : Prop :=
  ∀ (i : Instr) (s t : State), s.eng = .busy → exec i s = .next t → t.eng = .idle → t.errcode ≠ .ok →
    (i ≠ .dchk → t = failedWith t.errcode s) ∧ (i = .dchk → t = failedWith .formatDict { s with dictValid := false })

/-- 60_exceptions.md R114: the codes each command may raise. -/
def Obligations.CommandsRaiseOnlyTheirCodes : Prop :=
  ∀ (i : Instr) (s t : State), s.eng = .busy → exec i s = .next t → t.eng = .idle → t.errcode ≠ .ok →
    t.errcode ∈ raisedBy i

/-- 60_exceptions.md R118, 30_encoding.md R80: no command writes CTRL.IE, an ARG register, OVR, ACCERR or the latch, and
a successful one leaves ERRCMD as it was. -/
def Obligations.CommandsLeaveTheHostsRegisters : Prop :=
  ∀ (i : Instr) (s t : State), exec i s = .next t →
    SameHostView s t ∧ (t.errcode = .ok → t.errcmd = s.errcmd)

/-- 30_encoding.md R80, 10_state.md R39: no command reads OVR, ACCERR, IE, an unlatched ARG, DONE, ERRCODE, ERRCMD or
the bus: with other values there, and the same operand storage, DICT_VALID (which MENC, MDEC and DFIND check, 42_mnemonic.md
R92), latch, answers and RES0, a command completes with the same storage, results and code. -/
def Obligations.CommandsReadOnlyStorageDictValidLatchAndAnswers : Prop :=
  ∀ (i : Instr) (s s' t t' : State), SameCommandView s s' → s'.res0 = s.res0 → exec i s = .next t →
    exec i s' = .next t' → SameCommandView t t' ∧ t'.res0 = t.res0 ∧
      (s.eng = .busy → t.eng = .idle → t'.errcode = t.errcode ∧ t'.done = t.done)

/-- 60_exceptions.md R115, 10_state.md R43: a busy unit's turn leaves it busy exactly when an entropy request is
outstanding, and then it changes nothing; otherwise the command completes, with DONE set. -/
def Obligations.EngineWaitsExactlyOnARequest : Prop :=
  ∀ s : State, s.eng = .busy →
    (entropyRequest s ≠ none → engineStep s = .next s) ∧
    (entropyRequest s = none → ∃ t, engineStep s = .next t ∧ t.eng = .idle ∧ t.done = true ∧ t.answers = [])

/-- 70_reset_and_hazards.md R144: only RND256, RNDF, SPLIT with K = 0 and T ≥ 2, and AENC ever wait, each for a draw of
256, 127 or 96 bits; with no answer a waiting unit stays as it is for ever, and its run has no end (R146); and a reset
ends the wait. What counts as the end of a run is R146's, but for transactions offered while `rst_n` is low (assumption
log 16). That a unit without pending inputs gets the engine's turn at every step, which is what "for ever" is said
with, is the model's choice (assumption logs 1 and 9). -/
def Obligations.OnlyDrawingCommandsWaitAndTheyHang : Prop :=
  (∀ (i : Instr) (s : State) (n : Nat), commandRequest i s = some n →
    (∃ rd, i = .rnd256 rd ∧ n = 256) ∨ (∃ rd, i = .rndf rd ∧ n = 127) ∨
    (∃ ra, i = .split ra false ∧ 2 ≤ s.argl0.toNat ∧ n = 127) ∨ (∃ ra, i = .aenc ra ∧ n = 96)) ∧
  (∀ (k : Nat) (s : State), s.inputs = [] → entropyRequest s ≠ none →
    Sys2Proof.core.run k s = .next s ∧ ∀ t, ¬RunEndsIn k s t) ∧
  (∀ s : State, (rstStep false s).eng = .idle ∧
    (s.rstN = true → (busStep (.write 0x0004#16 2#32) s).eng = .idle))

/-- 41_entropy.md R88, 70_reset_and_hazards.md R132: an answer joins those of the command in flight while a request is
outstanding, and the late answer to a request that a reset withdrew is ignored in every state, also while a later
command's request is outstanding. That answers to a live request and late ones are told apart as inputs, and that an
answer with no request outstanding changes nothing, is the model's choice (assumption log 6). -/
def Obligations.EntropyAnswersGoToTheOutstandingRequest : Prop :=
  ∀ (a : Answer) (s : State),
    (entropyRequest s = none → entropyStep a s = s) ∧
    (entropyRequest s ≠ none → entropyStep a s = { s with answers := s.answers ++ [a] }) ∧
    eventStep (.lateEntropy a) s = .next s ∧
    (s.eng = .idle → entropyRequest s = none)

/-- 60_exceptions.md R123: `irq` = IE AND DONE; at a completion it is IE; it is dropped by acknowledging DONE, by the
acceptance of a command, by clearing IE without clearing DONE, and by reset. That it is 0 already while `rst_n` is low is
the model's choice (assumption log 7); after the pin has risen it is 0 by R132. -/
def Obligations.IrqFollowsIeAndDone : Prop :=
  (∀ s : State, irq s = (s.ie && s.done)) ∧
  (∀ s t : State, s.eng = .busy → engineStep s = .next t → t.eng = .idle → irq t = s.ie) ∧
  (∀ (s : State) (v : Word), s.rstN = true →
    (v.getLsbD 1 = true → irq (busStep (.write 0x0008#16 v) s) = false) ∧
    (s.eng = .idle → irq (busStep (.write 0x000C#16 v) s) = false) ∧
    (v.getLsbD 0 = false → v.getLsbD 1 = false →
      irq (busStep (.write 0x0004#16 v) s) = false ∧ (busStep (.write 0x0004#16 v) s).done = s.done) ∧
    (v.getLsbD 1 = true → irq (busStep (.write 0x0004#16 v) s) = false)) ∧
  (∀ s : State, irq (rstStep false s) = false ∧ irq (rstStep true (rstStep false s)) = false)

/-! ### Registers and the bus -/

/-- 10_state.md R18, R25, R27: ID, CAPS and PMOD0-3 read their constants in every state, and writing them completes
with OKAY and changes nothing. -/
def Obligations.ConstantRegistersAreConstant : Prop :=
  ∀ (s : State) (a : BitVec 16) (c v : Word), s.rstN = true →
    (a, c) ∈ [(0x0000#16, 0x424B5507#32), (0x0024#16, 0x10001010#32), (0x0040#16, 0xFFFFFFFF#32),
      (0x0044#16, 0xFFFFFFFF#32), (0x0048#16, 0xFFFFFFFF#32), (0x004C#16, 0x7FFFFFFF#32)] →
    busStep (.read a) s = { s with busOut := some ⟨.okay, some c⟩ } ∧
    busStep (.write a v) s = { s with busOut := some ⟨.okay, none⟩ }

/-- 10_state.md R19, 70_reset_and_hazards.md R133: CTRL reads IE in bit 0 and 0 elsewhere; a write with SRST = 0 writes IE
alone; a write with SRST = 1 brings every element to its reset value, busy or not, whatever the written IE bit, and
completes with OKAY (the environment's pending inputs are not the unit's). -/
def Obligations.CtrlHoldsIeAndSoftResets : Prop :=
  ∀ (s : State) (v : Word), s.rstN = true →
    busStep (.read 0x0004#16) s = { s with busOut := some ⟨.okay, some (if s.ie then 1#32 else 0#32)⟩ } ∧
    (v.getLsbD 1 = false →
      busStep (.write 0x0004#16 v) s = { s with ie := v.getLsbD 0, busOut := some ⟨.okay, none⟩ }) ∧
    (v.getLsbD 1 = true →
      busStep (.write 0x0004#16 v) s = { State.reset with inputs := s.inputs, busOut := some ⟨.okay, none⟩ })

/-- 10_state.md R20, R17: the fields of STATUS, ERRCODE with the numbers of 60_exceptions.md R114, and what a write
clears. -/
def Obligations.StatusFieldsAndAcknowledgement : Prop :=
  ∀ (s : State) (v : Word), s.rstN = true →
    ∃ d : Word, busStep (.read 0x0008#16) s = { s with busOut := some ⟨.okay, some d⟩ } ∧
      d.getLsbD 0 = decide (s.eng = .busy) ∧ d.getLsbD 1 = s.done ∧ d.getLsbD 2 = decide (s.errcode ≠ .ok) ∧
      d.getLsbD 3 = s.dictValid ∧ d.getLsbD 4 = s.ovr ∧ d.getLsbD 5 = s.accerr ∧ d.extractLsb' 6 2 = 0#2 ∧
      d.extractLsb' 8 8 = s.errcode.toByte ∧
      (s.errcode, d.extractLsb' 8 8) ∈ [(ErrCode.ok, 0x00#8), (.formatWordCount, 0x01#8), (.formatUnknownWord, 0x02#8),
        (.formatDict, 0x03#8), (.formatDataShort, 0x04#8), (.checksumMismatch, 0x10#8), (.cryptoAuth, 0x20#8),
        (.valueRange, 0x30#8), (.valueDupShare, 0x31#8), (.valueZeroInv, 0x32#8), (.valueParam, 0x33#8),
        (.valueLength, 0x34#8), (.illegalCmd, 0x40#8), (.entropyFail, 0x50#8)] ∧
      d.extractLsb' 16 16 = 0#16 ∧
      busStep (.write 0x0008#16 v) s =
        { s with done := s.done && !v.getLsbD 1, ovr := s.ovr && !v.getLsbD 4, accerr := s.accerr && !v.getLsbD 5,
                 busOut := some ⟨.okay, none⟩ }

/-- 10_state.md R21, R26, R36: an idle unit accepts a CMD write: BUSY ← 1, DONE ← 0, the latch takes the word and the
ARGs; CMD reads back the latched word, in any state. -/
def Obligations.CmdWriteIsAcceptedWhenIdle : Prop :=
  ∀ (s : State) (v : Word), s.rstN = true →
    (s.eng = .idle → busStep (.write 0x000C#16 v) s =
      { s with eng := .busy, done := false, cmdl := v, argl0 := s.arg0, argl1 := s.arg1, argl2 := s.arg2,
               answers := [], busOut := some ⟨.okay, none⟩ }) ∧
    busStep (.read 0x000C#16) s = { s with busOut := some ⟨.okay, some s.cmdl⟩ }

/-- 10_state.md R39: a CMD write while BUSY = 1 sets OVR and does nothing else. -/
def Obligations.CmdWriteWhileBusyIsDropped : Prop :=
  ∀ (s : State) (v : Word), s.rstN = true → s.eng = .busy →
    busStep (.write 0x000C#16 v) s = { s with ovr := true, busOut := some ⟨.okay, none⟩ }

/-- 10_state.md R22, R23, R24: ARG0-2 are written and read back whole at any time; RES0 and ERRCMD read their registers
and ignore writes. -/
def Obligations.ArgAndResultRegisters : Prop :=
  ∀ (s : State) (v : Word), s.rstN = true →
    busStep (.write 0x0010#16 v) s = { s with arg0 := v, busOut := some ⟨.okay, none⟩ } ∧
    busStep (.write 0x0014#16 v) s = { s with arg1 := v, busOut := some ⟨.okay, none⟩ } ∧
    busStep (.write 0x0018#16 v) s = { s with arg2 := v, busOut := some ⟨.okay, none⟩ } ∧
    busStep (.write 0x001C#16 v) s = { s with busOut := some ⟨.okay, none⟩ } ∧
    busStep (.write 0x0020#16 v) s = { s with busOut := some ⟨.okay, none⟩ } ∧
    busStep (.read 0x0010#16) s = { s with busOut := some ⟨.okay, some s.arg0⟩ } ∧
    busStep (.read 0x0014#16) s = { s with busOut := some ⟨.okay, some s.arg1⟩ } ∧
    busStep (.read 0x0018#16) s = { s with busOut := some ⟨.okay, some s.arg2⟩ } ∧
    busStep (.read 0x001C#16) s = { s with busOut := some ⟨.okay, some s.res0⟩ } ∧
    busStep (.read 0x0020#16) s = { s with busOut := some ⟨.okay, some s.errcmd⟩ }

/-- 20_memory.md R49, R54: a misaligned access, or one outside every range of R50, completes with SLVERR, changes
nothing else and reads 0; every other access completes with OKAY. -/
def Obligations.SlverrExactlyOutsideTheMap : Prop :=
  ∀ (s : State) (a : BitVec 16) (v : Word), s.rstN = true →
    let mapped := a.toNat % 4 = 0 ∧ (a.toNat ≤ 0x0024 ∨ (0x0040 ≤ a.toNat ∧ a.toNat ≤ 0x004F) ∨
      (0x0100 ≤ a.toNat ∧ a.toNat ≤ 0x02FF) ∨ (0x0400 ≤ a.toNat ∧ a.toNat ≤ 0x06FF) ∨
      (0x0700 ≤ a.toNat ∧ a.toNat ≤ 0x075F) ∨ (0x0780 ≤ a.toNat ∧ a.toNat ≤ 0x078F) ∨
      (0x1000 ≤ a.toNat ∧ a.toNat ≤ 0x1FFF) ∨ 0x8000 ≤ a.toNat)
    (¬mapped → busStep (.read a) s = { s with busOut := some ⟨.slverr, some 0#32⟩ } ∧
      busStep (.write a v) s = { s with busOut := some ⟨.slverr, none⟩ }) ∧
    (mapped → (∃ d, (busStep (.read a) s).busOut = some ⟨.okay, some d⟩) ∧
      (busStep (.write a v) s).busOut = some ⟨.okay, none⟩)

/-- 20_memory.md R55, 10_state.md R40: while BUSY = 1 an access to operand storage completes with OKAY, sets ACCERR,
reads 0 and changes nothing else, DICT_VALID included; control registers stay accessible, without touching ACCERR
unless the write is to CTRL or STATUS. -/
def Obligations.OperandStorageIsBlockedWhileBusy : Prop :=
  ∀ (s : State) (a : BitVec 16) (v : Word), s.rstN = true → s.eng = .busy → a.toNat % 4 = 0 →
    ((0x0100 ≤ a.toNat ∧ a.toNat ≤ 0x02FF) ∨ (0x0400 ≤ a.toNat ∧ a.toNat ≤ 0x06FF) ∨
      (0x0700 ≤ a.toNat ∧ a.toNat ≤ 0x075F) ∨ (0x0780 ≤ a.toNat ∧ a.toNat ≤ 0x078F) ∨
      (0x1000 ≤ a.toNat ∧ a.toNat ≤ 0x1FFF) ∨ 0x8000 ≤ a.toNat) →
    busStep (.read a) s = { s with accerr := true, busOut := some ⟨.okay, some 0#32⟩ } ∧
    busStep (.write a v) s = { s with accerr := true, busOut := some ⟨.okay, none⟩ } ∧
    ∀ c : BitVec 16, c.toNat % 4 = 0 → (c.toNat ≤ 0x0024 ∨ (0x0040 ≤ c.toNat ∧ c.toNat ≤ 0x004F)) →
      (∃ d, busStep (.read c) s = { s with busOut := some ⟨.okay, some d⟩ }) ∧
      (c ≠ 0x0004#16 → c ≠ 0x0008#16 → (busStep (.write c v) s).accerr = s.accerr)

/-- 20_memory.md R51: word k of a W register or of a COEF, SHX or SHY slot is bits [32k + 31 : 32k]; an idle unit's bus
write replaces exactly those bits of exactly that register or slot. -/
def Obligations.WideValuesArePackedInWords : Prop :=
  ∀ (s : State) (v : Word), s.rstN = true → s.eng = .idle →
    (∀ (n : Fin 16) (k : Fin 8) (a : BitVec 16), a.toNat = 0x0100 + 32 * n.val + 4 * k.val →
      busStep (.read a) s = { s with busOut := some ⟨.okay, some (s.w[n].extractLsb' (32 * k.val) 32)⟩ } ∧
      ∃ x : U256, busStep (.write a v) s = { s with w := s.w.set n.val x n.isLt, busOut := some ⟨.okay, none⟩ } ∧
        ∀ k' : Fin 8, x.extractLsb' (32 * k'.val) 32 = if k' = k then v else s.w[n].extractLsb' (32 * k'.val) 32) ∧
    (∀ (i : Fin 16) (k : Fin 4) (a : BitVec 16), a.toNat = 0x0400 + 16 * i.val + 4 * k.val →
      busStep (.read a) s = { s with busOut := some ⟨.okay, some (s.coef[i].extractLsb' (32 * k.val) 32)⟩ } ∧
      ∃ x : U128, busStep (.write a v) s = { s with coef := s.coef.set i.val x i.isLt, busOut := some ⟨.okay, none⟩ } ∧
        ∀ k' : Fin 4, x.extractLsb' (32 * k'.val) 32 = if k' = k then v else s.coef[i].extractLsb' (32 * k'.val) 32) ∧
    (∀ (i : Fin 16) (k : Fin 4) (a : BitVec 16), a.toNat = 0x0500 + 16 * i.val + 4 * k.val →
      busStep (.read a) s = { s with busOut := some ⟨.okay, some (s.shx[i].extractLsb' (32 * k.val) 32)⟩ } ∧
      ∃ x : U128, busStep (.write a v) s = { s with shx := s.shx.set i.val x i.isLt, busOut := some ⟨.okay, none⟩ } ∧
        ∀ k' : Fin 4, x.extractLsb' (32 * k'.val) 32 = if k' = k then v else s.shx[i].extractLsb' (32 * k'.val) 32) ∧
    (∀ (i : Fin 16) (k : Fin 4) (a : BitVec 16), a.toNat = 0x0600 + 16 * i.val + 4 * k.val →
      busStep (.read a) s = { s with busOut := some ⟨.okay, some (s.shy[i].extractLsb' (32 * k.val) 32)⟩ } ∧
      ∃ x : U128, busStep (.write a v) s = { s with shy := s.shy.set i.val x i.isLt, busOut := some ⟨.okay, none⟩ } ∧
        ∀ k' : Fin 4, x.extractLsb' (32 * k'.val) 32 = if k' = k then v else s.shy[i].extractLsb' (32 * k'.val) 32)

/-- 20_memory.md R52: an IDX slot is bits [10:0] of its word; the others read 0 and ignore writes. -/
def Obligations.IdxSlotsHoldElevenBits : Prop :=
  ∀ (s : State) (v : Word) (i : Fin 24) (a : BitVec 16), s.rstN = true → s.eng = .idle →
    a.toNat = 0x0700 + 4 * i.val →
    busStep (.read a) s = { s with busOut := some ⟨.okay, some (BitVec.ofNat 32 s.idx[i].toNat)⟩ } ∧
    busStep (.write a v) s =
      { s with idx := s.idx.set i.val (v.extractLsb' 0 11) i.isLt, busOut := some ⟨.okay, none⟩ }

/-- 20_memory.md R53, 10_state.md R41: in WORDBUF, BUF and DICT the byte at offset o of a word's base is bits
[8o + 7 : 8o] of the word; a write changes those four bytes and no other, and clears DICT_VALID in DICT alone. The
byte storage is canonical (an invariant). -/
def Obligations.ByteWindowsAreLittleEndian : Prop :=
  ∀ (s : State) (v : Word) (a : BitVec 16), s.rstN = true → s.eng = .idle → s.mem.wf = true → a.toNat % 4 = 0 →
    ((0x0780 ≤ a.toNat ∧ a.toNat ≤ 0x078F) ∨ (0x1000 ≤ a.toNat ∧ a.toNat ≤ 0x1FFF) ∨ 0x8000 ≤ a.toNat) →
    (∃ d : Word, busStep (.read a) s = { s with busOut := some ⟨.okay, some d⟩ } ∧
      ∀ o < 4, d.extractLsb' (8 * o) 8 = memRead s.mem (a.toNat + o)) ∧
    ∃ t, busStep (.write a v) s = t ∧
      t = { s with mem := t.mem, dictValid := s.dictValid && decide (a.toNat < 0x8000),
                   busOut := some ⟨.okay, none⟩ } ∧
      (∀ o < 4, memRead t.mem (a.toNat + o) = v.extractLsb' (8 * o) 8) ∧
      (∀ x, x < a.toNat ∨ a.toNat + 4 ≤ x → memRead t.mem x = memRead s.mem x)

/-- 20_memory.md R58: a read changes nothing but the bus response and, where it is blocked, ACCERR; and, but for CMD,
repeating a write leaves the same state. The byte storage is canonical (an invariant). -/
def Obligations.ReadsAndRepeatedWritesHaveNoFurtherEffect : Prop :=
  ∀ (s : State) (a : BitVec 16) (v : Word), s.mem.wf = true →
    (∃ b acc, busStep (.read a) s = { s with busOut := b, accerr := acc } ∧ (s.eng = .idle → acc = s.accerr)) ∧
    (a ≠ 0x000C#16 → busStep (.write a v) (busStep (.write a v) s) = busStep (.write a v) s)

/-- 10_state.md R41: only a DCHK that completes sets DICT_VALID; no other step of any agent does. -/
def Obligations.OnlyDchkSetsDictValid : Prop :=
  ∀ s t : State, step s = .next t → s.dictValid = false → t.dictValid = true →
    s.eng = .busy ∧ decode s.cmdl = .ok .dchk ∧ t.eng = .idle ∧ t.errcode = .ok ∧ dictOk s.mem = true

/-- 20_memory.md R57, R60: while a command is in flight no host transaction but a soft reset changes the storage, the
latched values or the answers it works with. -/
def Obligations.HostCannotDisturbACommandInFlight : Prop :=
  ∀ (s : State) (t : Txn), s.eng = .busy → s.rstN = true →
    (∀ v, t = .write 0x0004#16 v → v.getLsbD 1 = false) → SameCommandView s (busStep t s)

/-! ### Reset and invariants -/

/-- 10_state.md R45: the table of reset values. -/
def Obligations.ResetValues : Prop :=
  statusWord State.reset = 0#32 ∧ ctrlWord State.reset = 0#32 ∧ State.reset.eng = .idle ∧
  State.reset.cmdl = 0#32 ∧ State.reset.arg0 = 0#32 ∧ State.reset.arg1 = 0#32 ∧ State.reset.arg2 = 0#32 ∧
  State.reset.argl0 = 0#32 ∧ State.reset.argl1 = 0#32 ∧ State.reset.argl2 = 0#32 ∧ State.reset.res0 = 0#32 ∧
  State.reset.errcmd = 0#32 ∧ irq State.reset = false ∧ entropyRequest State.reset = none ∧
  readTarget State.reset .id = 0x424B5507#32 ∧ readTarget State.reset .caps = 0x10001010#32 ∧
  (∀ k : Fin 4, readTarget State.reset (.pmod k) = if k = 3 then 0x7FFFFFFF#32 else 0xFFFFFFFF#32) ∧
  (∀ i : Fin 16, State.reset.w[i] = 0#256 ∧ State.reset.coef[i] = 0#128 ∧ State.reset.shx[i] = 0#128 ∧
    State.reset.shy[i] = 0#128) ∧
  (∀ i : Fin 24, State.reset.idx[i] = 0#11) ∧ (∀ a, memRead State.reset.mem a = 0#8)

/-- 70_reset_and_hazards.md R132: when `rst_n` falls the command in flight is abandoned, DONE 0 and ERRCODE 0x00; while it
is low no transaction is taken, no request is outstanding and a late answer is ignored; when it rises every element
holds its reset value (the bus response is the model's own field, assumption log 8: nothing is said of it here). What
the elements hold while the pin is low, and so the clauses on `rstStep false s` and on low states, is the model's choice
(assumption log 7), and how a late answer is an input is log 6's. The premise on low states is an invariant. -/
def Obligations.HardwareResetErasesEverything : Prop :=
  ∀ s : State, Safety.Inv s →
    (∃ b, rstStep true (rstStep false s) = { State.reset with inputs := s.inputs, busOut := b }) ∧
    (rstStep false s).eng = .idle ∧ (rstStep false s).done = false ∧ (rstStep false s).errcode = .ok ∧
    (∀ a, eventStep (.lateEntropy a) s = .next s) ∧
    (s.rstN = false →
      (∃ b, rstStep true s = { State.reset with inputs := s.inputs, busOut := b }) ∧ entropyRequest s = none ∧
      (∀ t, ∃ b, busStep t s = { s with busOut := b }) ∧ ∀ a, entropyStep a s = s)

/-- The invariant holds after reset. -/
def Obligations.ResetMeetsTheInvariant : Prop := Safety.Inv State.reset

/-- Every step of every agent keeps the invariant: the byte storage stays canonical and within WORDBUF, BUF and DICT,
DICT_VALID = 1 implies a dictionary that passes DCHK (10_state.md R41), a busy unit has DONE = 0 (R36, R37), an idle
engine holds no entropy answer (R44), and no command is in flight while `rst_n` is low (70_reset_and_hazards.md R132). -/
def Obligations.StepKeepsTheInvariant : Prop :=
  ∀ s t : State, Safety.Inv s → step s = .next t → Safety.Inv t
end

