-- ==== Sys2Proof/Laws/Memory.lean ====
section
/-! SUPPORT. The laws of the byte storage: reads after writes, and the canonical form. -/

namespace Sys2Proof.Machine

@[simp] theorem memRead_nil (a : Nat) : memRead [] a = 0#8 := rfl

theorem memRead_cons (k : Nat) (b : Byte) (m : Memory) (a : Nat) :
    memRead ((k, b) :: m) a = if k = a then b else memRead m a := rfl

/-- A canonical storage from `lo` on lists nothing below `lo`. -/
theorem memRead_below {lo a : Nat} {m : Memory} (h : Memory.wfFrom lo m = true) (ha : a < lo) :
    memRead m a = 0#8 := by
  induction m generalizing lo with
  | nil => rfl
  | cons c rest ih =>
    obtain ⟨k, b⟩ := c
    simp only [Memory.wfFrom, Bool.and_eq_true, decide_eq_true_eq] at h
    obtain ⟨⟨hk, -⟩, hrest⟩ := h
    rw [memRead_cons, if_neg (by omega)]
    exact ih hrest (by omega)

theorem wfFrom_mono {lo lo' : Nat} {m : Memory} (h : Memory.wfFrom lo m = true) (hl : lo' ≤ lo) :
    Memory.wfFrom lo' m = true := by
  cases m with
  | nil => rfl
  | cons c rest =>
    simp only [Memory.wfFrom, Bool.and_eq_true, decide_eq_true_eq] at h ⊢
    exact ⟨⟨by omega, h.1.2⟩, h.2⟩

/-- Another address reads as before: of any list, canonical or not. -/
theorem memRead_memWrite_other {m : Memory} {a a' : Nat} {b : Byte} (h : a' ≠ a) :
    memRead (memWrite m a b) a' = memRead m a' := by
  induction m with
  | nil =>
    unfold memWrite
    split
    · rfl
    · rw [memRead_cons, if_neg (by omega)]
  | cons c rest ih =>
    obtain ⟨k, d⟩ := c
    unfold memWrite
    split
    · split
      · rfl
      · rw [memRead_cons, if_neg (by omega)]
    · split
      · rename_i hk
        subst hk
        split
        · rw [memRead_cons, if_neg (by omega)]
        · rw [memRead_cons, memRead_cons, if_neg (by omega), if_neg (by omega)]
      · rw [memRead_cons, memRead_cons, ih]

/-- A canonical storage reads what was written. -/
theorem memRead_memWrite_same {lo : Nat} {m : Memory} (h : Memory.wfFrom lo m = true) (a : Nat) (b : Byte) :
    memRead (memWrite m a b) a = b := by
  induction m generalizing lo with
  | nil =>
    unfold memWrite
    split
    · rename_i hb
      rw [hb]
      rfl
    · rw [memRead_cons, if_pos rfl]
  | cons c rest ih =>
    obtain ⟨k, d⟩ := c
    simp only [Memory.wfFrom, Bool.and_eq_true, decide_eq_true_eq] at h
    obtain ⟨-, hrest⟩ := h
    unfold memWrite
    split
    · rename_i hk
      split
      · rename_i hb
        rw [memRead_cons, if_neg (by omega), hb]
        exact memRead_below hrest (by omega)
      · rw [memRead_cons, if_pos rfl]
    · split
      · rename_i hk
        subst hk
        split
        · rename_i hb
          rw [hb]
          exact memRead_below hrest (by omega)
        · rw [memRead_cons, if_pos rfl]
      · rename_i hk
        rw [memRead_cons, if_neg (fun e => hk e.symm)]
        exact ih hrest

/-- A write keeps the canonical form. -/
theorem wfFrom_memWrite {lo : Nat} {m : Memory} (h : Memory.wfFrom lo m = true) {a : Nat} (ha : lo ≤ a) (b : Byte) :
    Memory.wfFrom lo (memWrite m a b) = true := by
  induction m generalizing lo with
  | nil =>
    unfold memWrite
    split
    · rfl
    · rename_i hb
      simp [Memory.wfFrom, ha, hb]
  | cons c rest ih =>
    obtain ⟨k, d⟩ := c
    have h' := h
    simp only [Memory.wfFrom, Bool.and_eq_true, decide_eq_true_eq] at h
    obtain ⟨⟨hk, hd⟩, hrest⟩ := h
    unfold memWrite
    split
    · rename_i hak
      split
      · exact h'
      · rename_i hb
        simp only [Memory.wfFrom, Bool.and_eq_true, decide_eq_true_eq]
        exact ⟨⟨ha, hb⟩, ⟨by omega, hd⟩, hrest⟩
    · split
      · rename_i hak
        subst hak
        split
        · exact wfFrom_mono hrest (by omega)
        · rename_i hb
          simp only [Memory.wfFrom, Bool.and_eq_true, decide_eq_true_eq]
          exact ⟨⟨ha, hb⟩, hrest⟩
      · simp only [Memory.wfFrom, Bool.and_eq_true, decide_eq_true_eq]
        exact ⟨⟨hk, hd⟩, ih hrest (by omega)⟩

theorem wf_memWrite {m : Memory} (h : m.wf = true) (a : Nat) (b : Byte) : Memory.wf (memWrite m a b) = true :=
  wfFrom_memWrite h (Nat.zero_le a) b

theorem wf_memWriteBytes {m : Memory} (h : m.wf = true) (a : Nat) (bs : List Byte) :
    Memory.wf (memWriteBytes m a bs) = true := by
  induction bs generalizing m a with
  | nil => exact h
  | cons b bs ih => exact ih (wf_memWrite h a b) (a + 1)

theorem wf_memWriteWord {m : Memory} (h : m.wf = true) (a : Nat) (v : Word) :
    Memory.wf (memWriteWord m a v) = true :=
  wf_memWriteBytes h a _

theorem reset_mem_wf : Memory.wf State.reset.mem = true := rfl

/-- Bytes outside the written range read as before. -/
theorem memRead_memWriteBytes_outside {bs : List Byte} {m : Memory} {a x : Nat}
    (h : x < a ∨ a + bs.length ≤ x) : memRead (memWriteBytes m a bs) x = memRead m x := by
  induction bs generalizing m a with
  | nil => rfl
  | cons b bs ih =>
    simp only [List.length_cons] at h
    rw [memWriteBytes, ih (by omega), memRead_memWrite_other (by omega)]

/-- Bytes of the written range read as written. -/
theorem memRead_memWriteBytes_inside {bs : List Byte} {m : Memory} (hm : m.wf = true) {a i : Nat}
    (hi : i < bs.length) : memRead (memWriteBytes m a bs) (a + i) = bs[i] := by
  induction bs generalizing m a i with
  | nil => simp at hi
  | cons b bs ih =>
    rw [memWriteBytes]
    cases i with
    | zero => rw [memRead_memWriteBytes_outside (by omega)]; exact memRead_memWrite_same hm a b
    | succ j =>
      have := ih (m := memWrite m a b) (wf_memWrite hm a b) (a := a + 1) (i := j) (by simpa using hi)
      rw [show a + (j + 1) = a + 1 + j by omega, this]
      rfl

@[simp] theorem memReadBytes_length (m : Memory) (a n : Nat) : (memReadBytes m a n).length = n := by
  simp [memReadBytes]

@[simp] theorem memReadBytes_getElem (m : Memory) (a n i : Nat) (h : i < (memReadBytes m a n).length) :
    (memReadBytes m a n)[i] = memRead m (a + i) := by
  simp [memReadBytes]

/-- Reading back a byte string just written. -/
theorem memReadBytes_memWriteBytes {m : Memory} (hm : m.wf = true) (a : Nat) (bs : List Byte) :
    memReadBytes (memWriteBytes m a bs) a bs.length = bs := by
  apply List.ext_getElem
  · simp
  · intro i h1 h2
    rw [memReadBytes_getElem]
    exact memRead_memWriteBytes_inside hm h2

/-- Two reads of ranges that agree byte by byte agree. -/
theorem memReadBytes_congr {m m' : Memory} {a a' n : Nat}
    (h : ∀ i < n, memRead m (a + i) = memRead m' (a' + i)) : memReadBytes m a n = memReadBytes m' a' n := by
  unfold memReadBytes
  apply List.map_congr_left
  intro i hi
  exact h i (by simpa using hi)

theorem take_memReadBytes (m : Memory) (a : Nat) {n k : Nat} (h : k ≤ n) :
    (memReadBytes m a n).take k = memReadBytes m a k := by
  apply List.ext_getElem
  · simp [h]
  · intro i h1 h2
    simp

theorem drop_memReadBytes (m : Memory) (a n k : Nat) : (memReadBytes m a n).drop k = memReadBytes m (a + k) (n - k) := by
  apply List.ext_getElem
  · simp
  · intro i h1 h2
    simp [Nat.add_assoc]

/-- Canonical storages with the same bytes are equal. -/
theorem memory_ext {lo : Nat} {m m' : Memory} (h : Memory.wfFrom lo m = true) (h' : Memory.wfFrom lo m' = true)
    (e : ∀ a, memRead m a = memRead m' a) : m = m' := by
  induction m generalizing lo m' with
  | nil =>
    cases m' with
    | nil => rfl
    | cons c rest =>
      obtain ⟨k, b⟩ := c
      have := e k
      simp only [Memory.wfFrom, Bool.and_eq_true, decide_eq_true_eq] at h'
      rw [memRead_cons, if_pos rfl] at this
      exact absurd this.symm h'.1.2
  | cons c rest ih =>
    obtain ⟨k, b⟩ := c
    have hk := h
    simp only [Memory.wfFrom, Bool.and_eq_true, decide_eq_true_eq] at hk
    cases m' with
    | nil =>
      have := e k
      rw [memRead_cons, if_pos rfl] at this
      exact absurd this hk.1.2
    | cons c' rest' =>
      obtain ⟨k', b'⟩ := c'
      have hk' := h'
      simp only [Memory.wfFrom, Bool.and_eq_true, decide_eq_true_eq] at hk'
      have hkk : k = k' := by
        rcases Nat.lt_trichotomy k k' with hlt | heq | hlt
        · have := e k
          rw [memRead_cons, if_pos rfl, memRead_cons, if_neg (by omega), memRead_below hk'.2 (by omega)] at this
          exact absurd this hk.1.2
        · exact heq
        · have := e k'
          rw [memRead_cons, if_neg (by omega), memRead_below hk.2 (by omega), memRead_cons, if_pos rfl] at this
          exact absurd this.symm hk'.1.2
      subst hkk
      have hb : b = b' := by
        have := e k
        simpa [memRead_cons] using this
      subst hb
      congr 1
      refine ih hk.2 hk'.2 fun a => ?_
      by_cases ha : k = a
      · rw [memRead_below hk.2 (by omega), memRead_below hk'.2 (by omega)]
      · have := e a
        simpa [memRead_cons, ha] using this

end Sys2Proof.Machine
end

