-- ==== Sys2Proof/Laws/Operands.lean ====
section
/-! SUPPORT. The laws of the operand forms: W registers, lanes, table slots, byte lanes, big-endian byte strings and the
words of the dictionary. -/

namespace Sys2Proof.Machine

/-! ### W registers -/

@[simp] theorem readW_writeW_same (s : State) (r : Reg) (v : U256) : readW (writeW s r v) r = v := by
  simp [readW, writeW]

theorem readW_writeW_other {s : State} {r r' : Reg} (v : U256) (h : r' ≠ r) :
    readW (writeW s r v) r' = readW s r' := by
  have : r.val ≠ r'.val := fun e => h (Fin.ext e.symm)
  simp [readW, writeW, this]

theorem zext256_toNat {v : Nat} (h : v < 2 ^ 256) : (zext256 v).toNat = v := by
  simp only [zext256, BitVec.toNat_ofNat]
  exact Nat.mod_eq_of_lt h

theorem zext128_toNat {v : Nat} (h : v < 2 ^ 128) : (zext128 v).toNat = v := by
  simp only [zext128, BitVec.toNat_ofNat]
  exact Nat.mod_eq_of_lt h

/-! ### Lanes of wide values -/

/-- Bit i of a replaced lane's value: the new word's bit inside the lane, the old bit outside. -/
theorem getLsbD_setLane {n : Nat} (v : BitVec n) (k : Nat) (x : Word) (i : Nat) :
    (setLane v k x).getLsbD i =
      if i < n ∧ 32 * k ≤ i ∧ i < 32 * k + 32 then x.getLsbD (i - 32 * k) else v.getLsbD i := by
  by_cases hn : i < n
  · by_cases h1 : 32 * k ≤ i
    · by_cases h2 : i < 32 * k + 32
      · have h3 : i - 32 * k < 32 := by omega
        have h4 : ¬i < 32 * k := by omega
        simp [setLane, hn, h1, h2, h4]
        intro _ hb
        have : (0xFFFFFFFF#32).getLsbD (i - 32 * k) = true := by
          generalize i - 32 * k = j at h3
          interval_cases j <;> rfl
        rw [this] at hb
        cases hb
      · have h3 : 32 ≤ i - 32 * k := by omega
        have h4 : ¬i < 32 * k := by omega
        simp [setLane, hn, h1, h2, h4, BitVec.getLsbD_of_ge _ _ h3]
    · have h4 : i < 32 * k := by omega
      simp [setLane, hn, h1, h4]
  · simp [hn, BitVec.getLsbD_of_ge _ _ (Nat.le_of_not_lt hn)]

theorem lane_setLane_same {n : Nat} (v : BitVec n) (k : Nat) (x : Word) (h : 32 * k + 32 ≤ n) :
    lane (setLane v k x) k = x := by
  apply BitVec.eq_of_getLsbD_eq
  intro i hi
  simp only [lane, BitVec.getLsbD_extractLsb', hi, decide_true, Bool.true_and, getLsbD_setLane]
  rw [if_pos (by omega), Nat.add_sub_cancel_left]

theorem lane_setLane_other {n : Nat} (v : BitVec n) {k k' : Nat} (x : Word) (h : k' ≠ k) :
    lane (setLane v k x) k' = lane v k' := by
  apply BitVec.eq_of_getLsbD_eq
  intro i hi
  simp only [lane, BitVec.getLsbD_extractLsb', hi, decide_true, Bool.true_and, getLsbD_setLane]
  rw [if_neg (by omega)]

/-- Writing one word of a wide value twice is writing it once. -/
theorem setLane_setLane {n : Nat} (v : BitVec n) (k : Nat) (x : Word) : setLane (setLane v k x) k x = setLane v k x := by
  apply BitVec.eq_of_getLsbD_eq
  intro i hi
  rw [getLsbD_setLane, getLsbD_setLane]
  split <;> rfl

/-! ### Table slots -/

theorem slots_length {m : Nat} (v : Vector U128 m) (n : Nat) : (slots v n).length = min n m := by
  simp [slots]

theorem slots_getElem {m : Nat} (v : Vector U128 m) (n i : Nat) (h : i < (slots v n).length) :
    (slots v n)[i] = (v[i]'(by rw [slots_length] at h; omega)).toNat := by
  simp [slots]

theorem writeSlots_getElem {m : Nat} (v : Vector U128 m) (l : List Nat) (i : Nat) (h : i < m) :
    (writeSlots v l)[i] = if hi : i < l.length then zext128 l[i] else v[i] := by
  simp only [writeSlots, Vector.getElem_ofFn]
  split
  · rename_i x hx
    obtain ⟨hi, hx⟩ := List.getElem?_eq_some_iff.mp hx
    rw [dif_pos hi, hx]
  · rename_i hx
    rw [dif_neg (by simpa using hx)]
    rfl

/-! ### Byte lanes of a bus word -/

theorem extract_memReadWord (m : Memory) (a o : Nat) (h : o < 4) :
    (memReadWord m a).extractLsb' (8 * o) 8 = memRead m (a + o) := by
  apply BitVec.eq_of_getLsbD_eq
  intro i hi
  simp only [memReadWord, BitVec.getLsbD_extractLsb', hi, decide_true, Bool.true_and, BitVec.getLsbD_append]
  interval_cases o <;> interval_cases i <;> simp

theorem memRead_memWriteWord_outside {m : Memory} {a x : Nat} (v : Word) (h : x < a ∨ a + 4 ≤ x) :
    memRead (memWriteWord m a v) x = memRead m x := by
  unfold memWriteWord
  exact memRead_memWriteBytes_outside (by simpa using h)

theorem memRead_memWriteWord_inside {m : Memory} (hm : m.wf = true) (a : Nat) (v : Word) (o : Nat) (h : o < 4) :
    memRead (memWriteWord m a v) (a + o) = v.extractLsb' (8 * o) 8 := by
  unfold memWriteWord
  rw [memRead_memWriteBytes_inside hm (by simpa using h)]
  interval_cases o <;> rfl

/-- Writing one word of the byte storage twice is writing it once. -/
theorem memWriteWord_memWriteWord {m : Memory} (h : m.wf = true) (a : Nat) (v : Word) :
    memWriteWord (memWriteWord m a v) a v = memWriteWord m a v := by
  apply memory_ext (lo := 0) (wf_memWriteWord (wf_memWriteWord h _ _) _ _) (wf_memWriteWord h _ _)
  intro x
  by_cases hx : x < a ∨ a + 4 ≤ x
  · rw [memRead_memWriteWord_outside v hx]
  · obtain ⟨o, ho, rfl⟩ : ∃ o, o < 4 ∧ x = a + o := ⟨x - a, by omega, by omega⟩
    rw [memRead_memWriteWord_inside (wf_memWriteWord h _ _) _ _ _ ho, memRead_memWriteWord_inside h _ _ _ ho]

/-! ### Big-endian byte strings -/

@[simp] theorem toBytesBE_length (n v : Nat) : (toBytesBE n v).length = n := by simp [toBytesBE]

theorem toBytesBE_getElem (n v i : Nat) (h : i < (toBytesBE n v).length) :
    (toBytesBE n v)[i] = BitVec.ofNat 8 (v >>> (8 * (n - 1 - i))) := by simp [toBytesBE]

@[simp] theorem be32_length (v : U256) : (be32 v).length = 32 := toBytesBE_length _ _

@[simp] theorem be12_length (v : Nat) : (be12 v).length = 12 := toBytesBE_length _ _

theorem toBytesBE_succ (n v : Nat) : toBytesBE (n + 1) v = toBytesBE n (v / 256) ++ [BitVec.ofNat 8 v] := by
  apply List.ext_getElem
  · simp
  · intro i h1 h2
    rw [toBytesBE_getElem]
    simp only [toBytesBE_length] at h1
    by_cases hi : i < n
    · rw [List.getElem_append_left (by simpa using hi), toBytesBE_getElem]
      congr 1
      rw [Nat.shiftRight_eq_div_pow, Nat.shiftRight_eq_div_pow, Nat.div_div_eq_div_mul,
        show (256 : Nat) = 2 ^ 8 by rfl, ← Nat.pow_add]
      congr 2
      omega
    · have : i = n := by omega
      subst this
      rw [List.getElem_append_right (by simp)]
      simp

/-- int_be is the inverse of the big-endian byte strings (00_scope.md R11). -/
theorem intBE_toBytesBE (n v : Nat) (h : v < 256 ^ n) : intBE (toBytesBE n v) = v := by
  induction n generalizing v with
  | zero =>
    have : v = 0 := by simpa using h
    subst this
    rfl
  | succ n ih =>
    have h' : v / 256 < 256 ^ n := by
      rw [Nat.div_lt_iff_lt_mul (by norm_num)]
      rwa [Nat.pow_succ] at h
    have := ih (v / 256) h'
    rw [toBytesBE_succ]
    unfold intBE at this ⊢
    rw [List.foldl_append, this]
    simp only [List.foldl_cons, List.foldl_nil, BitVec.toNat_ofNat]
    omega

/-! ### Words -/

theorem dictWord_congr {m m' : Memory} (h : ∀ a, 0x8000 ≤ a → memRead m' a = memRead m a) (i : Nat) :
    dictWord m' i = dictWord m i := by
  unfold dictWord
  rw [memReadBytes_congr]
  intro j _
  apply h
  simp only [Config.dictBase]
  omega

theorem dictOk_congr {m m' : Memory} (h : ∀ a, 0x8000 ≤ a → memRead m' a = memRead m a) : dictOk m' = dictOk m := by
  have : dictWords m' = dictWords m := List.map_congr_left fun i _ => dictWord_congr h i
  simp only [dictOk, this]

end Sys2Proof.Machine
end

