-- ==== Sys2Proof/Laws/Bus.lean ====
section
/-! SUPPORT. The address map as a bijection between mapped word offsets and targets (20_memory.md R50), and what a
transaction does once its target is known (R66): proofs about the bus cite these and never unfold `target`. -/

namespace Sys2Proof.Machine

/-- The bus offset of a word of the address map (20_memory.md R50, R51, R52). -/
def offsetOf : Target → Nat
  | .id => 0x0000
  | .ctrl => 0x0004
  | .status => 0x0008
  | .cmd => 0x000C
  | .arg0 => 0x0010
  | .arg1 => 0x0014
  | .arg2 => 0x0018
  | .res0 => 0x001C
  | .errcmd => 0x0020
  | .caps => 0x0024
  | .pmod k => 0x0040 + 4 * k.val
  | .w n k => 0x0100 + 32 * n.val + 4 * k.val
  | .coef i k => 0x0400 + 16 * i.val + 4 * k.val
  | .shx i k => 0x0500 + 16 * i.val + 4 * k.val
  | .shy i k => 0x0600 + 16 * i.val + 4 * k.val
  | .idx i => 0x0700 + 4 * i.val
  | .wordbuf a => a
  | .buf a => a
  | .dict a => a

/-- A word of the byte storage lies in its window, at a multiple of 4. -/
def validTarget : Target → Prop
  | .wordbuf a => 0x0780 ≤ a ∧ a ≤ 0x078F ∧ a % 4 = 0
  | .buf a => 0x1000 ≤ a ∧ a ≤ 0x1FFF ∧ a % 4 = 0
  | .dict a => 0x8000 ≤ a ∧ a % 4 = 0
  | .id | .ctrl | .status | .cmd | .arg0 | .arg1 | .arg2 | .res0 | .errcmd | .caps | .pmod _ | .w _ _ | .coef _ _
  | .shx _ _ | .shy _ _ | .idx _ => True

/-- An offset that is mapped (20_memory.md R49, R50). -/
def mappedOffset (a : Nat) : Prop :=
  a % 4 = 0 ∧ (a ≤ 0x0024 ∨ (0x0040 ≤ a ∧ a ≤ 0x004F) ∨ (0x0100 ≤ a ∧ a ≤ 0x02FF) ∨ (0x0400 ≤ a ∧ a ≤ 0x06FF) ∨
    (0x0700 ≤ a ∧ a ≤ 0x075F) ∨ (0x0780 ≤ a ∧ a ≤ 0x078F) ∨ (0x1000 ≤ a ∧ a ≤ 0x1FFF) ∨ 0x8000 ≤ a)

/-- The registers and tables, whose offsets are finitely many: the map is evaluated at each. -/
theorem target_of_table :
    (∀ tg ∈ [Target.id, .ctrl, .status, .cmd, .arg0, .arg1, .arg2, .res0, .errcmd, .caps],
      target (BitVec.ofNat 16 (offsetOf tg)) = some tg) ∧
    (∀ k, target (BitVec.ofNat 16 (offsetOf (.pmod k))) = some (.pmod k)) ∧
    (∀ n k, target (BitVec.ofNat 16 (offsetOf (.w n k))) = some (.w n k)) ∧
    (∀ i k, target (BitVec.ofNat 16 (offsetOf (.coef i k))) = some (.coef i k)) ∧
    (∀ i k, target (BitVec.ofNat 16 (offsetOf (.shx i k))) = some (.shx i k)) ∧
    (∀ i k, target (BitVec.ofNat 16 (offsetOf (.shy i k))) = some (.shy i k)) ∧
    (∀ i, target (BitVec.ofNat 16 (offsetOf (.idx i))) = some (.idx i)) := by decide +kernel

/-- The byte windows. -/
theorem target_of_window {a : BitVec 16} (h4 : a.toNat % 4 = 0) :
    (0x0780 ≤ a.toNat ∧ a.toNat ≤ 0x078F → target a = some (.wordbuf a.toNat)) ∧
    (0x1000 ≤ a.toNat ∧ a.toNat ≤ 0x1FFF → target a = some (.buf a.toNat)) ∧
    (0x8000 ≤ a.toNat → target a = some (.dict a.toNat)) := by
  unfold target
  refine ⟨fun h => ?_, fun h => ?_, fun h => ?_⟩ <;>
    simp (disch := omega) only [if_pos, if_neg, dif_neg]

/-- The word at a target's offset is that target. -/
theorem target_offsetOf {a : BitVec 16} {tg : Target} (h : a.toNat = offsetOf tg) (hv : validTarget tg) :
    target a = some tg := by
  have ha : a = BitVec.ofNat 16 (offsetOf tg) := by rw [← h, BitVec.ofNat_toNat, BitVec.setWidth_eq]
  obtain ⟨hreg, hpmod, hw, hcoef, hshx, hshy, hidx⟩ := target_of_table
  cases tg
  case wordbuf x =>
    obtain rfl : a.toNat = x := h
    exact (target_of_window hv.2.2).1 ⟨hv.1, hv.2.1⟩
  case buf x =>
    obtain rfl : a.toNat = x := h
    exact (target_of_window hv.2.2).2.1 ⟨hv.1, hv.2.1⟩
  case dict x =>
    obtain rfl : a.toNat = x := h
    exact (target_of_window hv.2).2.2 hv.1
  all_goals rw [ha]
  case pmod k => exact hpmod k
  case w n k => exact hw n k
  case coef i k => exact hcoef i k
  case shx i k => exact hshx i k
  case shy i k => exact hshy i k
  case idx i => exact hidx i
  all_goals exact hreg _ (by decide)

/-- Every mapped offset is a target's. -/
theorem exists_target {a : Nat} (h : mappedOffset a) (hlt : a < 2 ^ 16) : ∃ tg, a = offsetOf tg ∧ validTarget tg := by
  obtain ⟨h4, h⟩ := h
  by_cases h1 : a ≤ 0x0024
  · obtain rfl | rfl | rfl | rfl | rfl | rfl | rfl | rfl | rfl | rfl : a = 0x0000 ∨ a = 0x0004 ∨ a = 0x0008 ∨
        a = 0x000C ∨ a = 0x0010 ∨ a = 0x0014 ∨ a = 0x0018 ∨ a = 0x001C ∨ a = 0x0020 ∨ a = 0x0024 := by omega
    · exact ⟨.id, rfl, trivial⟩
    · exact ⟨.ctrl, rfl, trivial⟩
    · exact ⟨.status, rfl, trivial⟩
    · exact ⟨.cmd, rfl, trivial⟩
    · exact ⟨.arg0, rfl, trivial⟩
    · exact ⟨.arg1, rfl, trivial⟩
    · exact ⟨.arg2, rfl, trivial⟩
    · exact ⟨.res0, rfl, trivial⟩
    · exact ⟨.errcmd, rfl, trivial⟩
    · exact ⟨.caps, rfl, trivial⟩
  by_cases h2 : a ≤ 0x004F
  · exact ⟨.pmod ⟨(a - 0x0040) / 4, by omega⟩, by simp only [offsetOf]; omega, trivial⟩
  by_cases h3 : a ≤ 0x02FF
  · exact ⟨.w ⟨(a - 0x0100) / 32, by omega⟩ ⟨(a - 0x0100) % 32 / 4, by omega⟩, by simp only [offsetOf]; omega, trivial⟩
  by_cases h5 : a ≤ 0x04FF
  · exact ⟨.coef ⟨(a - 0x0400) / 16, by omega⟩ ⟨(a - 0x0400) % 16 / 4, by omega⟩, by simp only [offsetOf]; omega,
      trivial⟩
  by_cases h6 : a ≤ 0x05FF
  · exact ⟨.shx ⟨(a - 0x0500) / 16, by omega⟩ ⟨(a - 0x0500) % 16 / 4, by omega⟩, by simp only [offsetOf]; omega, trivial⟩
  by_cases h7 : a ≤ 0x06FF
  · exact ⟨.shy ⟨(a - 0x0600) / 16, by omega⟩ ⟨(a - 0x0600) % 16 / 4, by omega⟩, by simp only [offsetOf]; omega, trivial⟩
  by_cases h8 : a ≤ 0x075F
  · exact ⟨.idx ⟨(a - 0x0700) / 4, by omega⟩, by simp only [offsetOf]; omega, trivial⟩
  by_cases h9 : a ≤ 0x078F
  · exact ⟨.wordbuf a, rfl, by simp only [validTarget]; omega⟩
  by_cases h10 : a ≤ 0x1FFF
  · exact ⟨.buf a, rfl, by simp only [validTarget]; omega⟩
  · exact ⟨.dict a, rfl, by simp only [validTarget]; omega⟩

/-- A transaction has no target exactly when its offset is not mapped. -/
theorem target_eq_none {a : BitVec 16} : target a = none ↔ ¬mappedOffset a.toNat := by
  constructor
  · intro h hm
    obtain ⟨tg, ho, hv⟩ := exists_target hm a.isLt
    rw [target_offsetOf ho hv] at h
    cases h
  · intro h
    unfold mappedOffset at h
    unfold target
    by_cases h4 : a.toNat % 4 = 0
    · simp (disch := omega) only [if_neg, dif_neg]
    · simp only [ne_eq, h4, not_false_eq_true, if_true]

/-- A transaction's target is the word at its offset, and no other. -/
theorem target_eq_some {a : BitVec 16} {tg : Target} :
    target a = some tg ↔ a.toNat = offsetOf tg ∧ validTarget tg := by
  refine ⟨fun h => ?_, fun h => target_offsetOf h.1 h.2⟩
  have hm : mappedOffset a.toNat := by
    by_contra hn
    rw [target_eq_none.mpr hn] at h
    cases h
  obtain ⟨tg', ho, hv⟩ := exists_target hm a.isLt
  rw [target_offsetOf ho hv] at h
  cases h
  exact ⟨ho, hv⟩

/-- Operand storage is what lies outside 0x0000 to 0x004F (20_memory.md R50, R55). -/
theorem isOperandStorage_iff {tg : Target} (h : validTarget tg) : isOperandStorage tg = true ↔ 0x0050 ≤ offsetOf tg := by
  cases tg <;> simp only [isOperandStorage, offsetOf, validTarget] at h ⊢ <;> first | omega | simp_all <;> omega

theorem isBlocked_idle {s : State} (h : s.eng = .idle) (tg : Target) : isBlocked s tg = false := by
  simp [isBlocked, busyFlag, h]

theorem isBlocked_busy {s : State} (h : s.eng = .busy) (tg : Target) : isBlocked s tg = isOperandStorage tg := by
  simp [isBlocked, busyFlag, h]

/-! ### What a transaction does once its target is known -/

theorem busStep_unmapped {s : State} {a : BitVec 16} (hr : s.rstN = true) (h : target a = none) (v : Word) :
    busStep (.read a) s = respond .slverr (some 0#32) s ∧ busStep (.write a v) s = respond .slverr none s := by
  simp [busStep, hr, busAccess, h]

theorem busStep_blocked {s : State} {a : BitVec 16} {tg : Target} (hr : s.rstN = true) (h : target a = some tg)
    (hb : isBlocked s tg = true) (v : Word) :
    busStep (.read a) s = respond .okay (some 0#32) { s with accerr := true } ∧
    busStep (.write a v) s = respond .okay none { s with accerr := true } := by
  simp only [busStep, hr, busAccess, h, hb, if_true, and_self]

theorem busStep_open {s : State} {a : BitVec 16} {tg : Target} (hr : s.rstN = true) (h : target a = some tg)
    (hb : isBlocked s tg = false) (v : Word) :
    busStep (.read a) s = respond .okay (some (readTarget s tg)) s ∧
    busStep (.write a v) s = respond .okay none (writeTarget v s tg) := by
  simp only [busStep, hr, busAccess, h, hb, Bool.false_eq_true, if_false, and_self]

theorem busStep_inReset {s : State} (hr : s.rstN = false) (t : Txn) : busStep t s = { s with busOut := none } := by
  simp only [busStep, hr]

/-- Everything a transaction can do: it writes a target it reaches, or it changes the response and at most ACCERR. -/
theorem busStep_cases (t : Txn) (s : State) :
    (∃ b acc, busStep t s = { s with busOut := b, accerr := acc }) ∨
    (s.rstN = true ∧ ∃ a v tg, t = .write a v ∧ target a = some tg ∧ isBlocked s tg = false ∧
      busStep t s = respond .okay none (writeTarget v s tg)) := by
  rcases (Bool.eq_false_or_eq_true s.rstN).symm with hr | hr
  · exact .inl ⟨none, s.accerr, by rw [busStep_inReset hr]⟩
  cases t with
  | read a =>
    cases ht : target a with
    | none => exact .inl ⟨_, s.accerr, (busStep_unmapped hr ht 0).1⟩
    | some tg =>
      cases hb : isBlocked s tg with
      | true => exact .inl ⟨_, true, (busStep_blocked hr ht hb 0).1⟩
      | false => exact .inl ⟨_, s.accerr, (busStep_open hr ht hb 0).1⟩
  | write a v =>
    cases ht : target a with
    | none => exact .inl ⟨_, s.accerr, (busStep_unmapped hr ht v).2⟩
    | some tg =>
      cases hb : isBlocked s tg with
      | true => exact .inl ⟨_, true, (busStep_blocked hr ht hb v).2⟩
      | false => exact .inr ⟨hr, a, v, tg, rfl, ht, hb, (busStep_open hr ht hb v).2⟩

end Sys2Proof.Machine
end

