-- ==== Sys2Proof/Laws/Decode.lean ====
section
/-! SUPPORT. The decoder's and the encoder's laws: the fields of a word and the word of its fields, and no two opcodes
with one code (30_encoding.md R67, R69). -/

namespace Sys2Proof

theorem splitWord_joinFields (f : CmdFields) : splitWord (joinFields f) = f := by
  obtain ⟨opc, rd, ra, rb, rsvLo, k, rsvHi⟩ := f
  simp only [splitWord, joinFields, CmdFields.mk.injEq]
  refine ⟨?_, ?_, ?_, ?_, ?_, ?_, ?_⟩ <;>
    (ext i hi
     simp only [BitVec.getElem_extractLsb', BitVec.getLsbD_append]
     interval_cases i <;> simp [BitVec.getLsbD_eq_getElem])

theorem joinFields_splitWord (w : Word) : joinFields (splitWord w) = w := by
  apply BitVec.eq_of_getLsbD_eq
  intro i hi
  simp only [joinFields, splitWord, BitVec.getLsbD_append, BitVec.getLsbD_extractLsb']
  interval_cases i <;> simp

/-- No two opcodes have one code. -/
theorem opcode_injective : ∀ a b : Op, opcode a = opcode b → a = b := by
  intro a b
  cases a <;> cases b <;> decide

@[simp] theorem opOf_opcode (op : Op) : opOf (opcode op) = some op := by
  cases op <;> decide

theorem opOf_eq_some {c : BitVec 8} {op : Op} : opOf c = some op ↔ c = opcode op := by
  constructor
  · intro h
    have := List.find?_some h
    simpa [eq_comm] using this
  · rintro rfl
    exact opOf_opcode op

/-- When fields pass every check of 30_encoding.md R68. -/
theorem check_eq_none {u : Uses} {f : CmdFields} :
    f.check (some u) = none ↔
      f.rsvLo = 0#4 ∧ f.rsvHi = 0#7 ∧ (u.rd = false → f.rd = 0#4) ∧ (u.ra = false → f.ra = 0#4) ∧
        (u.rb = false → f.rb = 0#4) ∧ (u.k = false → f.k = 0#1) := by
  simp only [CmdFields.check]
  constructor
  · intro h
    (repeat' split at h) <;> simp_all
  · rintro ⟨h1, h2, h3, h4, h5, h6⟩
    rw [if_neg (by simp [h1, h2]), if_neg (by simpa using h3), if_neg (by simpa using h4), if_neg (by simpa using h5),
      if_neg (by simpa using h6)]

/-- When a word decodes, and to which command. -/
theorem decode_eq_ok {w : Word} {i : Instr} :
    decode w = .ok i ↔
      ∃ op, opOf (splitWord w).opc = some op ∧ (splitWord w).check (some (usesOf op)) = none ∧
        i = buildInstr op (splitWord w) := by
  simp only [decode]
  constructor
  · intro h
    split at h
    · cases h
    · rename_i op hop
      split at h
      · cases h
      · rename_i hc
        exact ⟨op, hop, hc, by simpa using h.symm⟩
  · rintro ⟨op, h1, h2, rfl⟩
    simp only [h1, h2]

@[simp] theorem regOf_regField (r : Reg) : regOf (regField r) = r := rfl

@[simp] theorem regField_regOf (b : BitVec 4) : regField (regOf b) = b := rfl

end Sys2Proof
end

