-- ==== Sys2Proof/Laws/Draw.lean ====
section
/-! SUPPORT. What a draw of entropy can do, and Draw.Field as the list of its accepted draws. -/

namespace Sys2Proof.Machine

open Sys2Proof.Safety

theorem drawBits_cases (n : Nat) (as : List Answer) :
    (as = [] ∧ drawBits n as = .pending n) ∨ (∃ rest, as = .fail :: rest ∧ drawBits n as = .failed) ∨
    (∃ d rest, as = .bits d :: rest ∧ drawBits n as = .got (d.toNat % 2 ^ n) rest) := by
  match as with
  | [] => exact .inl ⟨rfl, rfl⟩
  | .fail :: rest => exact .inr (.inl ⟨rest, rfl, rfl⟩)
  | .bits d :: rest => exact .inr (.inr ⟨d, rest, rfl, rfl⟩)

/-- Draw.Field on some answers is their first accepted draw, FAIL, or a wait for 127 bits. -/
theorem drawField_eq (as : List Answer) :
    (fieldDraws as = [] ∧ drawField as = .pending 127) ∨
    (∃ rest, fieldDraws as = none :: fieldDraws rest ∧ drawField as = .failed) ∨
    (∃ v rest, fieldDraws as = some v :: fieldDraws rest ∧ 1 ≤ v ∧ v < Config.P ∧ drawField as = .got v rest) := by
  induction as with
  | nil => exact .inl ⟨rfl, rfl⟩
  | cons a rest ih =>
    match a with
    | .fail => exact .inr (.inl ⟨rest, rfl, rfl⟩)
    | .bits d =>
      have hlt : d.toNat % 2 ^ 127 < 2 ^ 127 := Nat.mod_lt _ (by norm_num)
      by_cases h : d.toNat % 2 ^ 127 = 0 ∨ d.toNat % 2 ^ 127 = Config.P
      · have hf : fieldDraws (.bits d :: rest) = fieldDraws rest := by
          rw [fieldDraws, if_pos h]
        have hd : drawField (.bits d :: rest) = drawField rest := by
          rw [drawField]
          exact if_neg (by omega)
        rw [hf, hd]
        exact ih
      · have hf : fieldDraws (.bits d :: rest) = some (d.toNat % 2 ^ 127) :: fieldDraws rest := by
          rw [fieldDraws, if_neg h]
        have hin : 1 ≤ d.toNat % 2 ^ 127 ∧ d.toNat % 2 ^ 127 < Config.P := by
          have : Config.P = 2 ^ 127 - 1 := rfl
          omega
        refine .inr (.inr ⟨_, rest, hf, hin.1, hin.2, ?_⟩)
        rw [drawField]
        exact if_pos hin

/-- `n` draws of Draw.Field: the first `n` outcomes, when none of them is FAIL. -/
theorem drawFields_got (n : Nat) (as : List Answer) (cs : List Nat) (hn : cs.length = n)
    (h : (fieldDraws as).take n = cs.map some) :
    (∃ rest, drawFields n as = .got cs rest) ∧ ∀ v ∈ cs, 1 ≤ v ∧ v < Config.P := by
  induction n generalizing as cs with
  | zero =>
    rw [List.length_eq_zero_iff] at hn
    subst hn
    exact ⟨⟨as, rfl⟩, by simp⟩
  | succ n ih =>
    match cs, hn with
    | c :: cs, hn =>
      rcases drawField_eq as with ⟨hf, -⟩ | ⟨rest, hf, -⟩ | ⟨v, rest, hf, h1, h2, hd⟩
      · simp [hf] at h
      · simp [hf] at h
      · rw [hf] at h
        simp only [List.take_succ_cons, List.map_cons, List.cons.injEq, Option.some.injEq] at h
        obtain ⟨rfl, h⟩ := h
        obtain ⟨⟨rest', hg⟩, hall⟩ := ih rest cs (by simpa using hn) h
        refine ⟨⟨rest', ?_⟩, ?_⟩
        · simp [drawFields, hd, hg]
        · intro w hw
          rcases List.mem_cons.mp hw with rfl | hw
          · exact ⟨h1, h2⟩
          · exact hall w hw

/-- `n` draws of Draw.Field fail at the first FAIL among them. -/
theorem drawFields_failed (n : Nat) (as : List Answer) (cs : List Nat) (hn : cs.length < n)
    (h : (fieldDraws as).take (cs.length + 1) = cs.map some ++ [none]) : drawFields n as = .failed := by
  induction cs generalizing n as with
  | nil =>
    obtain ⟨m, rfl⟩ : ∃ m, n = m + 1 := ⟨n - 1, by simp at hn; omega⟩
    rcases drawField_eq as with ⟨hf, -⟩ | ⟨rest, hf, hd⟩ | ⟨v, rest, hf, -, -, -⟩
    · simp [hf] at h
    · simp [drawFields, hd]
    · simp [hf] at h
  | cons c cs ih =>
    obtain ⟨m, rfl⟩ : ∃ m, n = m + 1 := ⟨n - 1, by simp at hn; omega⟩
    rcases drawField_eq as with ⟨hf, -⟩ | ⟨rest, hf, -⟩ | ⟨v, rest, hf, -, -, hd⟩
    · simp [hf] at h
    · simp [hf] at h
    · rw [hf] at h
      simp only [List.length_cons, List.take_succ_cons, List.map_cons, List.cons_append, List.cons.injEq] at h
      have := ih m rest (by simpa using hn) h.2
      simp [drawFields, hd, this]

/-- `n` draws of Draw.Field wait when fewer than `n` have been answered and none was FAIL. -/
theorem drawFields_pending (n : Nat) (as : List Answer) (cs : List Nat) (hn : cs.length < n)
    (h : fieldDraws as = cs.map some) : drawFields n as = .pending 127 := by
  induction cs generalizing n as with
  | nil =>
    obtain ⟨m, rfl⟩ : ∃ m, n = m + 1 := ⟨n - 1, by simp at hn; omega⟩
    rcases drawField_eq as with ⟨-, hd⟩ | ⟨rest, hf, -⟩ | ⟨v, rest, hf, -, -, -⟩
    · simp [drawFields, hd]
    · simp [hf] at h
    · simp [hf] at h
  | cons c cs ih =>
    obtain ⟨m, rfl⟩ : ∃ m, n = m + 1 := ⟨n - 1, by simp at hn; omega⟩
    rcases drawField_eq as with ⟨hf, -⟩ | ⟨rest, hf, -⟩ | ⟨v, rest, hf, -, -, hd⟩
    · simp [hf] at h
    · simp [hf] at h
    · rw [hf] at h
      simp only [List.map_cons, List.cons.injEq] at h
      have := ih m rest (by simpa using hn) h.2
      simp [drawFields, hd, this]

/-- What the draws of SPLIT can do: enough accepted values, each in [1, P); FAIL; or a wait for 127 bits, which zero
draws never do. -/
theorem drawFields_cases (n : Nat) (as : List Answer) :
    (∃ cs rest, drawFields n as = .got cs rest ∧ cs.length = n ∧ ∀ v ∈ cs, 1 ≤ v ∧ v < Config.P) ∨
    drawFields n as = .failed ∨ (drawFields n as = .pending 127 ∧ 1 ≤ n) := by
  induction n generalizing as with
  | zero => exact .inl ⟨[], as, rfl, rfl, by simp⟩
  | succ n ih =>
    rcases drawField_eq as with ⟨-, hd⟩ | ⟨rest, -, hd⟩ | ⟨v, rest, -, h1, h2, hd⟩
    · exact .inr (.inr ⟨by simp [drawFields, hd], by omega⟩)
    · exact .inr (.inl (by simp [drawFields, hd]))
    · rcases ih rest with ⟨cs, rest', hg, hl, hall⟩ | hf | ⟨hp, -⟩
      · refine .inl ⟨v :: cs, rest', by simp [drawFields, hd, hg], by simp [hl], ?_⟩
        intro w hw
        rcases List.mem_cons.mp hw with rfl | hw
        · exact ⟨h1, h2⟩
        · exact hall w hw
      · exact .inr (.inl (by simp [drawFields, hd, hf]))
      · exact .inr (.inr ⟨by simp [drawFields, hd, hp], by omega⟩)

end Sys2Proof.Machine
end

