-- ==== Sys2Proof/Laws/State.lean ====
section
/-! SUPPORT. What each update of the state does to each field: one lemma per field per update, so that no later proof
unfolds a record update. -/

namespace Sys2Proof.Machine

/-! ### writeW -/

@[simp] theorem writeW_ie (s : State) (r : Reg) (v : U256) : (writeW s r v).ie = s.ie := rfl
@[simp] theorem writeW_eng (s : State) (r : Reg) (v : U256) : (writeW s r v).eng = s.eng := rfl
@[simp] theorem writeW_done (s : State) (r : Reg) (v : U256) : (writeW s r v).done = s.done := rfl
@[simp] theorem writeW_dictValid (s : State) (r : Reg) (v : U256) : (writeW s r v).dictValid = s.dictValid := rfl
@[simp] theorem writeW_ovr (s : State) (r : Reg) (v : U256) : (writeW s r v).ovr = s.ovr := rfl
@[simp] theorem writeW_accerr (s : State) (r : Reg) (v : U256) : (writeW s r v).accerr = s.accerr := rfl
@[simp] theorem writeW_errcode (s : State) (r : Reg) (v : U256) : (writeW s r v).errcode = s.errcode := rfl
@[simp] theorem writeW_arg0 (s : State) (r : Reg) (v : U256) : (writeW s r v).arg0 = s.arg0 := rfl
@[simp] theorem writeW_arg1 (s : State) (r : Reg) (v : U256) : (writeW s r v).arg1 = s.arg1 := rfl
@[simp] theorem writeW_arg2 (s : State) (r : Reg) (v : U256) : (writeW s r v).arg2 = s.arg2 := rfl
@[simp] theorem writeW_res0 (s : State) (r : Reg) (v : U256) : (writeW s r v).res0 = s.res0 := rfl
@[simp] theorem writeW_errcmd (s : State) (r : Reg) (v : U256) : (writeW s r v).errcmd = s.errcmd := rfl
@[simp] theorem writeW_cmdl (s : State) (r : Reg) (v : U256) : (writeW s r v).cmdl = s.cmdl := rfl
@[simp] theorem writeW_argl0 (s : State) (r : Reg) (v : U256) : (writeW s r v).argl0 = s.argl0 := rfl
@[simp] theorem writeW_argl1 (s : State) (r : Reg) (v : U256) : (writeW s r v).argl1 = s.argl1 := rfl
@[simp] theorem writeW_argl2 (s : State) (r : Reg) (v : U256) : (writeW s r v).argl2 = s.argl2 := rfl
@[simp] theorem writeW_w (s : State) (r : Reg) (v : U256) : (writeW s r v).w = s.w.set r.val v r.isLt := rfl
@[simp] theorem writeW_coef (s : State) (r : Reg) (v : U256) : (writeW s r v).coef = s.coef := rfl
@[simp] theorem writeW_shx (s : State) (r : Reg) (v : U256) : (writeW s r v).shx = s.shx := rfl
@[simp] theorem writeW_shy (s : State) (r : Reg) (v : U256) : (writeW s r v).shy = s.shy := rfl
@[simp] theorem writeW_idx (s : State) (r : Reg) (v : U256) : (writeW s r v).idx = s.idx := rfl
@[simp] theorem writeW_mem (s : State) (r : Reg) (v : U256) : (writeW s r v).mem = s.mem := rfl
@[simp] theorem writeW_answers (s : State) (r : Reg) (v : U256) : (writeW s r v).answers = s.answers := rfl
@[simp] theorem writeW_rstN (s : State) (r : Reg) (v : U256) : (writeW s r v).rstN = s.rstN := rfl
@[simp] theorem writeW_busOut (s : State) (r : Reg) (v : U256) : (writeW s r v).busOut = s.busOut := rfl
@[simp] theorem writeW_inputs (s : State) (r : Reg) (v : U256) : (writeW s r v).inputs = s.inputs := rfl

/-! ### writeRes0 -/

@[simp] theorem writeRes0_ie (s : State) (v : Nat) : (writeRes0 s v).ie = s.ie := rfl
@[simp] theorem writeRes0_eng (s : State) (v : Nat) : (writeRes0 s v).eng = s.eng := rfl
@[simp] theorem writeRes0_done (s : State) (v : Nat) : (writeRes0 s v).done = s.done := rfl
@[simp] theorem writeRes0_dictValid (s : State) (v : Nat) : (writeRes0 s v).dictValid = s.dictValid := rfl
@[simp] theorem writeRes0_ovr (s : State) (v : Nat) : (writeRes0 s v).ovr = s.ovr := rfl
@[simp] theorem writeRes0_accerr (s : State) (v : Nat) : (writeRes0 s v).accerr = s.accerr := rfl
@[simp] theorem writeRes0_errcode (s : State) (v : Nat) : (writeRes0 s v).errcode = s.errcode := rfl
@[simp] theorem writeRes0_arg0 (s : State) (v : Nat) : (writeRes0 s v).arg0 = s.arg0 := rfl
@[simp] theorem writeRes0_arg1 (s : State) (v : Nat) : (writeRes0 s v).arg1 = s.arg1 := rfl
@[simp] theorem writeRes0_arg2 (s : State) (v : Nat) : (writeRes0 s v).arg2 = s.arg2 := rfl
@[simp] theorem writeRes0_res0 (s : State) (v : Nat) : (writeRes0 s v).res0 = BitVec.ofNat 32 v := rfl
@[simp] theorem writeRes0_errcmd (s : State) (v : Nat) : (writeRes0 s v).errcmd = s.errcmd := rfl
@[simp] theorem writeRes0_cmdl (s : State) (v : Nat) : (writeRes0 s v).cmdl = s.cmdl := rfl
@[simp] theorem writeRes0_argl0 (s : State) (v : Nat) : (writeRes0 s v).argl0 = s.argl0 := rfl
@[simp] theorem writeRes0_argl1 (s : State) (v : Nat) : (writeRes0 s v).argl1 = s.argl1 := rfl
@[simp] theorem writeRes0_argl2 (s : State) (v : Nat) : (writeRes0 s v).argl2 = s.argl2 := rfl
@[simp] theorem writeRes0_w (s : State) (v : Nat) : (writeRes0 s v).w = s.w := rfl
@[simp] theorem writeRes0_coef (s : State) (v : Nat) : (writeRes0 s v).coef = s.coef := rfl
@[simp] theorem writeRes0_shx (s : State) (v : Nat) : (writeRes0 s v).shx = s.shx := rfl
@[simp] theorem writeRes0_shy (s : State) (v : Nat) : (writeRes0 s v).shy = s.shy := rfl
@[simp] theorem writeRes0_idx (s : State) (v : Nat) : (writeRes0 s v).idx = s.idx := rfl
@[simp] theorem writeRes0_mem (s : State) (v : Nat) : (writeRes0 s v).mem = s.mem := rfl
@[simp] theorem writeRes0_answers (s : State) (v : Nat) : (writeRes0 s v).answers = s.answers := rfl
@[simp] theorem writeRes0_rstN (s : State) (v : Nat) : (writeRes0 s v).rstN = s.rstN := rfl
@[simp] theorem writeRes0_busOut (s : State) (v : Nat) : (writeRes0 s v).busOut = s.busOut := rfl
@[simp] theorem writeRes0_inputs (s : State) (v : Nat) : (writeRes0 s v).inputs = s.inputs := rfl

/-! ### writeIdx -/

@[simp] theorem writeIdx_ie (s : State) (i : Nat) (v : BitVec 11) : (writeIdx s i v).ie = s.ie := rfl
@[simp] theorem writeIdx_eng (s : State) (i : Nat) (v : BitVec 11) : (writeIdx s i v).eng = s.eng := rfl
@[simp] theorem writeIdx_done (s : State) (i : Nat) (v : BitVec 11) : (writeIdx s i v).done = s.done := rfl
@[simp] theorem writeIdx_dictValid (s : State) (i : Nat) (v : BitVec 11) : (writeIdx s i v).dictValid = s.dictValid := rfl
@[simp] theorem writeIdx_ovr (s : State) (i : Nat) (v : BitVec 11) : (writeIdx s i v).ovr = s.ovr := rfl
@[simp] theorem writeIdx_accerr (s : State) (i : Nat) (v : BitVec 11) : (writeIdx s i v).accerr = s.accerr := rfl
@[simp] theorem writeIdx_errcode (s : State) (i : Nat) (v : BitVec 11) : (writeIdx s i v).errcode = s.errcode := rfl
@[simp] theorem writeIdx_arg0 (s : State) (i : Nat) (v : BitVec 11) : (writeIdx s i v).arg0 = s.arg0 := rfl
@[simp] theorem writeIdx_arg1 (s : State) (i : Nat) (v : BitVec 11) : (writeIdx s i v).arg1 = s.arg1 := rfl
@[simp] theorem writeIdx_arg2 (s : State) (i : Nat) (v : BitVec 11) : (writeIdx s i v).arg2 = s.arg2 := rfl
@[simp] theorem writeIdx_res0 (s : State) (i : Nat) (v : BitVec 11) : (writeIdx s i v).res0 = s.res0 := rfl
@[simp] theorem writeIdx_errcmd (s : State) (i : Nat) (v : BitVec 11) : (writeIdx s i v).errcmd = s.errcmd := rfl
@[simp] theorem writeIdx_cmdl (s : State) (i : Nat) (v : BitVec 11) : (writeIdx s i v).cmdl = s.cmdl := rfl
@[simp] theorem writeIdx_argl0 (s : State) (i : Nat) (v : BitVec 11) : (writeIdx s i v).argl0 = s.argl0 := rfl
@[simp] theorem writeIdx_argl1 (s : State) (i : Nat) (v : BitVec 11) : (writeIdx s i v).argl1 = s.argl1 := rfl
@[simp] theorem writeIdx_argl2 (s : State) (i : Nat) (v : BitVec 11) : (writeIdx s i v).argl2 = s.argl2 := rfl
@[simp] theorem writeIdx_w (s : State) (i : Nat) (v : BitVec 11) : (writeIdx s i v).w = s.w := rfl
@[simp] theorem writeIdx_coef (s : State) (i : Nat) (v : BitVec 11) : (writeIdx s i v).coef = s.coef := rfl
@[simp] theorem writeIdx_shx (s : State) (i : Nat) (v : BitVec 11) : (writeIdx s i v).shx = s.shx := rfl
@[simp] theorem writeIdx_shy (s : State) (i : Nat) (v : BitVec 11) : (writeIdx s i v).shy = s.shy := rfl
@[simp] theorem writeIdx_idx (s : State) (i : Nat) (v : BitVec 11) : (writeIdx s i v).idx = s.idx.setIfInBounds i v := rfl
@[simp] theorem writeIdx_mem (s : State) (i : Nat) (v : BitVec 11) : (writeIdx s i v).mem = s.mem := rfl
@[simp] theorem writeIdx_answers (s : State) (i : Nat) (v : BitVec 11) : (writeIdx s i v).answers = s.answers := rfl
@[simp] theorem writeIdx_rstN (s : State) (i : Nat) (v : BitVec 11) : (writeIdx s i v).rstN = s.rstN := rfl
@[simp] theorem writeIdx_busOut (s : State) (i : Nat) (v : BitVec 11) : (writeIdx s i v).busOut = s.busOut := rfl
@[simp] theorem writeIdx_inputs (s : State) (i : Nat) (v : BitVec 11) : (writeIdx s i v).inputs = s.inputs := rfl

/-! ### bufWrite -/

@[simp] theorem bufWrite_ie (s : State) (a : Nat) (bs : List Byte) : (bufWrite s a bs).ie = s.ie := rfl
@[simp] theorem bufWrite_eng (s : State) (a : Nat) (bs : List Byte) : (bufWrite s a bs).eng = s.eng := rfl
@[simp] theorem bufWrite_done (s : State) (a : Nat) (bs : List Byte) : (bufWrite s a bs).done = s.done := rfl
@[simp] theorem bufWrite_dictValid (s : State) (a : Nat) (bs : List Byte) : (bufWrite s a bs).dictValid = s.dictValid := rfl
@[simp] theorem bufWrite_ovr (s : State) (a : Nat) (bs : List Byte) : (bufWrite s a bs).ovr = s.ovr := rfl
@[simp] theorem bufWrite_accerr (s : State) (a : Nat) (bs : List Byte) : (bufWrite s a bs).accerr = s.accerr := rfl
@[simp] theorem bufWrite_errcode (s : State) (a : Nat) (bs : List Byte) : (bufWrite s a bs).errcode = s.errcode := rfl
@[simp] theorem bufWrite_arg0 (s : State) (a : Nat) (bs : List Byte) : (bufWrite s a bs).arg0 = s.arg0 := rfl
@[simp] theorem bufWrite_arg1 (s : State) (a : Nat) (bs : List Byte) : (bufWrite s a bs).arg1 = s.arg1 := rfl
@[simp] theorem bufWrite_arg2 (s : State) (a : Nat) (bs : List Byte) : (bufWrite s a bs).arg2 = s.arg2 := rfl
@[simp] theorem bufWrite_res0 (s : State) (a : Nat) (bs : List Byte) : (bufWrite s a bs).res0 = s.res0 := rfl
@[simp] theorem bufWrite_errcmd (s : State) (a : Nat) (bs : List Byte) : (bufWrite s a bs).errcmd = s.errcmd := rfl
@[simp] theorem bufWrite_cmdl (s : State) (a : Nat) (bs : List Byte) : (bufWrite s a bs).cmdl = s.cmdl := rfl
@[simp] theorem bufWrite_argl0 (s : State) (a : Nat) (bs : List Byte) : (bufWrite s a bs).argl0 = s.argl0 := rfl
@[simp] theorem bufWrite_argl1 (s : State) (a : Nat) (bs : List Byte) : (bufWrite s a bs).argl1 = s.argl1 := rfl
@[simp] theorem bufWrite_argl2 (s : State) (a : Nat) (bs : List Byte) : (bufWrite s a bs).argl2 = s.argl2 := rfl
@[simp] theorem bufWrite_w (s : State) (a : Nat) (bs : List Byte) : (bufWrite s a bs).w = s.w := rfl
@[simp] theorem bufWrite_coef (s : State) (a : Nat) (bs : List Byte) : (bufWrite s a bs).coef = s.coef := rfl
@[simp] theorem bufWrite_shx (s : State) (a : Nat) (bs : List Byte) : (bufWrite s a bs).shx = s.shx := rfl
@[simp] theorem bufWrite_shy (s : State) (a : Nat) (bs : List Byte) : (bufWrite s a bs).shy = s.shy := rfl
@[simp] theorem bufWrite_idx (s : State) (a : Nat) (bs : List Byte) : (bufWrite s a bs).idx = s.idx := rfl
@[simp] theorem bufWrite_mem (s : State) (a : Nat) (bs : List Byte) : (bufWrite s a bs).mem = memWriteBytes s.mem (Config.bufBase + a) bs := rfl
@[simp] theorem bufWrite_answers (s : State) (a : Nat) (bs : List Byte) : (bufWrite s a bs).answers = s.answers := rfl
@[simp] theorem bufWrite_rstN (s : State) (a : Nat) (bs : List Byte) : (bufWrite s a bs).rstN = s.rstN := rfl
@[simp] theorem bufWrite_busOut (s : State) (a : Nat) (bs : List Byte) : (bufWrite s a bs).busOut = s.busOut := rfl
@[simp] theorem bufWrite_inputs (s : State) (a : Nat) (bs : List Byte) : (bufWrite s a bs).inputs = s.inputs := rfl

/-! ### raiseError -/

@[simp] theorem raiseError_ie (c : ErrCode) (s : State) : (raiseError c s).ie = s.ie := rfl
@[simp] theorem raiseError_eng (c : ErrCode) (s : State) : (raiseError c s).eng = .idle := rfl
@[simp] theorem raiseError_done (c : ErrCode) (s : State) : (raiseError c s).done = true := rfl
@[simp] theorem raiseError_dictValid (c : ErrCode) (s : State) : (raiseError c s).dictValid = s.dictValid := rfl
@[simp] theorem raiseError_ovr (c : ErrCode) (s : State) : (raiseError c s).ovr = s.ovr := rfl
@[simp] theorem raiseError_accerr (c : ErrCode) (s : State) : (raiseError c s).accerr = s.accerr := rfl
@[simp] theorem raiseError_errcode (c : ErrCode) (s : State) : (raiseError c s).errcode = c := rfl
@[simp] theorem raiseError_arg0 (c : ErrCode) (s : State) : (raiseError c s).arg0 = s.arg0 := rfl
@[simp] theorem raiseError_arg1 (c : ErrCode) (s : State) : (raiseError c s).arg1 = s.arg1 := rfl
@[simp] theorem raiseError_arg2 (c : ErrCode) (s : State) : (raiseError c s).arg2 = s.arg2 := rfl
@[simp] theorem raiseError_res0 (c : ErrCode) (s : State) : (raiseError c s).res0 = s.res0 := rfl
@[simp] theorem raiseError_errcmd (c : ErrCode) (s : State) : (raiseError c s).errcmd = s.cmdl := rfl
@[simp] theorem raiseError_cmdl (c : ErrCode) (s : State) : (raiseError c s).cmdl = s.cmdl := rfl
@[simp] theorem raiseError_argl0 (c : ErrCode) (s : State) : (raiseError c s).argl0 = s.argl0 := rfl
@[simp] theorem raiseError_argl1 (c : ErrCode) (s : State) : (raiseError c s).argl1 = s.argl1 := rfl
@[simp] theorem raiseError_argl2 (c : ErrCode) (s : State) : (raiseError c s).argl2 = s.argl2 := rfl
@[simp] theorem raiseError_w (c : ErrCode) (s : State) : (raiseError c s).w = s.w := rfl
@[simp] theorem raiseError_coef (c : ErrCode) (s : State) : (raiseError c s).coef = s.coef := rfl
@[simp] theorem raiseError_shx (c : ErrCode) (s : State) : (raiseError c s).shx = s.shx := rfl
@[simp] theorem raiseError_shy (c : ErrCode) (s : State) : (raiseError c s).shy = s.shy := rfl
@[simp] theorem raiseError_idx (c : ErrCode) (s : State) : (raiseError c s).idx = s.idx := rfl
@[simp] theorem raiseError_mem (c : ErrCode) (s : State) : (raiseError c s).mem = s.mem := rfl
@[simp] theorem raiseError_answers (c : ErrCode) (s : State) : (raiseError c s).answers = [] := rfl
@[simp] theorem raiseError_rstN (c : ErrCode) (s : State) : (raiseError c s).rstN = s.rstN := rfl
@[simp] theorem raiseError_busOut (c : ErrCode) (s : State) : (raiseError c s).busOut = s.busOut := rfl
@[simp] theorem raiseError_inputs (c : ErrCode) (s : State) : (raiseError c s).inputs = s.inputs := rfl

/-! ### completeOk -/

@[simp] theorem completeOk_ie (s : State) : (completeOk s).ie = s.ie := rfl
@[simp] theorem completeOk_eng (s : State) : (completeOk s).eng = .idle := rfl
@[simp] theorem completeOk_done (s : State) : (completeOk s).done = true := rfl
@[simp] theorem completeOk_dictValid (s : State) : (completeOk s).dictValid = s.dictValid := rfl
@[simp] theorem completeOk_ovr (s : State) : (completeOk s).ovr = s.ovr := rfl
@[simp] theorem completeOk_accerr (s : State) : (completeOk s).accerr = s.accerr := rfl
@[simp] theorem completeOk_errcode (s : State) : (completeOk s).errcode = .ok := rfl
@[simp] theorem completeOk_arg0 (s : State) : (completeOk s).arg0 = s.arg0 := rfl
@[simp] theorem completeOk_arg1 (s : State) : (completeOk s).arg1 = s.arg1 := rfl
@[simp] theorem completeOk_arg2 (s : State) : (completeOk s).arg2 = s.arg2 := rfl
@[simp] theorem completeOk_res0 (s : State) : (completeOk s).res0 = s.res0 := rfl
@[simp] theorem completeOk_errcmd (s : State) : (completeOk s).errcmd = s.errcmd := rfl
@[simp] theorem completeOk_cmdl (s : State) : (completeOk s).cmdl = s.cmdl := rfl
@[simp] theorem completeOk_argl0 (s : State) : (completeOk s).argl0 = s.argl0 := rfl
@[simp] theorem completeOk_argl1 (s : State) : (completeOk s).argl1 = s.argl1 := rfl
@[simp] theorem completeOk_argl2 (s : State) : (completeOk s).argl2 = s.argl2 := rfl
@[simp] theorem completeOk_w (s : State) : (completeOk s).w = s.w := rfl
@[simp] theorem completeOk_coef (s : State) : (completeOk s).coef = s.coef := rfl
@[simp] theorem completeOk_shx (s : State) : (completeOk s).shx = s.shx := rfl
@[simp] theorem completeOk_shy (s : State) : (completeOk s).shy = s.shy := rfl
@[simp] theorem completeOk_idx (s : State) : (completeOk s).idx = s.idx := rfl
@[simp] theorem completeOk_mem (s : State) : (completeOk s).mem = s.mem := rfl
@[simp] theorem completeOk_answers (s : State) : (completeOk s).answers = [] := rfl
@[simp] theorem completeOk_rstN (s : State) : (completeOk s).rstN = s.rstN := rfl
@[simp] theorem completeOk_busOut (s : State) : (completeOk s).busOut = s.busOut := rfl
@[simp] theorem completeOk_inputs (s : State) : (completeOk s).inputs = s.inputs := rfl

/-! ### acceptCommand -/

@[simp] theorem acceptCommand_ie (c : Word) (s : State) : (acceptCommand c s).ie = s.ie := rfl
@[simp] theorem acceptCommand_eng (c : Word) (s : State) : (acceptCommand c s).eng = .busy := rfl
@[simp] theorem acceptCommand_done (c : Word) (s : State) : (acceptCommand c s).done = false := rfl
@[simp] theorem acceptCommand_dictValid (c : Word) (s : State) : (acceptCommand c s).dictValid = s.dictValid := rfl
@[simp] theorem acceptCommand_ovr (c : Word) (s : State) : (acceptCommand c s).ovr = s.ovr := rfl
@[simp] theorem acceptCommand_accerr (c : Word) (s : State) : (acceptCommand c s).accerr = s.accerr := rfl
@[simp] theorem acceptCommand_errcode (c : Word) (s : State) : (acceptCommand c s).errcode = s.errcode := rfl
@[simp] theorem acceptCommand_arg0 (c : Word) (s : State) : (acceptCommand c s).arg0 = s.arg0 := rfl
@[simp] theorem acceptCommand_arg1 (c : Word) (s : State) : (acceptCommand c s).arg1 = s.arg1 := rfl
@[simp] theorem acceptCommand_arg2 (c : Word) (s : State) : (acceptCommand c s).arg2 = s.arg2 := rfl
@[simp] theorem acceptCommand_res0 (c : Word) (s : State) : (acceptCommand c s).res0 = s.res0 := rfl
@[simp] theorem acceptCommand_errcmd (c : Word) (s : State) : (acceptCommand c s).errcmd = s.errcmd := rfl
@[simp] theorem acceptCommand_cmdl (c : Word) (s : State) : (acceptCommand c s).cmdl = c := rfl
@[simp] theorem acceptCommand_argl0 (c : Word) (s : State) : (acceptCommand c s).argl0 = s.arg0 := rfl
@[simp] theorem acceptCommand_argl1 (c : Word) (s : State) : (acceptCommand c s).argl1 = s.arg1 := rfl
@[simp] theorem acceptCommand_argl2 (c : Word) (s : State) : (acceptCommand c s).argl2 = s.arg2 := rfl
@[simp] theorem acceptCommand_w (c : Word) (s : State) : (acceptCommand c s).w = s.w := rfl
@[simp] theorem acceptCommand_coef (c : Word) (s : State) : (acceptCommand c s).coef = s.coef := rfl
@[simp] theorem acceptCommand_shx (c : Word) (s : State) : (acceptCommand c s).shx = s.shx := rfl
@[simp] theorem acceptCommand_shy (c : Word) (s : State) : (acceptCommand c s).shy = s.shy := rfl
@[simp] theorem acceptCommand_idx (c : Word) (s : State) : (acceptCommand c s).idx = s.idx := rfl
@[simp] theorem acceptCommand_mem (c : Word) (s : State) : (acceptCommand c s).mem = s.mem := rfl
@[simp] theorem acceptCommand_answers (c : Word) (s : State) : (acceptCommand c s).answers = [] := rfl
@[simp] theorem acceptCommand_rstN (c : Word) (s : State) : (acceptCommand c s).rstN = s.rstN := rfl
@[simp] theorem acceptCommand_busOut (c : Word) (s : State) : (acceptCommand c s).busOut = s.busOut := rfl
@[simp] theorem acceptCommand_inputs (c : Word) (s : State) : (acceptCommand c s).inputs = s.inputs := rfl

/-! ### acknowledge -/

@[simp] theorem acknowledge_ie (v : Word) (s : State) : (acknowledge v s).ie = s.ie := rfl
@[simp] theorem acknowledge_eng (v : Word) (s : State) : (acknowledge v s).eng = s.eng := rfl
@[simp] theorem acknowledge_done (v : Word) (s : State) : (acknowledge v s).done = (s.done && !v.getLsbD 1) := rfl
@[simp] theorem acknowledge_dictValid (v : Word) (s : State) : (acknowledge v s).dictValid = s.dictValid := rfl
@[simp] theorem acknowledge_ovr (v : Word) (s : State) : (acknowledge v s).ovr = (s.ovr && !v.getLsbD 4) := rfl
@[simp] theorem acknowledge_accerr (v : Word) (s : State) : (acknowledge v s).accerr = (s.accerr && !v.getLsbD 5) := rfl
@[simp] theorem acknowledge_errcode (v : Word) (s : State) : (acknowledge v s).errcode = s.errcode := rfl
@[simp] theorem acknowledge_arg0 (v : Word) (s : State) : (acknowledge v s).arg0 = s.arg0 := rfl
@[simp] theorem acknowledge_arg1 (v : Word) (s : State) : (acknowledge v s).arg1 = s.arg1 := rfl
@[simp] theorem acknowledge_arg2 (v : Word) (s : State) : (acknowledge v s).arg2 = s.arg2 := rfl
@[simp] theorem acknowledge_res0 (v : Word) (s : State) : (acknowledge v s).res0 = s.res0 := rfl
@[simp] theorem acknowledge_errcmd (v : Word) (s : State) : (acknowledge v s).errcmd = s.errcmd := rfl
@[simp] theorem acknowledge_cmdl (v : Word) (s : State) : (acknowledge v s).cmdl = s.cmdl := rfl
@[simp] theorem acknowledge_argl0 (v : Word) (s : State) : (acknowledge v s).argl0 = s.argl0 := rfl
@[simp] theorem acknowledge_argl1 (v : Word) (s : State) : (acknowledge v s).argl1 = s.argl1 := rfl
@[simp] theorem acknowledge_argl2 (v : Word) (s : State) : (acknowledge v s).argl2 = s.argl2 := rfl
@[simp] theorem acknowledge_w (v : Word) (s : State) : (acknowledge v s).w = s.w := rfl
@[simp] theorem acknowledge_coef (v : Word) (s : State) : (acknowledge v s).coef = s.coef := rfl
@[simp] theorem acknowledge_shx (v : Word) (s : State) : (acknowledge v s).shx = s.shx := rfl
@[simp] theorem acknowledge_shy (v : Word) (s : State) : (acknowledge v s).shy = s.shy := rfl
@[simp] theorem acknowledge_idx (v : Word) (s : State) : (acknowledge v s).idx = s.idx := rfl
@[simp] theorem acknowledge_mem (v : Word) (s : State) : (acknowledge v s).mem = s.mem := rfl
@[simp] theorem acknowledge_answers (v : Word) (s : State) : (acknowledge v s).answers = s.answers := rfl
@[simp] theorem acknowledge_rstN (v : Word) (s : State) : (acknowledge v s).rstN = s.rstN := rfl
@[simp] theorem acknowledge_busOut (v : Word) (s : State) : (acknowledge v s).busOut = s.busOut := rfl
@[simp] theorem acknowledge_inputs (v : Word) (s : State) : (acknowledge v s).inputs = s.inputs := rfl

/-! ### respond -/

@[simp] theorem respond_ie (r : Resp) (d : Option Word) (s : State) : (respond r d s).ie = s.ie := rfl
@[simp] theorem respond_eng (r : Resp) (d : Option Word) (s : State) : (respond r d s).eng = s.eng := rfl
@[simp] theorem respond_done (r : Resp) (d : Option Word) (s : State) : (respond r d s).done = s.done := rfl
@[simp] theorem respond_dictValid (r : Resp) (d : Option Word) (s : State) : (respond r d s).dictValid = s.dictValid := rfl
@[simp] theorem respond_ovr (r : Resp) (d : Option Word) (s : State) : (respond r d s).ovr = s.ovr := rfl
@[simp] theorem respond_accerr (r : Resp) (d : Option Word) (s : State) : (respond r d s).accerr = s.accerr := rfl
@[simp] theorem respond_errcode (r : Resp) (d : Option Word) (s : State) : (respond r d s).errcode = s.errcode := rfl
@[simp] theorem respond_arg0 (r : Resp) (d : Option Word) (s : State) : (respond r d s).arg0 = s.arg0 := rfl
@[simp] theorem respond_arg1 (r : Resp) (d : Option Word) (s : State) : (respond r d s).arg1 = s.arg1 := rfl
@[simp] theorem respond_arg2 (r : Resp) (d : Option Word) (s : State) : (respond r d s).arg2 = s.arg2 := rfl
@[simp] theorem respond_res0 (r : Resp) (d : Option Word) (s : State) : (respond r d s).res0 = s.res0 := rfl
@[simp] theorem respond_errcmd (r : Resp) (d : Option Word) (s : State) : (respond r d s).errcmd = s.errcmd := rfl
@[simp] theorem respond_cmdl (r : Resp) (d : Option Word) (s : State) : (respond r d s).cmdl = s.cmdl := rfl
@[simp] theorem respond_argl0 (r : Resp) (d : Option Word) (s : State) : (respond r d s).argl0 = s.argl0 := rfl
@[simp] theorem respond_argl1 (r : Resp) (d : Option Word) (s : State) : (respond r d s).argl1 = s.argl1 := rfl
@[simp] theorem respond_argl2 (r : Resp) (d : Option Word) (s : State) : (respond r d s).argl2 = s.argl2 := rfl
@[simp] theorem respond_w (r : Resp) (d : Option Word) (s : State) : (respond r d s).w = s.w := rfl
@[simp] theorem respond_coef (r : Resp) (d : Option Word) (s : State) : (respond r d s).coef = s.coef := rfl
@[simp] theorem respond_shx (r : Resp) (d : Option Word) (s : State) : (respond r d s).shx = s.shx := rfl
@[simp] theorem respond_shy (r : Resp) (d : Option Word) (s : State) : (respond r d s).shy = s.shy := rfl
@[simp] theorem respond_idx (r : Resp) (d : Option Word) (s : State) : (respond r d s).idx = s.idx := rfl
@[simp] theorem respond_mem (r : Resp) (d : Option Word) (s : State) : (respond r d s).mem = s.mem := rfl
@[simp] theorem respond_answers (r : Resp) (d : Option Word) (s : State) : (respond r d s).answers = s.answers := rfl
@[simp] theorem respond_rstN (r : Resp) (d : Option Word) (s : State) : (respond r d s).rstN = s.rstN := rfl
@[simp] theorem respond_busOut (r : Resp) (d : Option Word) (s : State) : (respond r d s).busOut = some ⟨r, d⟩ := rfl
@[simp] theorem respond_inputs (r : Resp) (d : Option Word) (s : State) : (respond r d s).inputs = s.inputs := rfl

/-! ### resetUnit -/

@[simp] theorem resetUnit_ie (level : Bool) (s : State) : (resetUnit level s).ie = State.reset.ie := rfl
@[simp] theorem resetUnit_eng (level : Bool) (s : State) : (resetUnit level s).eng = State.reset.eng := rfl
@[simp] theorem resetUnit_done (level : Bool) (s : State) : (resetUnit level s).done = State.reset.done := rfl
@[simp] theorem resetUnit_dictValid (level : Bool) (s : State) : (resetUnit level s).dictValid = State.reset.dictValid := rfl
@[simp] theorem resetUnit_ovr (level : Bool) (s : State) : (resetUnit level s).ovr = State.reset.ovr := rfl
@[simp] theorem resetUnit_accerr (level : Bool) (s : State) : (resetUnit level s).accerr = State.reset.accerr := rfl
@[simp] theorem resetUnit_errcode (level : Bool) (s : State) : (resetUnit level s).errcode = State.reset.errcode := rfl
@[simp] theorem resetUnit_arg0 (level : Bool) (s : State) : (resetUnit level s).arg0 = State.reset.arg0 := rfl
@[simp] theorem resetUnit_arg1 (level : Bool) (s : State) : (resetUnit level s).arg1 = State.reset.arg1 := rfl
@[simp] theorem resetUnit_arg2 (level : Bool) (s : State) : (resetUnit level s).arg2 = State.reset.arg2 := rfl
@[simp] theorem resetUnit_res0 (level : Bool) (s : State) : (resetUnit level s).res0 = State.reset.res0 := rfl
@[simp] theorem resetUnit_errcmd (level : Bool) (s : State) : (resetUnit level s).errcmd = State.reset.errcmd := rfl
@[simp] theorem resetUnit_cmdl (level : Bool) (s : State) : (resetUnit level s).cmdl = State.reset.cmdl := rfl
@[simp] theorem resetUnit_argl0 (level : Bool) (s : State) : (resetUnit level s).argl0 = State.reset.argl0 := rfl
@[simp] theorem resetUnit_argl1 (level : Bool) (s : State) : (resetUnit level s).argl1 = State.reset.argl1 := rfl
@[simp] theorem resetUnit_argl2 (level : Bool) (s : State) : (resetUnit level s).argl2 = State.reset.argl2 := rfl
@[simp] theorem resetUnit_w (level : Bool) (s : State) : (resetUnit level s).w = State.reset.w := rfl
@[simp] theorem resetUnit_coef (level : Bool) (s : State) : (resetUnit level s).coef = State.reset.coef := rfl
@[simp] theorem resetUnit_shx (level : Bool) (s : State) : (resetUnit level s).shx = State.reset.shx := rfl
@[simp] theorem resetUnit_shy (level : Bool) (s : State) : (resetUnit level s).shy = State.reset.shy := rfl
@[simp] theorem resetUnit_idx (level : Bool) (s : State) : (resetUnit level s).idx = State.reset.idx := rfl
@[simp] theorem resetUnit_mem (level : Bool) (s : State) : (resetUnit level s).mem = State.reset.mem := rfl
@[simp] theorem resetUnit_answers (level : Bool) (s : State) : (resetUnit level s).answers = State.reset.answers := rfl
@[simp] theorem resetUnit_rstN (level : Bool) (s : State) : (resetUnit level s).rstN = level := rfl
@[simp] theorem resetUnit_busOut (level : Bool) (s : State) : (resetUnit level s).busOut = State.reset.busOut := rfl
@[simp] theorem resetUnit_inputs (level : Bool) (s : State) : (resetUnit level s).inputs = s.inputs := rfl

end Sys2Proof.Machine
end

