-- ==== Sys2Proof/Laws/Exec.lean ====
section
/-! SUPPORT. What a command can do, said once: it waits, raises one of its codes, or commits a state that differs from the
old one in operand storage, RES0 and (DCHK) DICT_VALID alone. Claims about all commands are derived from
`exec_cases`. -/

namespace Sys2Proof.Machine

open Sys2Proof.Safety

/-- What the completion step of a command does with the end of its pseudocode. -/
theorem complete_cases {s t : State} {r : CmdResult} (h : complete s r = .next t) :
    (∃ n, r = .wait n ∧ t = s) ∨ (∃ c, r = .raise c ∧ t = raiseError c s) ∨
    (∃ u, r = .commit u ∧ t = completeOk u) := by
  cases r with
  | wait n => exact .inl ⟨n, rfl, by simpa [complete] using h.symm⟩
  | raise c => exact .inr (.inl ⟨c, rfl, by simpa [complete] using h.symm⟩)
  | commit u => exact .inr (.inr ⟨u, rfl, by simpa [complete] using h.symm⟩)

theorem complete_eq (s : State) (r : CmdResult) :
    complete s r =
      match r with
      | .wait _ => .next s
      | .raise c => .next (raiseError c s)
      | .commit u => .next (completeOk u) := by
  cases r <;> rfl

theorem raiseError_eq (c : ErrCode) (s : State) : raiseError c s = failedWith c s := rfl

theorem completeOk_eq (s : State) : completeOk s = succeeded s := rfl

/-- A bytewise description of a committed storage: canonical if it was, the same bytes outside BUF, cells only in the
windows if they were. -/
def MemCommit (m m' : Memory) : Prop :=
  (m.wf = true → m'.wf = true) ∧ (∀ a, a < 0x1000 ∨ 0x2000 ≤ a → memRead m' a = memRead m a) ∧
  (inWindows m = true → inWindows m' = true)

theorem MemCommit.refl (m : Memory) : MemCommit m m := ⟨id, fun _ _ => rfl, id⟩

theorem inWindows_cons (c : Host.Cell) (m : Memory) :
    inWindows (c :: m) = ((decide (0x0780 ≤ c.1 ∧ c.1 < 0x0790) || decide (0x1000 ≤ c.1 ∧ c.1 < 0x2000) ||
      decide (0x8000 ≤ c.1 ∧ c.1 < 0x10000)) && inWindows m) := rfl

theorem inWindows_memWrite {m : Memory} (h : inWindows m = true) {a : Nat} (b : Byte)
    (ha : (0x0780 ≤ a ∧ a < 0x0790) ∨ (0x1000 ≤ a ∧ a < 0x2000) ∨ (0x8000 ≤ a ∧ a < 0x10000)) :
    inWindows (memWrite m a b) = true := by
  have hc (b : Byte) (m : Memory) (hm : inWindows m = true) : inWindows ((a, b) :: m) = true := by
    rw [inWindows_cons, hm]
    simpa [or_assoc] using ha
  induction m with
  | nil =>
    unfold memWrite
    split
    · rfl
    · exact hc b [] rfl
  | cons c rest ih =>
    obtain ⟨k, d⟩ := c
    have h' := h
    rw [inWindows_cons, Bool.and_eq_true] at h'
    unfold memWrite
    split
    · split
      · exact h
      · exact hc b _ h
    · split
      · split
        · exact h'.2
        · exact hc b _ h'.2
      · rw [inWindows_cons, Bool.and_eq_true]
        exact ⟨h'.1, ih h'.2⟩

theorem inWindows_memWriteBytes {bs : List Byte} {m : Memory} (h : inWindows m = true) {a : Nat}
    (ha : (0x0780 ≤ a ∧ a + bs.length ≤ 0x0790) ∨ (0x1000 ≤ a ∧ a + bs.length ≤ 0x2000) ∨
      (0x8000 ≤ a ∧ a + bs.length ≤ 0x10000)) : inWindows (memWriteBytes m a bs) = true := by
  induction bs generalizing m a with
  | nil => exact h
  | cons b bs ih =>
    simp only [List.length_cons] at ha
    exact ih (inWindows_memWrite h b (by omega)) (by omega)

theorem memCommit_bufWrite {m : Memory} {a : Nat} {bs : List Byte} (h : a + bs.length ≤ 4096) :
    MemCommit m (memWriteBytes m (Config.bufBase + a) bs) := by
  have hb : Config.bufBase = 0x1000 := rfl
  refine ⟨fun hm => wf_memWriteBytes hm _ _, fun x hx => ?_, fun hm => ?_⟩
  · exact memRead_memWriteBytes_outside (by omega)
  · exact inWindows_memWriteBytes hm (by omega)

/-- ADEC writes as many bytes as its rule says, whatever the primitive opened (44_aead.md R110). -/
@[simp] theorem plaintextBytes_length (key blob pt : List Byte) (n : Nat) :
    (plaintextBytes key blob pt n).length = n := by
  unfold plaintextBytes
  split
  · assumption
  · simp

/-- A plaintext of the length the rule says is written as it is. -/
theorem plaintextBytes_eq {pt : List Byte} {n : Nat} (key blob : List Byte) (h : pt.length = n) :
    plaintextBytes key blob pt n = pt := if_pos h

/-- The end of each command's pseudocode. -/
def commandResult (i : Instr) (s : State) : CmdResult :=
  match i with
  | .nop => .commit s
  | .mov rd ra => .commit (writeW s rd (readW s ra))
  | .fadd rd ra rb => fieldBinary fieldAdd rd ra rb s
  | .fsub rd ra rb => fieldBinary fieldSub rd ra rb s
  | .fmul rd ra rb => fieldBinary fieldMul rd ra rb s
  | .finv rd ra => finvResult rd ra s
  | .rnd256 rd => rnd256Result rd s
  | .rndf rd => rndfResult rd s
  | .menc ra => mencResult ra s
  | .mdec rd => mdecResult rd s
  | .dchk => if dictOk s.mem then .commit { s with dictValid := true } else .raise .formatDict
  | .dfind => dfindResult s
  | .peval rd ra => pevalResult rd ra s
  | .split ra k => splitResult ra k s
  | .recon rd => reconResult rd s
  | .aenc ra => aencResult ra s
  | .adec ra => adecResult ra s

/-- The state a failing command completes on: DCHK has cleared DICT_VALID (42_mnemonic.md R97). -/
def failureBase (i : Instr) (s : State) : State :=
  match i with
  | .dchk => { s with dictValid := false }
  | .nop | .mov _ _ | .fadd _ _ _ | .fsub _ _ _ | .fmul _ _ _ | .finv _ _ | .rnd256 _ | .rndf _ | .menc _ | .mdec _
  | .dfind | .peval _ _ | .split _ _ | .recon _ | .aenc _ | .adec _ => s

/-- A command's completion step from the end of its pseudocode. -/
theorem exec_eq (i : Instr) (s : State) :
    exec i s =
      match commandResult i s with
      | .wait _ => .next s
      | .raise c => .next (raiseError c (failureBase i s))
      | .commit u => .next (completeOk u) := by
  cases i
  case dchk =>
    simp only [exec, execDchk, commandResult, failureBase]
    split <;> rfl
  case nop => rfl
  case mov => rfl
  all_goals exact complete_eq _ _

/-- A command's outstanding request is that of its pseudocode. -/
theorem commandRequest_eq (i : Instr) (s : State) : commandRequest i s = (commandResult i s).request := by
  cases i
  case rnd256 => rfl
  case rndf => rfl
  case split => rfl
  case aenc => rfl
  case nop => rfl
  case mov => rfl
  case dchk =>
    simp only [commandRequest, commandResult]
    split <;> rfl
  case fadd => simp only [commandRequest, commandResult, fieldBinary]; split <;> [rfl; (split <;> rfl)]
  case fsub => simp only [commandRequest, commandResult, fieldBinary]; split <;> [rfl; (split <;> rfl)]
  case fmul => simp only [commandRequest, commandResult, fieldBinary]; split <;> [rfl; (split <;> rfl)]
  case finv => simp only [commandRequest, commandResult, finvResult]; split <;> [rfl; (split <;> rfl)]
  case menc => simp only [commandRequest, commandResult, mencResult]; split <;> rfl
  case mdec => simp only [commandRequest, commandResult, mdecResult]; repeat' (first | split | rfl)
  case dfind => simp only [commandRequest, commandResult, dfindResult]; repeat' (first | split | rfl)
  case peval => simp only [commandRequest, commandResult, pevalResult]; repeat' (first | split | rfl)
  case recon => simp only [commandRequest, commandResult, reconResult]; repeat' (first | split | rfl)
  case adec => simp only [commandRequest, commandResult, adecResult]; repeat' (first | split | rfl)

/-- What a committed state can differ in, and how. -/
structure CommitFrame (i : Instr) (s u : State) : Prop where
  eq : u = { s with w := u.w, coef := u.coef, shx := u.shx, shy := u.shy, idx := u.idx, mem := u.mem, res0 := u.res0,
                    dictValid := u.dictValid }
  mem : MemCommit s.mem u.mem
  dict : u.dictValid = s.dictValid ∨ (i = .dchk ∧ u.dictValid = true ∧ dictOk s.mem = true)

theorem commitFrame_of_mem_eq {i : Instr} {s u : State}
    (eq : u = { s with w := u.w, coef := u.coef, shx := u.shx, shy := u.shy, idx := u.idx, res0 := u.res0 }) :
    CommitFrame i s u := by
  have hm : u.mem = s.mem := by rw [eq]
  have hd : u.dictValid = s.dictValid := by rw [eq]
  exact ⟨by rw [hm, hd]; exact eq, hm ▸ MemCommit.refl _, .inl hd⟩

/-- The three ends of a command's pseudocode. -/
def ResultOk (i : Instr) (s : State) : CmdResult → Prop
  | .wait n =>
    (∃ rd, i = .rnd256 rd ∧ n = 256) ∨ (∃ rd, i = .rndf rd ∧ n = 127) ∨
    (∃ ra, i = .split ra false ∧ 2 ≤ s.argl0.toNat ∧ n = 127) ∨ (∃ ra, i = .aenc ra ∧ n = 96)
  | .raise c => c ∈ raisedBy i ∧ c ≠ .ok
  | .commit u => CommitFrame i s u

theorem resultOk_dchk (s : State) (r : CmdResult) (hr : commandResult .dchk s = r) : ResultOk .dchk s r := by
  unfold commandResult at hr
  dsimp only at hr
  split at hr
  · rename_i h
    subst hr
    exact ⟨rfl, MemCommit.refl _, .inr ⟨rfl, rfl, h⟩⟩
  · subst hr
    exact ⟨by simp [raisedBy], by decide⟩

/-- A command waits only where 70_reset_and_hazards.md R144 says, raises only its codes of 60_exceptions.md R114, and
commits only operand storage, RES0 and DCHK's DICT_VALID. -/
theorem resultOk (i : Instr) (s : State) (r : CmdResult) (hr : commandResult i s = r) : ResultOk i s r := by
  cases i
  case dchk => exact resultOk_dchk s r hr
  all_goals subst hr
  case nop => exact commitFrame_of_mem_eq rfl
  case mov => exact commitFrame_of_mem_eq rfl
  case fadd rd ra rb =>
    simp only [commandResult, fieldBinary]
    split <;> [skip; split] <;> first | exact ⟨by simp [raisedBy], by decide⟩ | exact commitFrame_of_mem_eq rfl
  case fsub rd ra rb =>
    simp only [commandResult, fieldBinary]
    split <;> [skip; split] <;> first | exact ⟨by simp [raisedBy], by decide⟩ | exact commitFrame_of_mem_eq rfl
  case fmul rd ra rb =>
    simp only [commandResult, fieldBinary]
    split <;> [skip; split] <;> first | exact ⟨by simp [raisedBy], by decide⟩ | exact commitFrame_of_mem_eq rfl
  case finv rd ra =>
    simp only [commandResult, finvResult]
    split <;> [skip; split] <;> first | exact ⟨by simp [raisedBy], by decide⟩ | exact commitFrame_of_mem_eq rfl
  case rnd256 rd =>
    simp only [commandResult, rnd256Result]
    rcases drawBits_cases 256 s.answers with ⟨-, h⟩ | ⟨rest, -, h⟩ | ⟨d, rest, -, h⟩ <;> simp only [h, withDraw]
    · exact .inl ⟨rd, rfl, rfl⟩
    · exact ⟨by simp [raisedBy], by decide⟩
    · exact commitFrame_of_mem_eq rfl
  case rndf rd =>
    simp only [commandResult, rndfResult]
    rcases drawField_eq s.answers with ⟨-, h⟩ | ⟨rest, -, h⟩ | ⟨v, rest, -, -, -, h⟩ <;> simp only [h, withDraw]
    · exact .inr (.inl ⟨rd, rfl, rfl⟩)
    · exact ⟨by simp [raisedBy], by decide⟩
    · exact commitFrame_of_mem_eq rfl
  case menc ra =>
    simp only [commandResult, mencResult]
    split
    · exact ⟨by simp [raisedBy], by decide⟩
    · exact commitFrame_of_mem_eq rfl
  case mdec rd =>
    simp only [commandResult, mdecResult]
    split <;> [skip; (split <;> [skip; split])] <;>
      first | exact ⟨by simp [raisedBy], by decide⟩ | exact commitFrame_of_mem_eq rfl
  case dfind =>
    simp only [commandResult, dfindResult]
    split <;> [skip; (split <;> [skip; split])] <;>
      first | exact ⟨by simp [raisedBy], by decide⟩ | exact commitFrame_of_mem_eq rfl
  case peval rd ra =>
    simp only [commandResult, pevalResult]
    split <;> [skip; (split <;> [skip; split])] <;>
      first | exact ⟨by simp [raisedBy], by decide⟩ | exact commitFrame_of_mem_eq rfl
  case split ra k =>
    cases k with
    | true =>
      simp only [commandResult, splitResult]
      split <;> [skip; (split <;> [skip; split])] <;>
        first | exact ⟨by simp [raisedBy], by decide⟩ | exact commitFrame_of_mem_eq rfl
    | false =>
      simp only [commandResult, splitResult]
      split
      · exact ⟨by simp [raisedBy], by decide⟩
      · split
        · exact ⟨by simp [raisedBy], by decide⟩
        · rcases drawFields_cases (argNat0 s - 1) s.answers with ⟨cs, rest, h, -, -⟩ | h | ⟨h, hn⟩ <;>
            simp only [h, withDraw]
          · exact commitFrame_of_mem_eq rfl
          · exact ⟨by simp [raisedBy], by decide⟩
          · refine .inr (.inr (.inl ⟨ra, rfl, ?_, rfl⟩))
            simp only [argNat0] at hn
            omega
  case recon rd =>
    simp only [commandResult, reconResult]
    split <;> [skip; (split <;> [skip; split])] <;>
      first | exact ⟨by simp [raisedBy], by decide⟩ | exact commitFrame_of_mem_eq rfl
  case aenc ra =>
    simp only [commandResult, aencResult]
    split
    · exact ⟨by simp [raisedBy], by decide⟩
    · split
      · exact ⟨by simp [raisedBy], by decide⟩
      · rename_i h1 h2
        rcases drawBits_cases 96 s.answers with ⟨-, h⟩ | ⟨rest, -, h⟩ | ⟨d, rest, -, h⟩ <;> simp only [h, withDraw]
        · exact .inr (.inr (.inr ⟨ra, rfl, rfl⟩))
        · exact ⟨by simp [raisedBy], by decide⟩
        · refine ⟨rfl, memCommit_bufWrite ?_, .inl rfl⟩
          simp only [Config.bufBytes, not_lt] at h2
          simp only [List.length_append, be12_length, Config.aead.sealBytes_length, bufRead, memReadBytes_length]
          omega
  case adec ra =>
    simp only [commandResult, adecResult]
    split
    · exact ⟨by simp [raisedBy], by decide⟩
    · split
      · exact ⟨by simp [raisedBy], by decide⟩
      · split
        · exact ⟨by simp [raisedBy], by decide⟩
        · split
          · exact ⟨by simp [raisedBy], by decide⟩
          · split
            · exact ⟨by simp [raisedBy], by decide⟩
            · rename_i h1 h2 h3 h4 _ pt _
              refine ⟨rfl, memCommit_bufWrite ?_, .inl rfl⟩
              rw [plaintextBytes_length]
              exact not_lt.mp h4

/-- What the engine's turn with a command does: nothing while it waits; ERRCODE, ERRCMD, DONE, BUSY (and DCHK's
DICT_VALID) when it raises; and a committed state when it succeeds. -/
theorem exec_cases (i : Instr) (s : State) :
    (∃ n, commandRequest i s = some n ∧ exec i s = .next s) ∨
    (∃ c, commandRequest i s = none ∧ c ∈ raisedBy i ∧ c ≠ .ok ∧ exec i s = .next (failedWith c (failureBase i s))) ∨
    (∃ u, commandRequest i s = none ∧ CommitFrame i s u ∧ exec i s = .next (succeeded u)) := by
  rw [commandRequest_eq, exec_eq]
  cases hr : commandResult i s with
  | wait n => exact .inl ⟨n, rfl, rfl⟩
  | raise c =>
    have h := resultOk i s _ hr
    exact .inr (.inl ⟨c, rfl, h.1, h.2, rfl⟩)
  | commit u =>
    have h := resultOk i s _ hr
    exact .inr (.inr ⟨u, rfl, h, rfl⟩)

/-! ### The end of a run -/

/-- A run has one end state, reached at one point (70_reset_and_hazards.md R146). -/
theorem runEndsIn_unique {k k' : Nat} {s t t' : State} (h : RunEndsIn k s t) (h' : RunEndsIn k' s t') :
    k = k' ∧ t = t' := by
  obtain hlt | rfl | hlt := Nat.lt_trichotomy k k'
  · exact absurd h.2.1 (h'.2.2 k hlt t h.1)
  · exact ⟨rfl, Host.Outcome.next.inj (h.1.symm.trans h'.1)⟩
  · exact absurd h'.2.1 (h.2.2 k' hlt t' h'.1)

end Sys2Proof.Machine
end

