-- ==== Sys2Proof/Laws/Field.lean ====
section
/-! SUPPORT. The laws of the field operations: P is prime, every result is a field element, and the extended Euclidean
loop ends within its fuel with the inverse (40_field.md R87). -/

namespace Sys2Proof.Machine

theorem prime_P : Nat.Prime Config.P := by
  have h : (mersenne 127).Prime := lucas_lehmer_sufficiency _ (by simp) (by norm_num)
  exact h

theorem P_pos : 0 < Config.P := by decide

theorem P_lt_128 : Config.P < 2 ^ 128 := by decide

theorem P_lt_256 : Config.P < 2 ^ 256 := by decide

theorem isField_iff {v : Nat} : isField v = true ↔ v < Config.P := by simp [isField]

theorem isNonzeroField_iff {v : Nat} : isNonzeroField v = true ↔ 1 ≤ v ∧ v < Config.P := by
  simp [isNonzeroField, isField, Nat.one_le_iff_ne_zero]

theorem fieldAdd_lt (x y : Nat) : fieldAdd x y < Config.P := Nat.mod_lt _ P_pos

theorem fieldSub_lt (x y : Nat) : fieldSub x y < Config.P := Nat.mod_lt _ P_pos

theorem fieldMul_lt (x y : Nat) : fieldMul x y < Config.P := Nat.mod_lt _ P_pos

/-- The natural form of (x − y + P) mod P is the integer form (40_field.md R85). -/
theorem fieldSub_eq_int {x y : Nat} (hy : y < Config.P) :
    fieldSub x y = (((x : Int) - (y : Int) + (Config.P : Int)) % (Config.P : Int)).toNat := by
  have h : ((x : Int) - (y : Int) + (Config.P : Int)) = ((x + Config.P - y : Nat) : Int) := by omega
  rw [h, ← Int.natCast_emod, Int.toNat_natCast, fieldSub]

/-- The loop ends with the inverse when its fuel is at least the base-2 logarithm of r0 · r1: each turn at least
halves that product. -/
theorem euclid_modEq (x : Int) (fuel r0 r1 : Nat) (t0 t1 : Int) (hlt : r1 < r0) (hfuel : r0 * r1 < 2 ^ fuel)
    (hco : Nat.Coprime r0 r1) (h0 : t0 * x ≡ r0 [ZMOD Config.P]) (h1 : t1 * x ≡ r1 [ZMOD Config.P]) :
    euclid fuel r0 r1 t0 t1 * x ≡ 1 [ZMOD Config.P] := by
  induction fuel generalizing r0 r1 t0 t1 with
  | zero =>
    have hr1 : r1 = 0 := by
      rcases Nat.eq_zero_or_pos r1 with h | h
      · exact h
      · have := Nat.mul_pos (by omega : 0 < r0) h
        simp at hfuel
        omega
    subst hr1
    have : r0 = 1 := by simpa using hco
    subst this
    simpa [euclid] using h0
  | succ fuel ih =>
    rw [euclid]
    split
    · rename_i hr1
      subst hr1
      have : r0 = 1 := by simpa using hco
      subst this
      simpa using h0
    · rename_i hr1
      have hmod : r0 - r0 / r1 * r1 = r0 % r1 := by
        have := Nat.div_add_mod r0 r1
        rw [Nat.mul_comm] at this
        omega
      rw [hmod]
      have hml : r0 % r1 < r1 := Nat.mod_lt _ (by omega)
      apply ih
      · exact hml
      · have h2 : 2 * (r0 % r1) ≤ r0 := by
          have hq : 1 ≤ r0 / r1 := Nat.div_pos (by omega) (by omega)
          have hd := Nat.div_add_mod r0 r1
          have : r1 * 1 ≤ r1 * (r0 / r1) := Nat.mul_le_mul_left _ hq
          omega
        have h3 : r1 * (2 * (r0 % r1)) ≤ r1 * r0 := Nat.mul_le_mul_left _ h2
        have h4 : r1 * (2 * (r0 % r1)) = 2 * (r1 * (r0 % r1)) := by ring
        have h5 : r1 * r0 = r0 * r1 := Nat.mul_comm _ _
        rw [Nat.pow_succ] at hfuel
        omega
      · rw [Nat.Coprime, Nat.gcd_comm, ← Nat.gcd_rec, Nat.gcd_comm]
        exact hco
      · exact h1
      · have hm : ((r0 % r1 : Nat) : Int) = (r0 : Int) - ((r0 / r1 : Nat) : Int) * (r1 : Int) := by
          have := Nat.div_add_mod r0 r1
          have hz : ((r1 * (r0 / r1) + r0 % r1 : Nat) : Int) = (r0 : Int) := by rw [this]
          push_cast at hz ⊢
          linarith
        rw [hm, sub_mul, mul_assoc]
        exact h0.sub (h1.mul_left _)

/-- The inverse is a field element other than 0, and the product is 1 (40_field.md R87). -/
theorem fieldInv_spec {x : Nat} (hpos : 0 < x) (hlt : x < Config.P) :
    1 ≤ fieldInv x ∧ fieldInv x < Config.P ∧ x * fieldInv x % Config.P = 1 := by
  have hP : (0 : Int) < (Config.P : Int) := by exact_mod_cast P_pos
  have hco : Nat.Coprime Config.P x :=
    (Nat.Prime.coprime_iff_not_dvd prime_P).mpr fun h => by
      have := Nat.le_of_dvd hpos h
      omega
  have hfuel : Config.P * x < 2 ^ 256 := by
    calc Config.P * x ≤ Config.P * Config.P := Nat.mul_le_mul_left _ hlt.le
      _ < 2 ^ 256 := by decide
  have key := euclid_modEq (x : Int) 256 Config.P x 0 1 hlt hfuel hco
    (by simp [Int.ModEq]) (by simp [Int.ModEq])
  have hnn : 0 ≤ euclid 256 Config.P x 0 1 % (Config.P : Int) := Int.emod_nonneg _ hP.ne'
  have hcast : ((fieldInv x : Nat) : Int) = euclid 256 Config.P x 0 1 % (Config.P : Int) := by
    unfold fieldInv
    exact Int.toNat_of_nonneg hnn
  have hlt' : fieldInv x < Config.P := by
    have := Int.emod_lt_of_pos (euclid 256 Config.P x 0 1) hP
    rw [← hcast] at this
    exact_mod_cast this
  have hprod : x * fieldInv x % Config.P = 1 := by
    have h1 : ((x * fieldInv x : Nat) : Int) ≡ 1 [ZMOD Config.P] := by
      push_cast
      rw [hcast, mul_comm]
      exact ((Int.mod_modEq _ _).mul_right _).trans key
    have h2 : x * fieldInv x ≡ 1 [MOD Config.P] := by
      have : ((x * fieldInv x : Nat) : Int) ≡ ((1 : Nat) : Int) [ZMOD Config.P] := by simpa using h1
      exact Int.natCast_modEq_iff.mp this
    have h3 : 1 % Config.P = 1 := by decide
    rw [Nat.ModEq, h3] at h2
    exact h2
  refine ⟨?_, hlt', hprod⟩
  rcases Nat.eq_zero_or_pos (fieldInv x) with h | h
  · rw [h] at hprod
    simp at hprod
  · exact h

/-- In GF(P) the inverse is the field's own. -/
theorem fieldInv_cast {x : Nat} (hpos : 0 < x) (hlt : x < Config.P) :
    ((fieldInv x : Nat) : ZMod Config.P) = ((x : Nat) : ZMod Config.P)⁻¹ := by
  have : Fact (Nat.Prime Config.P) := ⟨prime_P⟩
  have h := (fieldInv_spec hpos hlt).2.2
  have h1 : ((x * fieldInv x : Nat) : ZMod Config.P) = 1 := by
    have : ((x * fieldInv x % Config.P : Nat) : ZMod Config.P) = ((1 : Nat) : ZMod Config.P) := by rw [h]
    simpa using this
  rw [eq_comm, inv_eq_of_mul_eq_one_right]
  simpa using h1

end Sys2Proof.Machine
end

