-- ==== Sys2Proof/Laws/Mnemonic.lean ====
section
/-! SUPPORT. The 264-bit value behind the packing of 42_mnemonic.md R94, as naturals, and unpacking as the inverse of
packing. -/

namespace Sys2Proof.Machine

/-- A digest has 32 bytes (00_scope.md R14). -/
@[simp] theorem hash256_length (msg : List Byte) : (hash256 msg).length = 32 := by
  simp [hash256, shaBytes]

/-- cs(E) is byte 0 of the digest of be32(E) (42_mnemonic.md R93). -/
theorem hash256_zero (e : U256) : (hash256 (be32 e))[0]? = some (checksum e) := by
  have h := hash256_length (be32 e)
  unfold checksum
  cases hd : hash256 (be32 e) with
  | nil => simp [hd] at h
  | cons b bs => rfl

/-- V = E · 2^8 + c. -/
theorem append_toNat (e : U256) (c : Byte) : (e ++ c : BitVec 264).toNat = e.toNat * 2 ^ 8 + c.toNat := by
  have h : (e ++ c).toNat = e.toNat <<< 8 ||| c.toNat := BitVec.toNat_append e c
  rw [h, ← Nat.shiftLeft_add_eq_or_of_lt c.isLt, Nat.shiftLeft_eq]

theorem packIndex_toNat (e : U256) (c : Byte) (i : Nat) :
    (packIndex e c i).toNat = (e.toNat * 2 ^ 8 + c.toNat) / 2 ^ (253 - 11 * i) % 2 ^ 11 := by
  unfold packIndex
  rw [BitVec.extractLsb'_toNat, append_toNat, Nat.shiftRight_eq_div_pow]

/-- Joining the 11-bit groups of a value, the most significant first, gives the value back. -/
theorem foldl_groups (l : List (BitVec 11)) (v n : Nat) (hl : l.length = n) (hv : v < 2 ^ (11 * n))
    (hget : ∀ (i : Nat) (h : i < l.length), (l[i]).toNat = v / 2 ^ (11 * (n - 1 - i)) % 2 ^ 11) (a : Nat) :
    l.foldl (fun acc (i : BitVec 11) => acc * 2 ^ 11 + i.toNat) a = a * 2 ^ (11 * n) + v := by
  induction l generalizing v n a with
  | nil =>
    simp at hl
    subst hl
    simp at hv
    simp [hv]
  | cons b l ih =>
    obtain ⟨m, rfl⟩ : ∃ m, n = m + 1 := ⟨n - 1, by simp at hl; omega⟩
    have h0 := hget 0 (by simp)
    simp at h0
    simp only [List.length_cons, Nat.add_right_cancel_iff] at hl
    have hp : 2 ^ (11 * (m + 1)) = 2048 * 2 ^ (11 * m) := by rw [show 11 * (m + 1) = 11 + 11 * m by ring, Nat.pow_add]
    rw [List.foldl_cons, ih (v % 2 ^ (11 * m)) m hl (Nat.mod_lt _ (by positivity)) ?_ (a * 2 ^ 11 + b.toNat)]
    · have hb : b.toNat = v / 2 ^ (11 * m) := by
        rw [h0, Nat.mod_eq_of_lt]
        rw [Nat.div_lt_iff_lt_mul (by positivity)]
        omega
      have := Nat.div_add_mod v (2 ^ (11 * m))
      rw [hb, hp, Nat.add_mul]
      nlinarith
    · intro i hi
      have := hget (i + 1) (by simpa using hi)
      simp only [List.getElem_cons_succ] at this
      rw [this, show m + 1 - 1 - (i + 1) = m - 1 - i by omega]
      obtain ⟨k, hk⟩ : ∃ k, 11 * m = 11 * (m - 1 - i) + 11 + k := ⟨11 * m - (11 * (m - 1 - i) + 11), by omega⟩
      rw [hk, Nat.pow_add, Nat.pow_add, Nat.mul_assoc, Nat.mod_mul_right_div_self, Nat.mod_mul_right_mod]

/-- Unpacking what was packed gives V. -/
theorem unpackValue_pack (e : U256) (c : Byte) :
    unpackValue (Vector.ofFn fun i => packIndex e c i.val) = (e ++ c : BitVec 264) := by
  apply BitVec.eq_of_toNat_eq
  unfold unpackValue
  have hlt : (e ++ c : BitVec 264).toNat < 2 ^ (11 * 24) := (e ++ c : BitVec 264).isLt
  rw [BitVec.toNat_ofNat, foldl_groups _ (e ++ c : BitVec 264).toNat 24 (by simp) hlt]
  · rw [Nat.zero_mul, Nat.zero_add]
    exact Nat.mod_eq_of_lt hlt
  · intro i hi
    have hi' : i < 24 := by simpa using hi
    simp only [Vector.getElem_toList, Vector.getElem_ofFn]
    rw [packIndex_toNat, append_toNat, show 11 * (24 - 1 - i) = 253 - 11 * i by omega]

theorem unpackE_toNat (idx : Vector (BitVec 11) 24) : (unpackE idx).toNat = (unpackValue idx).toNat / 2 ^ 8 % 2 ^ 256 := by
  unfold unpackE
  rw [BitVec.extractLsb'_toNat, Nat.shiftRight_eq_div_pow]

theorem unpackC_toNat (idx : Vector (BitVec 11) 24) : (unpackC idx).toNat = (unpackValue idx).toNat % 2 ^ 8 := by
  unfold unpackC
  rw [BitVec.extractLsb'_toNat, Nat.shiftRight_zero]

/-- What DCHK accepts, word by word (42_mnemonic.md R97). -/
theorem dictOk_eq_true (m : Memory) :
    dictOk m = true ↔
      (∀ i < 2048, isBlank (dictWord m i) = false) ∧
        ∀ i < 2048, ∀ j < 2048, i < j → dictWord m i ≠ dictWord m j := by
  unfold dictOk
  rw [Bool.and_eq_true, List.all_eq_true, decide_eq_true_eq]
  apply and_congr
  · simp [dictWords, Config.dictEntries]
  · simp only [dictWords, Config.dictEntries]
    rw [List.nodup_map_iff_inj_on List.nodup_range]
    simp only [List.mem_range]
    constructor
    · intro h i hi j hj hij e
      have := h i hi j hj e
      omega
    · intro h i hi j hj e
      rcases Nat.lt_trichotomy i j with a | a | a
      · exact absurd e (h i hi j hj a)
      · exact a
      · exact absurd e.symm (h j hj i hi a)

end Sys2Proof.Machine
end

