-- ==== Sys2Proof/Laws/PerInstr.lean ====
section
/-! SUPPORT. The family `Legal`: the fields of every command are legal for its opcode (30_encoding.md R68), and name it
(R69). One lemma per constructor of `Instr`. -/

namespace Sys2Proof.Laws.Legal

/-- The fields of `i` carry its opcode's code and pass every check for it. -/
def Statement (i : Instr) : Prop :=
  (fieldsOf i).opc = opcode (opOfInstr i) ∧ (fieldsOf i).legal (some (usesOf (opOfInstr i))) = true

theorem nop : Statement .nop := ⟨rfl, rfl⟩

theorem mov (rd ra : Reg) : Statement (.mov rd ra) := ⟨rfl, rfl⟩

theorem fadd (rd ra rb : Reg) : Statement (.fadd rd ra rb) := ⟨rfl, rfl⟩

theorem fsub (rd ra rb : Reg) : Statement (.fsub rd ra rb) := ⟨rfl, rfl⟩

theorem fmul (rd ra rb : Reg) : Statement (.fmul rd ra rb) := ⟨rfl, rfl⟩

theorem finv (rd ra : Reg) : Statement (.finv rd ra) := ⟨rfl, rfl⟩

theorem rnd256 (rd : Reg) : Statement (.rnd256 rd) := ⟨rfl, rfl⟩

theorem rndf (rd : Reg) : Statement (.rndf rd) := ⟨rfl, rfl⟩

theorem menc (ra : Reg) : Statement (.menc ra) := ⟨rfl, rfl⟩

theorem mdec (rd : Reg) : Statement (.mdec rd) := ⟨rfl, rfl⟩

theorem dchk : Statement .dchk := ⟨rfl, rfl⟩

theorem dfind : Statement .dfind := ⟨rfl, rfl⟩

theorem peval (rd ra : Reg) : Statement (.peval rd ra) := ⟨rfl, rfl⟩

theorem split (ra : Reg) (k : Bool) : Statement (.split ra k) := ⟨rfl, rfl⟩

theorem recon (rd : Reg) : Statement (.recon rd) := ⟨rfl, rfl⟩

theorem aenc (ra : Reg) : Statement (.aenc ra) := ⟨rfl, rfl⟩

theorem adec (ra : Reg) : Statement (.adec ra) := ⟨rfl, rfl⟩

end Sys2Proof.Laws.Legal
end

