-- ==== Sys2Proof/Laws/Sharing.lean ====
section
/-! SUPPORT. The field operations and lagrange0 (43_sharing.md R103) in the field GF(P). -/

namespace Sys2Proof.Machine

theorem fieldAdd_cast (x y : Nat) : ((fieldAdd x y : Nat) : ZMod Config.P) = x + y := by
  simp [fieldAdd]

theorem fieldMul_cast (x y : Nat) : ((fieldMul x y : Nat) : ZMod Config.P) = x * y := by
  simp [fieldMul]

theorem fieldSub_cast {x y : Nat} (h : y < Config.P) : ((fieldSub x y : Nat) : ZMod Config.P) = x - y := by
  have : ((x + Config.P - y : Nat) : ZMod Config.P) = x - y := by
    rw [Nat.cast_sub (by omega)]
    simp
  simpa [fieldSub] using this

/-- The difference of two different field elements is not 0, so lagrange0 inverts no 0. -/
theorem fieldSub_pos {x y : Nat} (hx : x < Config.P) (hy : y < Config.P) (h : x ≠ y) : 0 < fieldSub x y := by
  unfold fieldSub
  rcases Nat.lt_or_ge x y with a | a
  · rw [Nat.mod_eq_of_lt (by omega)]
    omega
  · rw [show x + Config.P - y = (x - y) + Config.P by omega, Nat.add_mod_right, Nat.mod_eq_of_lt (by omega)]
    omega

theorem lagrangeSum_lt (xs : List Nat) (l : List (Nat × Nat)) (i acc : Nat) (h : acc < Config.P) :
    lagrangeSum xs l i acc < Config.P := by
  induction l generalizing i acc with
  | nil => exact h
  | cons p l ih =>
    rw [lagrangeSum]
    exact ih _ _ (fieldAdd_lt _ _)

/-- lagrange0 writes a field element. -/
theorem lagrange0_lt (xs ys : List Nat) : lagrange0 xs ys < Config.P := lagrangeSum_lt _ _ _ _ P_pos

/-- The inner loop multiplies by x[m] / (x[m] − x[i]) for every place m but i. -/
theorem lagrangeTerm_cast (x : Nat → Nat) (i : Nat) (xs : List Nat) (j term : Nat)
    (hx : ∀ (m : Nat) (h : m < xs.length), xs[m] = x (j + m)) (hb : ∀ m < xs.length, x (j + m) < Config.P)
    (hi : x i < Config.P) (hd : ∀ m < xs.length, j + m ≠ i → x (j + m) ≠ x i) :
    ((lagrangeTerm i (x i) xs j term : Nat) : ZMod Config.P) =
      term * ∏ m ∈ Finset.range xs.length,
        if j + m = i then 1 else (x (j + m) : ZMod Config.P) * ((x (j + m) : ZMod Config.P) - x i)⁻¹ := by
  induction xs generalizing j term with
  | nil => simp [lagrangeTerm]
  | cons a xs ih =>
    have h0 := hx 0 (by simp)
    simp only [List.getElem_cons_zero, Nat.add_zero] at h0
    subst h0
    have hshift (m : Nat) : j + 1 + m = j + (m + 1) := by omega
    rw [lagrangeTerm, ih (j + 1)]
    · rw [List.length_cons, Finset.prod_range_succ']
      simp only [Nat.add_zero, hshift]
      by_cases hji : j = i
      · simp [hji]
      · have h1 := hb 0 (by simp)
        have h2 := hd 0 (by simp) hji
        simp only [Nat.add_zero] at h1 h2
        rw [if_neg hji, if_neg hji, fieldMul_cast, fieldMul_cast, fieldInv_cast (fieldSub_pos h1 hi h2) (fieldSub_lt _ _),
          fieldSub_cast hi]
        ac_rfl
    · intro m h
      rw [hshift]
      have := hx (m + 1) (by simpa using h)
      rwa [List.getElem_cons_succ] at this
    · intro m h
      rw [hshift]
      exact hb (m + 1) (by simpa using h)
    · intro m h
      rw [hshift]
      exact hd (m + 1) (by simpa using h)

end Sys2Proof.Machine
end

