-- ==== Sys2Proof/Machine/HostNotation.lean ====
section
/-! DEFINITION. The host's side of the spec: the notation of 00_scope.md R16 as lists of inputs, the assembler
syntax of 30_encoding.md R74, and the pseudo-instructions of R75. None of it is state or behaviour of the unit; no
step uses it. -/

namespace Sys2Proof.Machine

/-- A register as the assembler writes it, `w0` to `w15` (30_encoding.md R74). -/
def asmReg (r : Reg) : String := "w" ++ toString r.val

/-- The assembler's form of a command (30_encoding.md R74). -/
def asm : Instr → String
  | .nop => "NOP"
  | .mov rd ra => "MOV " ++ asmReg rd ++ ", " ++ asmReg ra
  | .fadd rd ra rb => "FADD " ++ asmReg rd ++ ", " ++ asmReg ra ++ ", " ++ asmReg rb
  | .fsub rd ra rb => "FSUB " ++ asmReg rd ++ ", " ++ asmReg ra ++ ", " ++ asmReg rb
  | .fmul rd ra rb => "FMUL " ++ asmReg rd ++ ", " ++ asmReg ra ++ ", " ++ asmReg rb
  | .finv rd ra => "FINV " ++ asmReg rd ++ ", " ++ asmReg ra
  | .rnd256 rd => "RND256 " ++ asmReg rd
  | .rndf rd => "RNDF " ++ asmReg rd
  | .menc ra => "MENC " ++ asmReg ra
  | .mdec rd => "MDEC " ++ asmReg rd
  | .dchk => "DCHK"
  | .dfind => "DFIND"
  | .peval rd ra => "PEVAL " ++ asmReg rd ++ ", " ++ asmReg ra
  | .split ra false => "SPLIT " ++ asmReg ra
  | .split ra true => "SPLIT.K " ++ asmReg ra
  | .recon rd => "RECON " ++ asmReg rd
  | .aenc ra => "AENC " ++ asmReg ra
  | .adec ra => "ADEC " ++ asmReg ra

/-- `wr A, V` (00_scope.md R16). -/
def wr (a : BitVec 16) (v : Word) : Event := .bus (.write a v)

/-- `rd A` (00_scope.md R16). -/
def rd (a : BitVec 16) : Event := .bus (.read a)

/-- The bus offset of word k of W[n] (20_memory.md R50, R51). -/
def wAddr (n : Reg) (k : Nat) : BitVec 16 := BitVec.ofNat 16 (0x0100 + 32 * n.val + 4 * k)

/-- `wrW n, V`: the eight writes of V into W[n], least significant word first (00_scope.md R16). -/
def wrW (n : Reg) (v : U256) : List Event :=
  (List.range 8).map fun k => wr (wAddr n k) (lane v k)

/-- `issue C` (00_scope.md R16) in a run where the entropy source gives these answers, the engine then takes its
turn, and one read of STATUS ends the `wait`. -/
def issue (c : Word) (answers : List Answer) : List Event :=
  wr 0x000C#16 c :: answers.map .entropy ++ [.engine, rd 0x0008#16]

/-- What the assembler emits: a command to issue, or a host write. -/
inductive HostOp where
  | command (i : Instr)
  | write (a : BitVec 16) (v : Word)
  deriving DecidableEq, Repr

/-- The pseudo-instructions of 30_encoding.md R75; the unit never sees them. -/
inductive Pseudo where
  | fsqr (rd ra : Reg)
  | fneg (rd ra rz : Reg)
  | fdiv (rd ra rb rt : Reg)
  | clrw (rd : Reg)
  | ldsh (i : Fin 16) (x y : U128)
  deriving DecidableEq, Repr

/-- The expansions of 30_encoding.md R75. -/
def expand : Pseudo → List HostOp
  | .fsqr rd ra => [.command (.fmul rd ra ra)]
  | .fneg rd ra rz => [.command (.fsub rd rz ra)]
  | .fdiv rd ra rb rt => [.command (.finv rt rb), .command (.fmul rd ra rt)]
  | .clrw rd => (List.range 8).map fun k => .write (wAddr rd k) 0#32
  | .ldsh i x y =>
    ((List.range 4).map fun k => .write (BitVec.ofNat 16 (0x0500 + 16 * i.val + 4 * k)) (lane x k)) ++
      (List.range 4).map fun k => .write (BitVec.ofNat 16 (0x0600 + 16 * i.val + 4 * k)) (lane y k)

end Sys2Proof.Machine
end

