-- ==== Sys2Proof/Tests/Slice0.lean ====
section
/-! SUPPORT. The model's own tests and the witnesses of its statements. Expected values are the spec's: the sections named
are those of 95_test_vectors.md. A theorem `witness_X` shows states and operands that meet every hypothesis of
`Obligations.X`, clause by clause, at boundary values; it claims nothing else. -/

namespace Sys2Proof.Tests

open Sys2Proof.Machine Sys2Proof.Safety

set_option Elab.async false

/-! ### Small states -/

/-- A unit with the command word `c` in flight and these latched ARG values. -/
def busy (c : Word) (a0 a1 a2 : Nat) : State :=
  { State.reset with
    eng := .busy, cmdl := c, argl0 := BitVec.ofNat 32 a0, argl1 := BitVec.ofNat 32 a1, argl2 := BitVec.ofNat 32 a2 }

/-- `s` with W[r] = v. -/
def putW (s : State) (r : Reg) (v : Nat) : State := writeW s r (BitVec.ofNat 256 v)

/-- `s` with the slots of COEF, SHX and SHY from 0 on. -/
def putTables (s : State) (coef shx shy : List Nat) : State :=
  { s with coef := writeSlots s.coef coef, shx := writeSlots s.shx shx, shy := writeSlots s.shy shy }

/-- `s` with the answers the command in flight has received. -/
def putAnswers (s : State) (as : List Answer) : State := { s with answers := as }

/-- An answer carrying this value. -/
def bitsOf (v : Nat) : Answer := .bits (BitVec.ofNat 256 v)

/-- `s` with IDX from a list. -/
def putIdx (s : State) (l : List Nat) : State := { s with idx := Vector.ofFn fun i => BitVec.ofNat 11 (l.getD i.val 0) }

/-- The state an outcome gives, if it gives one. -/
def nextOf (o : Host.Outcome State Fault Refusal) : Option State :=
  match o with
  | .next t => some t
  | .fault _ => none
  | .refused _ => none

/-- A field of the state after the completion of a command. -/
def after {α : Type} (i : Instr) (s : State) (f : State → α) : Option α := (nextOf (exec i s)).map f

/-- P2's and S3's shares of 1234567890 with T = 3 (section 1, S3). -/
def s3Shares : List Nat := [1234568150, 1234568598, 1234569234, 1234570058, 1234571070, 1234572270]

/-- IDX after MENC of 0x1234567890ABCDEF (section 2.4, first row). -/
def s1Idx : List Nat := List.replicate 17 0 ++ [4, 1128, 1383, 1096, 687, 445, 1957]

/-! ### WellFormed: one ill-formed word for each check (30_encoding.md R77, R78; section 2.1) -/

theorem test_check_opcode : (splitWord 0x000000FF#32).check none = some .unassignedOpcode := by decide
theorem test_check_reserved_low : (splitWord 0x00100000#32).check (some (usesOf .nop)) = some .reservedBits := by decide
theorem test_check_reserved_high : (splitWord 0x80000000#32).check (some (usesOf .nop)) = some .reservedBits := by decide
theorem test_check_rd : (splitWord 0x00000131#32).check (some (usesOf .split)) = some .unusedRd := by decide
theorem test_check_ra : (splitWord 0x00001010#32).check (some (usesOf .rnd256)) = some .unusedRa := by decide
theorem test_check_rb : (splitWord 0x00030B0B#32).check (some (usesOf .finv)) = some .unusedRb := by decide
theorem test_check_k : (splitWord 0x01000008#32).check (some (usesOf .fadd)) = some .unusedK := by decide
theorem test_check_legal : (splitWord 0x00021308#32).legal (some (usesOf .fadd)) = true := by decide

/-! ### Decode: every row of 30_encoding.md R74, and the illegal words of section 2.1 -/

theorem test_decode_general : decode 0x00000000#32 = .ok .nop ∧ decode 0x00001401#32 = .ok (.mov 4 1) := ⟨rfl, rfl⟩
theorem test_decode_field :
    decode 0x00021308#32 = .ok (.fadd 3 1 2) ∧ decode 0x00021309#32 = .ok (.fsub 3 1 2) ∧
    decode 0x0002130A#32 = .ok (.fmul 3 1 2) ∧ decode 0x0000120B#32 = .ok (.finv 2 1) ∧
    decode 0x00011908#32 = .ok (.fadd 9 1 1) := ⟨rfl, rfl, rfl, rfl, rfl⟩
theorem test_decode_entropy : decode 0x00000010#32 = .ok (.rnd256 0) ∧ decode 0x00000711#32 = .ok (.rndf 7) := ⟨rfl, rfl⟩
theorem test_decode_mnemonic :
    decode 0x00004020#32 = .ok (.menc 4) ∧ decode 0x00000621#32 = .ok (.mdec 6) ∧ decode 0x00000022#32 = .ok .dchk ∧
    decode 0x00000023#32 = .ok .dfind := ⟨rfl, rfl, rfl, rfl⟩
theorem test_decode_sharing :
    decode 0x00001230#32 = .ok (.peval 2 1) ∧ decode 0x00000031#32 = .ok (.split 0 false) ∧
    decode 0x01000031#32 = .ok (.split 0 true) ∧ decode 0x00000532#32 = .ok (.recon 5) := ⟨rfl, rfl, rfl, rfl⟩
theorem test_decode_aead : decode 0x00008040#32 = .ok (.aenc 8) ∧ decode 0x00008041#32 = .ok (.adec 8) := ⟨rfl, rfl⟩
theorem test_decode_illegal :
    decode 0x0000F0F0#32 = .error .unassignedOpcode ∧ decode 0x00000002#32 = .error .unassignedOpcode ∧
    decode 0x00000131#32 = .error .unusedRd ∧ decode 0x01000008#32 = .error .unusedK ∧
    decode 0x00100000#32 = .error .reservedBits ∧ decode 0x80000000#32 = .error .reservedBits ∧
    decode 0x00030B0B#32 = .error .unusedRb ∧ decode 0x00001010#32 = .error .unusedRa ∧
    decode 0x00000122#32 = .error .unusedRd := ⟨rfl, rfl, rfl, rfl, rfl, rfl, rfl, rfl, rfl⟩
theorem test_decodeTableWord :
    decodeTableWord 32 0x0000120B = some (.finv 2 1) ∧ decodeTableWord 32 0x00000002 = none ∧
    decodeTableWord 40 0x0000120B = none := by decide
theorem test_encode : encode (.split 0 true) = 0x01000031#32 ∧ encode (.fadd 3 1 2) = 0x00021308#32 := by decide
theorem test_asm : asm (.fadd 3 1 2) = "FADD w3, w1, w2" ∧ asm (.split 0 true) = "SPLIT.K w0" := by decide

/-! ### One step of each command -/

theorem test_nop : after .nop (busy 0x00000000#32 0 0 0) statusWord = some 0x00000002#32 := by decide +kernel
theorem test_nop_step : nextOf (step (State.reset.withFetchWord 32 0)) =
    some { State.reset with done := true } := by decide +kernel

theorem test_mov : after (.mov 4 1) (putW (busy 0x00001401#32 0 0 0) 1 (2 ^ 255)) (fun t => (readW t 4, statusWord t)) =
    some (BitVec.ofNat 256 (2 ^ 255), 0x00000002#32) := by decide +kernel

/-- Section 2.3, aliasing: the sources are read before the destination is written. -/
theorem test_fadd : after (.fadd 1 1 1) (putW (busy 0x00011108#32 0 0 0) 1 (Config.P - 1)) (fun t => (readW t 1).toNat) =
    some (Config.P - 2) := by decide +kernel
theorem test_fadd_range : after (.fadd 3 1 2) (putW (putW (busy 0x00021308#32 0 0 0) 1 Config.P) 2 1)
    (fun t => (readW t 3, statusWord t, t.errcmd)) = some (0#256, 0x00003006#32, 0x00021308#32) := by decide +kernel

theorem test_fsub : after (.fsub 3 1 2) (putW (busy 0x00021309#32 0 0 0) 2 1) (fun t => (readW t 3).toNat) =
    some (Config.P - 1) := by decide +kernel
theorem test_fsub_range : after (.fsub 3 1 2) (putW (putW (busy 0x00021309#32 0 0 0) 1 1) 2 Config.P) statusWord =
    some 0x00003006#32 := by decide +kernel

theorem test_fmul : after (.fmul 3 1 2) (putW (putW (busy 0x0002130A#32 0 0 0) 1 (2 ^ 100)) 2 (2 ^ 100))
    (fun t => (readW t 3).toNat) = some (2 ^ 73) := by decide +kernel
theorem test_fmul_range : after (.fmul 3 1 2) (putW (putW (busy 0x0002130A#32 0 0 0) 1 (2 ^ 127)) 2 1) statusWord =
    some 0x00003006#32 := by decide +kernel

theorem test_finv : after (.finv 2 1) (putW (busy 0x0000120B#32 0 0 0) 1 123456789) (fun t => (readW t 2).toNat) =
    some 0x6D74A9352601CB951E07D8E13B41448 := by decide +kernel
theorem test_finv_errors :
    after (.finv 2 1) (busy 0x0000120B#32 0 0 0) (fun t => (statusWord t, t.errcmd)) =
      some (0x00003206#32, 0x0000120B#32) ∧
    after (.finv 2 1) (putW (busy 0x0000120B#32 0 0 0) 1 Config.P) statusWord = some 0x00003006#32 := by decide +kernel

theorem test_rnd256 : after (.rnd256 0) (putAnswers (busy 0x00000010#32 0 0 0) [bitsOf (2 ^ 256 - 1)])
    (fun t => ((readW t 0).toNat, t.answers)) = some (2 ^ 256 - 1, []) := by decide +kernel
theorem test_rnd256_fail_and_wait :
    after (.rnd256 0) (putAnswers (busy 0x00000010#32 0 0 0) [.fail]) statusWord = some 0x00005006#32 ∧
    after (.rnd256 0) (busy 0x00000010#32 0 0 0) statusWord = some 0x00000001#32 ∧
    entropyRequest (busy 0x00000010#32 0 0 0) = some 256 := by decide +kernel

/-- Section 2.5: P and 0 are rejected, then 1. -/
theorem test_rndf : after (.rndf 7) (putAnswers (busy 0x00000711#32 0 0 0) [bitsOf Config.P, bitsOf 0, bitsOf 1])
    (fun t => (readW t 7).toNat) = some 1 := by decide +kernel
theorem test_rndf_fail : after (.rndf 7) (putAnswers (busy 0x00000711#32 0 0 0) [bitsOf 0, .fail]) statusWord =
    some 0x00005006#32 := by decide +kernel

/-- Section 2.4, the row of 0x0123456789ABCDEF repeated four times. -/
theorem test_menc : after (.menc 4) { putW (busy 0x00004020#32 0 0 0) 4
      0x0123456789ABCDEF0123456789ABCDEF0123456789ABCDEF0123456789ABCDEF with dictValid := true }
    (fun t => (t.idx.toList.map BitVec.toNat, t.res0)) =
    some ([9, 209, 719, 154, 1510, 1980, 36, 837, 828, 618, 1947, 1776, 145, 1301, 1265, 427, 1647, 960, 582, 1110, 964,
      1711, 445, 1864], 0x48#32) := by decide +kernel
theorem test_menc_all_ones : after (.menc 4) { putW (busy 0x00004020#32 0 0 0) 4 (2 ^ 256 - 1) with dictValid := true }
    (fun t => (t.idx.toList.map BitVec.toNat, t.res0)) = some (List.replicate 23 2047 ++ [1967], 0xAF#32) := by
  decide +kernel

/-- Section 1, S2: the undetected collision at IDX[0] = 751. -/
theorem test_mdec : after (.mdec 6) { putIdx (busy 0x00000621#32 24 0 0) (751 :: s1Idx.drop 1) with dictValid := true }
    (fun t => (readW t 6, t.res0, statusWord t)) =
    some (0x5DE0000000000000000000000000000000000000000000001234567890ABCDEF#256, 0xA5#32, 0x0000000A#32) := by
  decide +kernel
theorem test_mdec_checksum : after (.mdec 6) { putIdx (busy 0x00000621#32 24 0 0) (1 :: s1Idx.drop 1) with dictValid := true }
    (fun t => (readW t 6, t.res0, statusWord t)) = some (0#256, 0#32, 0x0000100E#32) := by decide +kernel

theorem test_dchk_empty : after .dchk { busy 0x00000022#32 0 0 0 with dictValid := true } statusWord =
    some 0x00000306#32 := by decide +kernel

/-- DICT[1] = "art" and WORDBUF = "art": DFIND finds index 1. -/
theorem test_dfind : after .dfind { busy 0x00000023#32 23 0 0 with
      dictValid := true
      mem := [(0x0780, 0x61#8), (0x0781, 0x72#8), (0x0782, 0x74#8), (0x8000, 0x61#8), (0x8010, 0x61#8), (0x8011, 0x72#8),
        (0x8012, 0x74#8)] }
    (fun t => (t.idx[23], t.res0, statusWord t)) = some (1#11, 1#32, 0x0000000A#32) := by decide +kernel
theorem test_dfind_slot : after .dfind { busy 0x00000023#32 24 0 0 with dictValid := true } statusWord =
    some 0x0000330E#32 := by decide +kernel

/-- Section 2.6: x = P − 1 gives c0 − c1 + c2, and a coefficient above the degree is not read. -/
theorem test_peval : after (.peval 2 1) (putTables (putW (busy 0x00001230#32 2 0 0) 1 (Config.P - 1))
      [1234567890, 166, 94, 0, 0, Config.P] [] []) (fun t => (readW t 2).toNat) = some 1234567818 := by decide +kernel
theorem test_peval_errors :
    after (.peval 2 1) (putTables (putW (busy 0x00001230#32 2 0 0) 1 4) [1234567890, Config.P, 94] [] []) statusWord =
      some 0x00003006#32 ∧
    after (.peval 2 1) (putW (busy 0x00001230#32 16 0 0) 1 Config.P) statusWord = some 0x00003306#32 := by decide +kernel

/-- Section 2.6: answers 0, 166, P, 94 make S3's shares. -/
theorem test_split : after (.split 0 false) (putAnswers (putW (busy 0x00000031#32 3 6 0) 0 1234567890)
      [bitsOf 0, bitsOf 166, bitsOf Config.P, bitsOf 94]) (fun t => (slots t.coef 4, slots t.shx 7, slots t.shy 7, t.res0)) =
    some ([1234567890, 166, 94, 0], [1, 2, 3, 4, 5, 6, 0], s3Shares ++ [0], 6#32) := by decide +kernel
theorem test_split_k : after (.split 0 true) (putTables (putW (busy 0x01000031#32 3 6 0) 0 (Config.P - 1))
      [0, Config.P - 2, Config.P - 3] [] []) (fun t => slots t.shy 6) =
    some [Config.P - 6, Config.P - 17, Config.P - 34, Config.P - 57, Config.P - 86, Config.P - 121] := by decide +kernel

theorem test_recon : after (.recon 5) (putTables (busy 0x00000532#32 3 0 0) [] [6, 2, 4]
      [1234572270, 1234568598, 1234570058]) (fun t => (readW t 5).toNat) = some 1234567890 := by decide +kernel
theorem test_recon_errors :
    after (.recon 5) (putTables (busy 0x00000532#32 2 0 0) [] [1, 1] [5, 6]) statusWord = some 0x00003106#32 ∧
    after (.recon 5) (putTables (busy 0x00000532#32 3 0 0) [] [1, 1, 0] [5, 6, 7]) statusWord = some 0x00003006#32 := by
  decide +kernel

theorem test_aenc_no_wrap : after (.aenc 8) (busy 0x00008040#32 0xFFFFFFFF 2 0) statusWord = some 0x00003406#32 := by
  decide +kernel
theorem test_aenc_fail : after (.aenc 8) (putAnswers (busy 0x00008040#32 0 5 64) [.fail]) (fun t => (t.mem, statusWord t)) =
    some ([], 0x00005006#32) := by decide +kernel

theorem test_adec_short : after (.adec 8) (busy 0x00008041#32 64 11 0) statusWord = some 0x00000406#32 := by decide +kernel
theorem test_adec_no_tag : after (.adec 8) (busy 0x00008041#32 64 27 4097) statusWord = some 0x00002006#32 := by
  decide +kernel

theorem test_illegal : nextOf (engineStep { busy 0x00000131#32 0 0 0 with dictValid := true }) =
    some { busy 0x00000131#32 0 0 0 with
      eng := .idle, done := true, dictValid := true, errcode := .illegalCmd, errcmd := 0x00000131#32 } := by
  decide +kernel

/-! ### HASH256 (section 2.4: the first bytes of the digests of be32(0) and be32(1)) -/

theorem test_hash_zero : (hash256 (be32 0#256)).take 8 =
    [0x66#8, 0x68#8, 0x7A#8, 0xAD#8, 0xF8#8, 0x62#8, 0xBD#8, 0x77#8] := by decide +kernel
theorem test_hash_one : (hash256 (be32 1#256)).take 8 =
    [0xEC#8, 0x49#8, 0x16#8, 0xDD#8, 0x28#8, 0xFC#8, 0x4C#8, 0x10#8] := by decide +kernel

/-! ### The bus (section 2.2) -/

/-- The response of the last transaction after a list of host transactions from a state. -/
def replies (s : State) (l : List Txn) : Option BusResp := (l.foldl (fun s t => busStep t s) s).busOut

theorem test_bus_constants :
    replies State.reset [.read 0x0000#16] = some ⟨.okay, some 0x424B5507#32⟩ ∧
    replies State.reset [.read 0x0024#16] = some ⟨.okay, some 0x10001010#32⟩ ∧
    replies State.reset [.read 0x0048#16] = some ⟨.okay, some 0xFFFFFFFF#32⟩ ∧
    replies State.reset [.read 0x004C#16] = some ⟨.okay, some 0x7FFFFFFF#32⟩ := by decide +kernel
theorem test_bus_slverr :
    ([0x0002#16, 0x0028#16, 0x0050#16, 0x0300#16, 0x0760#16, 0x0790#16, 0x2000#16].all fun a =>
      replies State.reset [.read a] = some ⟨.slverr, some 0#32⟩) ∧
    busStep (.write 0x0101#16 5#32) State.reset = { State.reset with busOut := some ⟨.slverr, none⟩ } := by decide +kernel
theorem test_bus_read_only :
    replies State.reset [.write 0x0000#16 0x12345678#32, .read 0x0000#16] = some ⟨.okay, some 0x424B5507#32⟩ ∧
    replies State.reset [.write 0x001C#16 5#32, .read 0x001C#16] = some ⟨.okay, some 0#32⟩ := by decide +kernel
theorem test_bus_ctrl :
    replies State.reset [.write 0x0004#16 1#32, .read 0x0004#16] = some ⟨.okay, some 1#32⟩ ∧
    replies State.reset [.write 0x0004#16 1#32, .write 0x0004#16 0xFFFFFFFC#32, .read 0x0004#16] =
      some ⟨.okay, some 0#32⟩ := by decide +kernel
theorem test_bus_idx : replies State.reset [.write 0x0700#16 0xFFFFFFFF#32, .read 0x0700#16] =
    some ⟨.okay, some 0x7FF#32⟩ := by decide +kernel
theorem test_bus_w : (busStep (.write 0x0120#16 3#32) State.reset).w[1] = 3#256 ∧
    (busStep (.write 0x013C#16 3#32) State.reset).w[1] = 3#256 <<< 224 := by decide +kernel
theorem test_bus_bytes :
    (busStep (.write 0x1004#16 0x0000006F#32) (busStep (.write 0x1000#16 0x6C6C6568#32) State.reset)).mem =
      [(0x1000, 0x68#8), (0x1001, 0x65#8), (0x1002, 0x6C#8), (0x1003, 0x6C#8), (0x1004, 0x6F#8)] ∧
    (busStep (.write 0x8000#16 0x30303077#32) { State.reset with dictValid := true }).dictValid = false := by
  decide +kernel
/-- Section 3, P6: a blocked read, a dropped command, and STATUS 0x31; then the answer, completion and acknowledgement. -/
theorem test_bus_busy :
    let s := busStep (.read 0x0100#16) (busStep (.write 0x000C#16 0#32) (busStep (.write 0x000C#16 0x10#32) State.reset))
    s.busOut = some ⟨.okay, some 0#32⟩ ∧ s.cmdl = 0x10#32 ∧ statusWord s = 0x00000031#32 ∧
    (nextOf (engineStep (entropyStep (bitsOf 0xDEADBEEF) s))).map
      (fun t => (readW t 0, statusWord t, statusWord (busStep (.write 0x0008#16 0x32#32) t))) =
      some (0xDEADBEEF#256, 0x00000032#32, 0#32) := by decide +kernel
theorem test_soft_reset_while_busy :
    busStep (.write 0x0004#16 3#32) (putW (busy 0x00000010#32 0 0 0) 3 7) =
      { State.reset with busOut := some ⟨.okay, none⟩ } := by decide +kernel
/-- Section 2.8: a failing FINV, its acknowledgement, and a NOP that leaves ERRCMD. -/
theorem test_acknowledge :
    let s := { State.reset with done := true, errcode := .valueZeroInv, errcmd := 0x0000120B#32 }
    let u := busStep (.write 0x0008#16 2#32) s
    statusWord u = 0x00003204#32 ∧ u.errcmd = 0x0000120B#32 ∧
    (nextOf (engineStep (busStep (.write 0x000C#16 0#32) u))).map (fun t => (statusWord t, t.errcmd)) =
      some (0x00000002#32, 0x0000120B#32) := by decide +kernel
theorem test_irq :
    (nextOf (engineStep { busy 0#32 0 0 0 with ie := true })).map irq = some true ∧
    irq (busStep (.write 0x0004#16 0#32) { State.reset with ie := true, done := true }) = false := by decide +kernel

/-- The pin low: no transaction is taken; the pin high again: reset (70_reset_and_hazards.md R132). -/
theorem test_hardware_reset :
    let s := rstStep false (putW (busy 0x00000010#32 0 0 0) 3 7)
    busStep (.read 0x0000#16) s = s ∧ entropyStep (bitsOf 5) s = s ∧ rstStep true s = State.reset := by decide +kernel

/-- A reset withdraws RND256's request; its late answer is ignored although the next RND256 waits for its own
(70_reset_and_hazards.md R132, R133), and the next answer is that one's. -/
theorem test_late_answer :
    let s := busStep (.write 0x000C#16 0x10#32) (busStep (.write 0x0004#16 2#32) (busy 0x00000010#32 0 0 0))
    eventStep (.lateEntropy (bitsOf 5)) s = .next s ∧ entropyRequest s = some 256 ∧
    (nextOf (engineStep (entropyStep (bitsOf 7) s))).map (fun t => readW t 0) = some 7#256 :=
  ⟨rfl, by decide +kernel, by decide +kernel⟩

/-- The port's request is RND256's 256 bits, and there is none in an idle unit (60_exceptions.md R126). -/
theorem test_entropy_port :
    entReq (busy 0x00000010#32 0 0 0) = true ∧ entNbits (busy 0x00000010#32 0 0 0) = some 256#9 ∧
    entReq State.reset = false := by decide +kernel

/-- A run ends when no host transaction is left and BUSY = 0, whatever else is pending; a transaction left, or a command
in flight, and it has not (70_reset_and_hazards.md R146). -/
theorem test_run_ended :
    runEnded { State.reset with inputs := [.rst false, .engine, .entropy .fail] } ∧
    ¬runEnded { State.reset with inputs := [.engine, .bus (.read 0#16)] } ∧ ¬runEnded (busy 0#32 0 0 0) := by
  unfold runEnded
  decide +kernel

/-- `issue 0` (NOP) ends after its three inputs; the reset that follows is not part of the run. -/
theorem test_run_end_state :
    ∃ t, RunEndsIn 3 { State.reset with inputs := issue 0#32 [] ++ [.rst false] } t ∧ statusWord t = 2#32 := by
  refine ⟨_, ⟨rfl, by unfold runEnded; decide +kernel, ?_⟩, by decide +kernel⟩
  intro j hj u hu
  obtain rfl | rfl | rfl : j = 0 ∨ j = 1 ∨ j = 2 := by omega
  all_goals
    cases hu
    unfold runEnded
    decide +kernel

/-! ### The host's notation -/

theorem test_issue : issue 0x00000010#32 [.fail] =
    [.bus (.write 0x000C#16 0x10#32), .entropy .fail, .engine, .bus (.read 0x0008#16)] := by decide
theorem test_expand :
    expand (.fdiv 5 1 2 3) = [.command (.finv 3 2), .command (.fmul 5 1 3)] ∧
    (expand (.clrw 2)).head? = some (.write 0x0140#16 0#32) := by decide

/-! ### A dictionary that passes DCHK (section 2.4's test dictionary, "w0000" to "w2047") -/

/-- word(i) of the test dictionary. -/
def testWord (i : Nat) : List Byte :=
  [0x77#8, BitVec.ofNat 8 (0x30 + i / 1000), BitVec.ofNat 8 (0x30 + i / 100 % 10), BitVec.ofNat 8 (0x30 + i / 10 % 10),
   BitVec.ofNat 8 (0x30 + i % 10)]

/-- The byte storage whose DICT holds `g 0` to `g 2047`, each padded with 0x00 to 16 bytes. -/
@[irreducible] def dictOf (g : Nat → List Byte) : Memory :=
  memWriteBytes [] 0x8000 ((List.range 32768).map fun j => (g (j / 16)).getD (j % 16) 0#8)

theorem wf_dictOf (g : Nat → List Byte) : (dictOf g).wf = true := by
  unfold dictOf
  exact wf_memWriteBytes (m := []) rfl _ _

theorem inWindows_dictOf (g : Nat → List Byte) : inWindows (dictOf g) = true := by
  unfold dictOf
  exact inWindows_memWriteBytes (m := []) rfl (by simp)

theorem dictWord_dictOf (g : Nat → List Byte) (i : Nat) (hi : i < 2048) (hl : (g i).length ≤ 16)
    (hz : ∀ b ∈ g i, b ≠ 0#8) : dictWord (dictOf g) i = g i := by
  have hbytes : memReadBytes (dictOf g) (0x8000 + 16 * i) 16 = g i ++ List.replicate (16 - (g i).length) 0#8 := by
    apply List.ext_getElem
    · simp
      omega
    · intro k h1 h2
      have hk : k < 16 := by simpa using h1
      have : memRead (dictOf g) (0x8000 + (16 * i + k)) = (g i).getD k 0#8 := by
        unfold dictOf
        rw [memRead_memWriteBytes_inside (m := []) rfl (by simp; omega)]
        simp only [List.getElem_map, List.getElem_range]
        rw [show (16 * i + k) / 16 = i by omega, show (16 * i + k) % 16 = k by omega]
      rw [memReadBytes_getElem, show 0x8000 + 16 * i + k = 0x8000 + (16 * i + k) by omega, this]
      by_cases h : k < (g i).length
      · rw [List.getElem_append_left h]
        simp [h]
      · rw [List.getElem_append_right (by omega)]
        simp [h]
  unfold dictWord untilZero
  rw [show Config.dictBase + Config.dictWordBytes * i = 0x8000 + 16 * i from rfl,
    show Config.dictWordBytes = 16 from rfl, hbytes, List.takeWhile_append_of_pos (by simpa using hz)]
  simp

theorem ofNat_byte_inj {a b : Nat} (ha : a < 256) (hb : b < 256) (h : BitVec.ofNat 8 a = BitVec.ofNat 8 b) : a = b := by
  have := congrArg BitVec.toNat h
  simp only [BitVec.toNat_ofNat] at this
  omega

theorem testWord_nonzero {i : Nat} (hi : i < 2048) : ∀ b ∈ testWord i, b ≠ 0#8 := by
  intro b hb e
  have hz (n : Nat) (h1 : 0 < n) (h2 : n < 256) : BitVec.ofNat 8 n ≠ 0#8 := fun h => by
    have := ofNat_byte_inj h2 (by omega) h
    omega
  simp only [testWord, List.mem_cons, List.not_mem_nil, or_false] at hb
  rcases hb with rfl | rfl | rfl | rfl | rfl
  · exact absurd e (by decide)
  all_goals exact absurd e (hz _ (by omega) (by omega))

theorem testWord_injective {i j : Nat} (hi : i < 2048) (hj : j < 2048) (h : testWord i = testWord j) : i = j := by
  simp only [testWord, List.cons.injEq, and_true, true_and] at h
  have h1 := ofNat_byte_inj (by omega) (by omega) h.1
  have h2 := ofNat_byte_inj (by omega) (by omega) h.2.1
  have h3 := ofNat_byte_inj (by omega) (by omega) h.2.2.1
  have h4 := ofNat_byte_inj (by omega) (by omega) h.2.2.2
  omega

/-- A storage that agrees with the test dictionary from 0x8000 on. -/
theorem dictWord_test {m : Memory} (h : ∀ a, 0x8000 ≤ a → memRead m a = memRead (dictOf testWord) a) {i : Nat}
    (hi : i < 2048) : dictWord m i = testWord i := by
  rw [dictWord_congr h, dictWord_dictOf _ _ hi (by simp [testWord]) (testWord_nonzero hi)]

theorem test_dictOk {m : Memory} (h : ∀ a, 0x8000 ≤ a → memRead m a = memRead (dictOf testWord) a) : dictOk m = true := by
  rw [dictOk_eq_true]
  refine ⟨fun i hi => ?_, fun i hi j hj hij e => ?_⟩
  · rw [dictWord_test h hi]
    simp [testWord, isBlank, isBlankByte]
  · rw [dictWord_test h hi, dictWord_test h hj] at e
    have := testWord_injective hi hj e
    omega

/-- The test dictionary and a word in WORDBUF. -/
def testMem (w : List Byte) : Memory := memWriteBytes (dictOf testWord) 0x0780 w

theorem testMem_dict {w : List Byte} (hw : w.length ≤ 16) (a : Nat) (ha : 0x8000 ≤ a) :
    memRead (testMem w) a = memRead (dictOf testWord) a := memRead_memWriteBytes_outside (by omega)

theorem testMem_wordbuf {w : List Byte} (hw : w.length = 16) : wordbufWord (testMem w) = untilZero w := by
  have := memReadBytes_memWriteBytes (wf_dictOf testWord) 0x0780 w
  rw [hw] at this
  unfold wordbufWord
  rw [show Config.wordbufBase = 0x0780 from rfl, show Config.dictWordBytes = 16 from rfl, testMem, this]

/-- A busy unit with the test dictionary validated. -/
def dictBusy (c : Word) (a0 : Nat) (w : List Byte) (valid : Bool) : State :=
  { busy c a0 0 0 with mem := testMem w, dictValid := valid }

/-- "w2047" padded to 16 bytes. -/
def lastWord : List Byte := [0x77#8, 0x32#8, 0x30#8, 0x34#8, 0x37#8] ++ List.replicate 11 0#8

/-- "zzzzzzzz" padded to 16 bytes (section 1, S8). -/
def unknownWord : List Byte := List.replicate 8 0x7A#8 ++ List.replicate 8 0#8

theorem test_dchk_passes : exec .dchk (dictBusy 0x00000022#32 0 [] false) =
    .next (succeeded { dictBusy 0x00000022#32 0 [] false with dictValid := true }) := by
  have h : dictOk (dictBusy 0x00000022#32 0 [] false).mem = true := test_dictOk (testMem_dict (by simp))
  simp only [exec, execDchk, h, if_true]
  rfl

/-! ### Witnesses: the hypotheses of every statement that has any -/

theorem exists_next {i : Instr} {s : State} {p : State → Bool} (h : after i s p = some true) :
    ∃ t, exec i s = .next t ∧ p t = true := by
  unfold after nextOf at h
  split at h
  · rename_i t he
    exact ⟨t, he, by simpa using h⟩
  · cases h
  · cases h

theorem exists_step {s : State} {p : State → Bool} (h : (nextOf (step s)).map p = some true) :
    ∃ t, step s = .next t ∧ p t = true := by
  unfold nextOf at h
  split at h
  · rename_i t he
    exact ⟨t, he, by simpa using h⟩
  · cases h
  · cases h

theorem witness_EncodeOfDecodeIsTheWord : decode 0x000FFF0A#32 = .ok (.fmul 15 15 15) := rfl

theorem witness_LegalWordsDecodeAndOthersRaise :
    (busy 0x000000FF#32 0 0 0).eng = .busy ∧ ∀ i, decode (busy 0x000000FF#32 0 0 0).cmdl ≠ .ok i := by
  refine ⟨rfl, fun i h => ?_⟩
  rw [show decode (busy 0x000000FF#32 0 0 0).cmdl = .error .unassignedOpcode from rfl] at h
  cases h

theorem witness_StepRunsTheLatchedCommand :
    ((busy 0#32 0 0 0).eng = .busy ∧ decode (busy 0#32 0 0 0).cmdl = .ok .nop) ∧ (busy 0#32 0 0 0).inputs = [] ∧
    { busy 0#32 0 0 0 with inputs := [.engine, .rst false] }.inputs = .engine :: [.rst false] := ⟨⟨rfl, rfl⟩, rfl, rfl⟩

theorem witness_StepRunsThePlacedWord : decode 0x00000532#32 = .ok (.recon 5) := rfl

theorem witness_StepTakesThePendingInput :
    { State.reset with inputs := [.bus (.read 0#16), .engine] }.inputs = .bus (.read 0#16) :: [.engine] ∧
    { State.reset with inputs := [.entropy .fail] }.inputs = .entropy .fail :: [] ∧
    { State.reset with inputs := [.lateEntropy .fail] }.inputs = .lateEntropy .fail :: [] ∧
    { State.reset with inputs := [.rst false] }.inputs = .rst false :: [] ∧
    ({ State.reset with inputs := [.engine] }.inputs = .engine :: [] ∧ State.reset.eng = .idle) ∧
    (State.reset.inputs = [] ∧ State.reset.eng = .idle) := ⟨rfl, rfl, rfl, rfl, ⟨rfl, rfl⟩, rfl, rfl⟩

theorem witness_IllegalWordIsAcceptedAndCompletes :
    decode 0x00000131#32 = .error .unusedRd ∧ State.reset.eng = .idle ∧ State.reset.rstN = true := ⟨rfl, rfl, rfl⟩

/-- Both operands at their largest; each one at its smallest illegal value. -/
theorem witness_FaddAddsModuloP :
    let top := putW (putW (busy 0#32 0 0 0) 1 (Config.P - 1)) 2 (Config.P - 1)
    ((readW top 1).toNat < Config.P ∧ (readW top 2).toNat < Config.P) ∧
    Config.P ≤ (readW (putW (busy 0#32 0 0 0) 1 Config.P) 1).toNat ∧
    Config.P ≤ (readW (putW (busy 0#32 0 0 0) 2 Config.P) 2).toNat := by decide +kernel

theorem witness_FsubSubtractsModuloP :
    let low := putW (putW (busy 0#32 0 0 0) 1 0) 2 (Config.P - 1)
    ((readW low 1).toNat < Config.P ∧ (readW low 2).toNat < Config.P) ∧
    Config.P ≤ (readW (putW (busy 0#32 0 0 0) 1 Config.P) 1).toNat ∧
    Config.P ≤ (readW (putW (busy 0#32 0 0 0) 2 Config.P) 2).toNat := by decide +kernel

theorem witness_FmulMultipliesModuloP :
    let top := putW (putW (busy 0#32 0 0 0) 1 (Config.P - 1)) 2 (Config.P - 1)
    ((readW top 1).toNat < Config.P ∧ (readW top 2).toNat < Config.P) ∧
    Config.P ≤ (readW (putW (busy 0#32 0 0 0) 1 (2 ^ 127)) 1).toNat ∧
    Config.P ≤ (readW (putW (busy 0#32 0 0 0) 2 Config.P) 2).toNat := by decide +kernel

theorem witness_FinvWritesTheInverse :
    ((readW (putW (busy 0#32 0 0 0) 1 1) 1).toNat = 1 ∧ 0 < 1 ∧ 1 < Config.P) ∧
    ((readW (putW (busy 0#32 0 0 0) 1 (Config.P - 1)) 1).toNat = Config.P - 1 ∧ Config.P - 1 < Config.P) ∧
    Config.P ≤ (readW (putW (busy 0#32 0 0 0) 1 Config.P) 1).toNat ∧
    (readW (busy 0#32 0 0 0) 1).toNat = 0 := by decide +kernel

theorem witness_WRegistersAreIndependent : (15 : Reg) ≠ 0 := by decide

theorem witness_Rnd256WritesTheAnswer :
    (putAnswers (busy 0x10#32 0 0 0) [bitsOf (2 ^ 256 - 1)]).answers = .bits (BitVec.ofNat 256 (2 ^ 256 - 1)) :: [] ∧
    (putAnswers (busy 0x10#32 0 0 0) [.fail]).answers = .fail :: [] ∧ (busy 0x10#32 0 0 0).answers = [] := ⟨rfl, rfl, rfl⟩

theorem witness_RndfWritesTheFirstAcceptedDraw :
    fieldDraws (putAnswers (busy 0x11#32 0 0 0) [bitsOf 0, bitsOf Config.P, bitsOf (Config.P - 1), .fail]).answers =
      some (Config.P - 1) :: [none] ∧
    fieldDraws (putAnswers (busy 0x11#32 0 0 0) [bitsOf 0, .fail]).answers = none :: [] ∧
    fieldDraws (putAnswers (busy 0x11#32 0 0 0) [bitsOf Config.P]).answers = [] := by decide +kernel

theorem witness_MencWritesTheIndices :
    (dictBusy 0x4020#32 0 [] true).dictValid = true ∧ (dictBusy 0x4020#32 0 [] false).dictValid = false := ⟨rfl, rfl⟩

/-- The three non-trivial clauses: a valid sentence, a wrong count, and a wrong checksum. -/
theorem witness_MdecVerifiesAndWritesTheSecret :
    let s := putIdx (dictBusy 0x621#32 24 [] true) s1Idx
    let v := 0x1234567890ABCDEF * 2 ^ 8 + 0xA5
    let s' := putIdx (dictBusy 0x621#32 24 [] true) (1 :: s1Idx.drop 1)
    let v' := 2 ^ 253 + v
    (v = ∑ i : Fin 24, (s.idx[i]).toNat * 2 ^ (11 * (23 - i.val)) ∧ s.dictValid = true ∧ s.argl0.toNat = 24 ∧
      (checksum (BitVec.ofNat 256 (v / 2 ^ 8))).toNat = v % 2 ^ 8) ∧
    (dictBusy 0x621#32 24 [] false).dictValid = false ∧
    ((dictBusy 0x621#32 25 [] true).dictValid = true ∧ (dictBusy 0x621#32 25 [] true).argl0.toNat ≠ 24) ∧
    (v' = ∑ i : Fin 24, (s'.idx[i]).toNat * 2 ^ (11 * (23 - i.val)) ∧ s'.dictValid = true ∧ s'.argl0.toNat = 24 ∧
      (checksum (BitVec.ofNat 256 (v' / 2 ^ 8))).toNat ≠ v' % 2 ^ 8) := by decide +kernel

theorem witness_MnemonicRoundTrip :
    (putW (dictBusy 0x4020#32 24 [] true) 4 (2 ^ 256 - 1)).dictValid = true ∧
    ∃ t u : State, exec (.menc 4) (putW (dictBusy 0x4020#32 24 [] true) 4 (2 ^ 256 - 1)) = .next t ∧
      u.dictValid = true ∧ u.argl0.toNat = 24 ∧ u.idx = t.idx :=
  ⟨rfl, _, { busy 0x621#32 24 0 0 with dictValid := true, idx := _ }, rfl, rfl, by decide, rfl⟩

theorem witness_WordsEndAtTheFirstZeroByte :
    (0x0780 = 0x0780 ∧ wordbufWord (testMem lastWord) = wordbufWord (testMem lastWord)) ∧
    ∃ i < 2048, 0xFFF0 = 0x8000 + 16 * i ∧ dictWord (testMem lastWord) 2047 = dictWord (testMem lastWord) i :=
  ⟨⟨rfl, rfl⟩, 2047, by decide, rfl, rfl⟩

/-- The good clause with the test dictionary, the other with the empty one. -/
theorem witness_DchkValidatesTheDictionary :
    dictOk (dictBusy 0x22#32 0 [] false).mem = true ∧ dictOk State.reset.mem = false :=
  ⟨test_dictOk (testMem_dict (by simp)), by decide +kernel⟩

theorem witness_DfindFindsTheWord :
    ((dictBusy 0x23#32 23 lastWord true).dictValid = true ∧ dictOk (dictBusy 0x23#32 23 lastWord true).mem = true ∧
      (dictBusy 0x23#32 23 lastWord true).argl0.toNat < 24 ∧
      dictWord (dictBusy 0x23#32 23 lastWord true).mem 2047 = wordbufWord (dictBusy 0x23#32 23 lastWord true).mem) ∧
    (dictBusy 0x23#32 24 lastWord false).dictValid = false ∧
    ((dictBusy 0x23#32 24 lastWord true).dictValid = true ∧ 24 ≤ (dictBusy 0x23#32 24 lastWord true).argl0.toNat) ∧
    ((dictBusy 0x23#32 0 unknownWord true).dictValid = true ∧ dictOk (dictBusy 0x23#32 0 unknownWord true).mem = true ∧
      (dictBusy 0x23#32 0 unknownWord true).argl0.toNat < 24 ∧
      ∀ i < 2048, dictWord (dictBusy 0x23#32 0 unknownWord true).mem i ≠
        wordbufWord (dictBusy 0x23#32 0 unknownWord true).mem) := by
  have h1 : lastWord.length = 16 := by decide
  have h2 : unknownWord.length = 16 := by decide
  refine ⟨⟨rfl, test_dictOk (testMem_dict (by omega)), by decide +kernel, ?_⟩, rfl, ⟨rfl, by decide +kernel⟩,
    rfl, test_dictOk (testMem_dict (by omega)), by decide +kernel, fun i hi => ?_⟩
  · show dictWord (testMem lastWord) 2047 = wordbufWord (testMem lastWord)
    rw [dictWord_test (testMem_dict (by omega)) (by omega), testMem_wordbuf h1]
    decide
  · show dictWord (testMem unknownWord) i ≠ wordbufWord (testMem unknownWord)
    rw [dictWord_test (testMem_dict (by omega)) hi, testMem_wordbuf h2]
    have : untilZero unknownWord = List.replicate 8 0x7A#8 := by decide
    rw [this]
    simp [testWord, List.replicate]

theorem witness_PevalEvaluatesThePolynomial :
    let s := putTables (putW (busy 0x1230#32 15 0 0) 1 (Config.P - 1)) (List.replicate 16 (Config.P - 1)) [] []
    let s' := putTables (busy 0x1230#32 1 0 0) [0, Config.P] [] []
    (s.argl0.toNat < 16 ∧ (readW s 1).toNat < Config.P ∧
      ∀ v ∈ (s.coef.toList.take (s.argl0.toNat + 1)).map BitVec.toNat, v < Config.P) ∧
    16 ≤ (busy 0x1230#32 16 0 0).argl0.toNat ∧
    ((busy 0x1230#32 15 0 0).argl0.toNat < 16 ∧ Config.P ≤ (readW (putW (busy 0x1230#32 15 0 0) 1 Config.P) 1).toNat) ∧
    (s'.argl0.toNat < 16 ∧
      ∃ v ∈ (s'.coef.toList.take (s'.argl0.toNat + 1)).map BitVec.toNat, Config.P ≤ v) := by decide +kernel

theorem witness_SplitKMakesSharesFromTheHostsCoefficients :
    let s := putTables (putW (busy 0x01000031#32 16 16 0) 0 (Config.P - 1)) (List.replicate 16 (Config.P - 1)) [] []
    let z := putTables (busy 0x01000031#32 2 2 0) [5, 0] [] []
    let p := putTables (busy 0x01000031#32 2 2 0) [5, Config.P] [] []
    (1 ≤ s.argl0.toNat ∧ s.argl0.toNat ≤ s.argl1.toNat ∧ s.argl1.toNat ≤ 16 ∧ (readW s 0).toNat < Config.P ∧
      ∀ v ∈ ((s.coef.toList.take s.argl0.toNat).drop 1).map BitVec.toNat, 1 ≤ v ∧ v < Config.P) ∧
    ((busy 0#32 0 6 0).argl0.toNat < 1 ∧ (busy 0#32 7 6 0).argl1.toNat < (busy 0#32 7 6 0).argl0.toNat ∧
      16 < (busy 0#32 3 17 0).argl1.toNat) ∧
    (1 ≤ (busy 0#32 1 1 0).argl0.toNat ∧ (busy 0#32 1 1 0).argl0.toNat ≤ (busy 0#32 1 1 0).argl1.toNat ∧
      Config.P ≤ (readW (putW (busy 0#32 1 1 0) 0 Config.P) 0).toNat) ∧
    (∃ v ∈ ((z.coef.toList.take z.argl0.toNat).drop 1).map BitVec.toNat, v = 0 ∨ Config.P ≤ v) ∧
    (∃ v ∈ ((p.coef.toList.take p.argl0.toNat).drop 1).map BitVec.toNat, v = 0 ∨ Config.P ≤ v) := by decide +kernel

/-- T = 3: two accepted draws; a FAIL after one; one draw and no more. The parameter and secret clauses are those of
`witness_SplitKMakesSharesFromTheHostsCoefficients`. -/
theorem witness_SplitMakesSharesFromDrawnCoefficients :
    let base := putW (busy 0x31#32 3 16 0) 0 (Config.P - 1)
    (1 ≤ base.argl0.toNat ∧ base.argl0.toNat ≤ base.argl1.toNat ∧ base.argl1.toNat ≤ 16 ∧
      (readW base 0).toNat < Config.P) ∧
    ([1, Config.P - 1].length + 1 = base.argl0.toNat ∧
      (fieldDraws (putAnswers base [bitsOf 1, bitsOf 0, bitsOf (Config.P - 1), .fail]).answers).take 2 =
        [1, Config.P - 1].map some) ∧
    ([5].length + 1 < base.argl0.toNat ∧
      (fieldDraws (putAnswers base [bitsOf 5, .fail]).answers).take ([5].length + 1) = [5].map some ++ [none]) ∧
    (fieldDraws (putAnswers base [bitsOf 5, bitsOf Config.P]).answers = [5].map some) := by decide +kernel

theorem witness_ReconInterpolatesAtZero :
    let xs := (List.range 16).map fun i => Config.P - 1 - i
    let s := putTables (busy 0x532#32 16 0 0) [] xs (List.replicate 16 (Config.P - 1))
    let x (t : State) (i : Nat) : Nat := ((t.shx[i]?).getD 0).toNat
    let y (t : State) (i : Nat) : Nat := ((t.shy[i]?).getD 0).toNat
    let bad := putTables (busy 0x532#32 2 0 0) [] [0, 1] [5, 6]
    let badY := putTables (busy 0x532#32 1 0 0) [] [1] [Config.P]
    let dup := putTables (busy 0x532#32 2 0 0) [] [1, 1] [5, 6]
    (1 ≤ s.argl0.toNat ∧ s.argl0.toNat ≤ 16 ∧ (∀ i < 16, 1 ≤ x s i ∧ x s i < Config.P ∧ y s i < Config.P) ∧
      ∀ i < 16, ∀ j < 16, x s i = x s j → i = j) ∧
    ((busy 0#32 0 0 0).argl0.toNat < 1 ∧ 16 < (busy 0#32 17 0 0).argl0.toNat) ∧
    (∃ i < 2, x bad i = 0 ∨ Config.P ≤ x bad i ∨ Config.P ≤ y bad i) ∧
    (∃ i < 1, x badY i = 0 ∨ Config.P ≤ x badY i ∨ Config.P ≤ y badY i) ∧
    ((∀ i < 2, 1 ≤ x dup i ∧ x dup i < Config.P ∧ y dup i < Config.P) ∧ ∃ i < 2, ∃ j < 2, i < j ∧ x dup i = x dup j) := by
  decide +kernel

/-- The statement's `y`, in `witness_ReconInterpolatesAtZero`, for every slot of a state. -/
theorem witness_recon_tables (s : State) : ∃ x y : Nat → Nat,
    ∀ i : Fin 16, x i.val = (s.shx[i]).toNat ∧ y i.val = (s.shy[i]).toNat :=
  ⟨fun i => ((s.shx[i]?).getD 0).toNat, fun i => ((s.shy[i]?).getD 0).toNat, fun i => by simp⟩

/-- S3's split, and its shares 5, 3 and 1 in slots 0, 1 and 2 of another unit. -/
theorem witness_AnyThresholdOfSharesReconstructs :
    let s := putTables (putW (busy 0x01000031#32 3 6 0) 0 1234567890) [0, 166, 94] [] []
    let pick (i : Nat) : Nat := 4 - 2 * i
    let u := putTables (busy 0x532#32 3 0 0) [] [5, 3, 1] [1234571070, 1234569234, 1234568150]
    ∃ t, exec (.split 0 true) s = .next t ∧
      (decide (t.eng = .idle) && decide (t.errcode = .ok) && decide (s.eng = .busy) &&
        decide (s.argl0.toNat ≤ u.argl0.toNat) && decide (u.argl0.toNat ≤ 16) &&
        decide (∀ i < u.argl0.toNat, pick i < s.argl1.toNat) &&
        decide (∀ i < u.argl0.toNat, ∀ j < u.argl0.toNat, pick i = pick j → i = j) &&
        decide (∀ i < u.argl0.toNat, u.shx[i]? = t.shx[pick i]? ∧ u.shy[i]? = t.shy[pick i]?)) = true :=
  exists_next (by decide +kernel)

theorem witness_BigEndianByteStrings : 31 < (be32 1#256).length ∧ 11 < (be12 1).length ∧ 15 < (be16 1#128).length := by
  decide +kernel

theorem witness_AencSealsThePayload :
    let s := putAnswers (busy 0x8040#32 0 4068 0) [bitsOf (2 ^ 256 - 1)]
    (s.mem.wf = true ∧ s.argl0.toNat + s.argl1.toNat ≤ 4096 ∧ s.argl2.toNat + s.argl1.toNat + 28 ≤ 4096 ∧
      s.answers = .bits (BitVec.ofNat 256 (2 ^ 256 - 1)) :: []) ∧
    4096 < (busy 0x8040#32 4095 2 0).argl0.toNat + (busy 0x8040#32 4095 2 0).argl1.toNat ∧
    4096 < (busy 0x8040#32 0 0 4069).argl2.toNat + (busy 0x8040#32 0 0 4069).argl1.toNat + 28 ∧
    ((busy 0x8040#32 4096 0 4068).argl0.toNat + (busy 0x8040#32 4096 0 4068).argl1.toNat ≤ 4096 ∧
      (busy 0x8040#32 4096 0 4068).argl2.toNat + (busy 0x8040#32 4096 0 4068).argl1.toNat + 28 ≤ 4096 ∧
      (putAnswers (busy 0x8040#32 4096 0 4068) [.fail]).answers = .fail :: [] ∧
      (busy 0x8040#32 4096 0 4068).answers = []) := by decide +kernel

/-- A blob of `pt` under key W[8] = 0 and nonce `nonce`, at BUF[64..). -/
def blobMem (nonce pt : List Byte) : Memory :=
  memWriteBytes [] (0x1000 + 64) (nonce ++ Config.aead.sealBytes (be32 0#256) nonce [] pt)

/-- What ADEC reads of it, and that it opens. -/
theorem blobMem_opens (nonce pt : List Byte) (hn : nonce.length = 12) :
    (blobMem nonce pt).wf = true ∧
    Config.aead.openBytes (be32 0#256) (memReadBytes (blobMem nonce pt) (0x1000 + 64) 12) []
      (memReadBytes (blobMem nonce pt) (0x1000 + 64 + 12) (pt.length + 28 - 12)) = some pt := by
  have hl : (nonce ++ Config.aead.sealBytes (be32 0#256) nonce [] pt).length = pt.length + 28 := by
    simp [Config.aead.sealBytes_length, hn]
    omega
  have h := memReadBytes_memWriteBytes (m := []) rfl (0x1000 + 64)
    (nonce ++ Config.aead.sealBytes (be32 0#256) nonce [] pt)
  rw [hl] at h
  refine ⟨wf_memWriteBytes (m := []) rfl _ _, ?_⟩
  rw [← take_memReadBytes (blobMem nonce pt) (0x1000 + 64) (show 12 ≤ pt.length + 28 by omega),
    ← drop_memReadBytes (blobMem nonce pt) (0x1000 + 64) (pt.length + 28) 12, blobMem, h, List.take_left' hn,
    List.drop_left' hn]
  exact Config.aead.openBytes_sealBytes _ _ _ _ (by simp) hn

/-- Clause by clause: a blob that opens to "hello"; the four range and length errors at their boundaries. That some
blob does not open is the open algorithm's to decide (`witness_some_algorithm_rejects`). -/
theorem witness_AdecOpensTheBlob :
    let s := { busy 0x8041#32 64 33 4091 with mem := blobMem (be12 1) [0x68#8, 0x65#8, 0x6C#8, 0x6C#8, 0x6F#8] }
    (s.mem.wf = true ∧ s.argl0.toNat + s.argl1.toNat ≤ 4096 ∧ 28 ≤ s.argl1.toNat ∧
      s.argl2.toNat + (s.argl1.toNat - 28) ≤ 4096 ∧
      Config.aead.openBytes (be32 (readW s 8)) (memReadBytes s.mem (0x1000 + 64) 12) []
        (memReadBytes s.mem (0x1000 + 64 + 12) (33 - 12)) = some [0x68#8, 0x65#8, 0x6C#8, 0x6C#8, 0x6F#8] ∧
      [0x68#8, 0x65#8, 0x6C#8, 0x6C#8, 0x6F#8].length = 33 - 28) ∧
    4096 < (busy 0x8041#32 4090 7 0).argl0.toNat + (busy 0x8041#32 4090 7 0).argl1.toNat ∧
    ((busy 0x8041#32 4085 11 0).argl0.toNat + (busy 0x8041#32 4085 11 0).argl1.toNat ≤ 4096 ∧
      (busy 0x8041#32 4085 11 0).argl1.toNat < 12) ∧
    (12 ≤ (busy 0x8041#32 0 12 0).argl1.toNat ∧ (busy 0x8041#32 0 27 0).argl1.toNat < 28) ∧
    (28 ≤ (busy 0x8041#32 64 33 4092).argl1.toNat ∧
      4096 < (busy 0x8041#32 64 33 4092).argl2.toNat + ((busy 0x8041#32 64 33 4092).argl1.toNat - 28)) := by
  have h := blobMem_opens (be12 1) [0x68#8, 0x65#8, 0x6C#8, 0x6C#8, 0x6F#8] (by simp)
  have hk : readW (busy 0x8041#32 64 33 4091) 8 = 0#256 := by decide +kernel
  refine ⟨⟨h.1, by decide +kernel, by decide +kernel, by decide +kernel, ?_, rfl⟩, by decide +kernel, by decide +kernel,
    by decide +kernel, by decide +kernel⟩
  show Config.aead.openBytes (be32 (readW (busy 0x8041#32 64 33 4091) 8)) _ _ _ = _
  rw [hk]
  exact h.2

/-- An AEAD_ALG with the laws of R14 and R15 that opens only tags of zeros: the premise `opened = none` of `AdecOpensTheBlob` is met
by some algorithm the spec allows. -/
def pickyAead : AeadAlg where
  sealBytes _ _ _ pt := pt ++ List.replicate 16 0#8
  openBytes _ _ _ ct :=
    if 16 ≤ ct.length ∧ ct.drop (ct.length - 16) = List.replicate 16 0#8 then some (ct.take (ct.length - 16)) else none
  sealBytes_length _ _ _ pt := by simp
  openBytes_sealBytes _ _ _ pt _ _ := by simp

theorem witness_some_algorithm_rejects :
    pickyAead.openBytes (be32 0#256) (be12 1) [] (List.replicate 16 1#8) = none := by decide +kernel

theorem witness_AeadRoundTrip :
    let s := putAnswers (busy 0x8040#32 0 5 64) [bitsOf 1]
    (s.argl0.toNat = 0 ∧ s.argl1.toNat = 5 ∧ s.argl2.toNat = 64 ∧ s.mem.wf = true ∧ 0 + 5 ≤ 4096 ∧ 64 + 5 + 28 ≤ 4096 ∧
      s.answers = .bits (BitVec.ofNat 256 1) :: []) ∧
    ∃ t, exec (.aenc 8) s = .next t ∧ t.mem.wf = true ∧
      { t with argl0 := 64#32, argl1 := 33#32, argl2 := 200#32 }.argl1.toNat = 5 + 28 ∧ 200 + 5 ≤ 4096 ∧
      readW { t with argl0 := 64#32, argl1 := 33#32, argl2 := 200#32 } 8 = readW s 8 := by
  refine ⟨by decide +kernel, ?_⟩
  rcases exec_cases (.aenc 8) (putAnswers (busy 0x8040#32 0 5 64) [bitsOf 1]) with
    ⟨n, h, -⟩ | ⟨c, -, -, hn, h⟩ | ⟨u, -, hf, h⟩
  · have hr : commandRequest (.aenc 8) (putAnswers (busy 0x8040#32 0 5 64) [bitsOf 1]) = none := by decide +kernel
    rw [hr] at h
    cases h
  · have : after (.aenc 8) (putAnswers (busy 0x8040#32 0 5 64) [bitsOf 1]) (fun t => t.errcode) = some .ok := by
      decide +kernel
    simp only [after, h, nextOf, Option.map_some, Option.some.injEq] at this
    exact absurd this hn
  · refine ⟨_, h, hf.mem.1 rfl, rfl, by decide, ?_⟩
    have : after (.aenc 8) (putAnswers (busy 0x8040#32 0 5 64) [bitsOf 1]) (fun t => readW t 8) = some 0#256 := by
      decide +kernel
    simp only [after, h, nextOf, Option.map_some, Option.some.injEq] at this
    show readW (succeeded u) 8 = _
    rw [this]
    decide +kernel

/-- A failing FINV (the i ≠ DCHK clause) and a failing DCHK. -/
theorem witness_FailingCommandsChangeNothingElse :
    ((busy 0x120B#32 0 0 0).eng = .busy ∧ ∃ t, exec (.finv 2 1) (busy 0x120B#32 0 0 0) = .next t ∧
      (decide (t.eng = .idle) && decide (t.errcode ≠ .ok)) = true) ∧
    ∃ t, exec .dchk (busy 0x22#32 0 0 0) = .next t ∧ (decide (t.eng = .idle) && decide (t.errcode ≠ .ok)) = true :=
  ⟨⟨rfl, exists_next (by decide +kernel)⟩, exists_next (by decide +kernel)⟩

theorem witness_CommandsRaiseOnlyTheirCodes :
    (busy 0x31#32 0 1 0).eng = .busy ∧ ∃ t, exec (.split 0 false) (busy 0x31#32 0 1 0) = .next t ∧
      (decide (t.eng = .idle) && decide (t.errcode ≠ .ok)) = true := ⟨rfl, exists_next (by decide +kernel)⟩

theorem witness_CommandsLeaveTheHostsRegisters :
    ∃ t, exec .nop { busy 0#32 0 0 0 with errcmd := 7#32 } = .next t ∧ decide (t.errcode = .ok) = true :=
  exists_next (by decide +kernel)

/-- Two states that differ in IE, OVR, ACCERR, DONE, ARG0 and the pending input. -/
theorem witness_CommandsReadOnlyStorageDictValidLatchAndAnswers :
    let s := putW (busy 0x120B#32 0 0 0) 1 3
    let s' := { s with ie := true, ovr := true, accerr := true, done := true, arg0 := 9#32, inputs := [.engine] }
    SameCommandView s s' ∧ s'.res0 = s.res0 ∧ s.eng = .busy ∧
    (∃ t, exec (.finv 2 1) s = .next t ∧ decide (t.eng = .idle) = true) ∧
    ∃ t, exec (.finv 2 1) s' = .next t ∧ decide (t.eng = .idle) = true :=
  ⟨⟨rfl, rfl, rfl, rfl, rfl, rfl, rfl, rfl, rfl, rfl, rfl, rfl, rfl⟩, rfl, rfl, exists_next (by decide +kernel),
    exists_next (by decide +kernel)⟩

theorem witness_EngineWaitsExactlyOnARequest :
    ((busy 0x10#32 0 0 0).eng = .busy ∧ entropyRequest (busy 0x10#32 0 0 0) ≠ none) ∧
    ((busy 0x22#32 0 0 0).eng = .busy ∧ entropyRequest (busy 0x22#32 0 0 0) = none) := by decide +kernel

theorem witness_OnlyDrawingCommandsWaitAndTheyHang :
    (commandRequest (.rnd256 0) (busy 0x10#32 0 0 0) = some 256 ∧ commandRequest (.rndf 0) (busy 0x11#32 0 0 0) = some 127 ∧
      commandRequest (.split 0 false) (busy 0x31#32 2 2 0) = some 127 ∧
      commandRequest (.aenc 8) (busy 0x8040#32 0 0 4068) = some 96) ∧
    ((busy 0x10#32 0 0 0).inputs = [] ∧ entropyRequest (busy 0x10#32 0 0 0) ≠ none) ∧
    (busy 0x10#32 0 0 0).rstN = true := by decide +kernel

theorem witness_EntropyAnswersGoToTheOutstandingRequest :
    entropyRequest State.reset = none ∧ entropyRequest (busy 0x10#32 0 0 0) ≠ none ∧ State.reset.eng = .idle := by
  decide +kernel

theorem witness_IrqFollowsIeAndDone :
    ((busy 0#32 0 0 0).eng = .busy ∧ (nextOf (engineStep (busy 0#32 0 0 0))).map (fun t => t.eng) = some .idle) ∧
    State.reset.rstN = true ∧ State.reset.eng = .idle ∧ (2#32).getLsbD 1 = true ∧
    ((4#32).getLsbD 0 = false ∧ (4#32).getLsbD 1 = false) := by decide +kernel

theorem witness_ConstantRegistersAreConstant :
    State.reset.rstN = true ∧
    (0x0000#16, 0x424B5507#32) ∈ [(0x0000#16, 0x424B5507#32), (0x0024#16, 0x10001010#32), (0x0040#16, 0xFFFFFFFF#32),
      (0x0044#16, 0xFFFFFFFF#32), (0x0048#16, 0xFFFFFFFF#32), (0x004C#16, 0x7FFFFFFF#32)] ∧
    (0x004C#16, 0x7FFFFFFF#32) ∈ [(0x0000#16, 0x424B5507#32), (0x0024#16, 0x10001010#32), (0x0040#16, 0xFFFFFFFF#32),
      (0x0044#16, 0xFFFFFFFF#32), (0x0048#16, 0xFFFFFFFF#32), (0x004C#16, 0x7FFFFFFF#32)] := by decide

theorem witness_CtrlHoldsIeAndSoftResets :
    State.reset.rstN = true ∧ (0xFFFFFFFD#32).getLsbD 1 = false ∧ (0xFFFFFFFF#32).getLsbD 1 = true := by decide

/-- Also the premise of `StatusFieldsAndAcknowledgement` and `ArgAndResultRegisters`. -/
theorem witness_CmdWriteIsAcceptedWhenIdle : State.reset.rstN = true ∧ State.reset.eng = .idle := ⟨rfl, rfl⟩

theorem witness_StatusFieldsAndAcknowledgement : (busy 0#32 0 0 0).rstN = true := rfl

theorem witness_ArgAndResultRegisters : (busy 0#32 0 0 0).rstN = true := rfl

theorem witness_CmdWriteWhileBusyIsDropped : (busy 0x10#32 0 0 0).rstN = true ∧ (busy 0x10#32 0 0 0).eng = .busy := ⟨rfl, rfl⟩

/-- The statement's `mapped`. -/
def isMapped (a : BitVec 16) : Bool :=
  decide (a.toNat % 4 = 0 ∧ (a.toNat ≤ 0x0024 ∨ (0x0040 ≤ a.toNat ∧ a.toNat ≤ 0x004F) ∨
    (0x0100 ≤ a.toNat ∧ a.toNat ≤ 0x02FF) ∨ (0x0400 ≤ a.toNat ∧ a.toNat ≤ 0x06FF) ∨
    (0x0700 ≤ a.toNat ∧ a.toNat ≤ 0x075F) ∨ (0x0780 ≤ a.toNat ∧ a.toNat ≤ 0x078F) ∨
    (0x1000 ≤ a.toNat ∧ a.toNat ≤ 0x1FFF) ∨ 0x8000 ≤ a.toNat))

/-- The edges of the map: the last unmapped and the first and last mapped offsets around its gaps. -/
theorem witness_SlverrExactlyOutsideTheMap :
    State.reset.rstN = true ∧
    ([0x0001#16, 0xFFFE#16, 0x0028#16, 0x003C#16, 0x0050#16, 0x00FC#16, 0x0300#16, 0x03FC#16, 0x0760#16, 0x077C#16,
      0x0790#16, 0x0FFC#16, 0x2000#16, 0x7FFC#16].all fun a => !isMapped a) = true ∧
    ([0x0000#16, 0x0024#16, 0x0040#16, 0x004C#16, 0x0100#16, 0x02FC#16, 0x0400#16, 0x06FC#16, 0x0700#16, 0x075C#16,
      0x0780#16, 0x078C#16, 0x1000#16, 0x1FFC#16, 0x8000#16, 0xFFFC#16].all isMapped) = true :=
  ⟨rfl, by decide +kernel, by decide +kernel⟩

theorem witness_OperandStorageIsBlockedWhileBusy :
    (busy 0x10#32 0 0 0).rstN = true ∧ (busy 0x10#32 0 0 0).eng = .busy ∧
    ((0xFFFC#16).toNat % 4 = 0 ∧ 0x8000 ≤ (0xFFFC#16).toNat) ∧ ((0x0100#16).toNat % 4 = 0 ∧ 0x0100 ≤ (0x0100#16).toNat) ∧
    ((0x004C#16).toNat % 4 = 0 ∧ 0x0040 ≤ (0x004C#16).toNat ∧ (0x004C#16).toNat ≤ 0x004F ∧ 0x004C#16 ≠ 0x0004#16 ∧
      0x004C#16 ≠ 0x0008#16) := by decide

theorem witness_WideValuesArePackedInWords :
    State.reset.rstN = true ∧ State.reset.eng = .idle ∧ (0x02FC#16).toNat = 0x0100 + 32 * 15 + 4 * 7 ∧
    (0x04FC#16).toNat = 0x0400 + 16 * 15 + 4 * 3 ∧ (0x05FC#16).toNat = 0x0500 + 16 * 15 + 4 * 3 ∧
    (0x06FC#16).toNat = 0x0600 + 16 * 15 + 4 * 3 := by decide

theorem witness_IdxSlotsHoldElevenBits :
    State.reset.rstN = true ∧ State.reset.eng = .idle ∧ (0x075C#16).toNat = 0x0700 + 4 * 23 := by decide

theorem witness_ByteWindowsAreLittleEndian :
    (State.reset.rstN = true ∧ State.reset.eng = .idle ∧ State.reset.mem.wf = true) ∧
    ([0x0780#16, 0x078C#16, 0x1000#16, 0x1FFC#16, 0x8000#16, 0xFFFC#16].all fun a => decide (a.toNat % 4 = 0 ∧
      ((0x0780 ≤ a.toNat ∧ a.toNat ≤ 0x078F) ∨ (0x1000 ≤ a.toNat ∧ a.toNat ≤ 0x1FFF) ∨ 0x8000 ≤ a.toNat))) = true := by
  decide +kernel

theorem witness_ReadsAndRepeatedWritesHaveNoFurtherEffect :
    State.reset.mem.wf = true ∧ 0x0008#16 ≠ 0x000C#16 ∧ State.reset.eng = .idle := by decide +kernel

/-- The one step that sets DICT_VALID: DCHK on the test dictionary. -/
theorem witness_OnlyDchkSetsDictValid :
    ∃ t, step (dictBusy 0x00000022#32 0 [] false) = .next t ∧ (dictBusy 0x00000022#32 0 [] false).dictValid = false ∧
      t.dictValid = true := by
  exact ⟨_, test_dchk_passes, rfl, rfl⟩

theorem witness_HostCannotDisturbACommandInFlight :
    (busy 0x10#32 0 0 0).eng = .busy ∧ (busy 0x10#32 0 0 0).rstN = true ∧
    ∀ v, Txn.write 0x0004#16 0xFFFFFFFD#32 = .write 0x0004#16 v → v.getLsbD 1 = false := by
  refine ⟨rfl, rfl, fun v h => ?_⟩
  cases h
  rfl

/-- A busy unit with a dictionary validated, and its step; and a unit held in reset. -/
theorem witness_StepKeepsTheInvariant :
    Safety.Inv (dictBusy 0x00000010#32 0 [] true) ∧ ∃ t, step (dictBusy 0x00000010#32 0 [] true) = .next t := by
  refine ⟨⟨?_, ?_, fun _ => ?_, fun _ => rfl, fun h => (by cases h), fun h => (by cases h)⟩, _, rfl⟩
  · exact wf_memWriteBytes (wf_dictOf testWord) _ _
  · exact inWindows_memWriteBytes (inWindows_dictOf testWord) (by simp)
  · exact test_dictOk (testMem_dict (by simp))

theorem witness_HardwareResetErasesEverything :
    Safety.Inv { State.reset with rstN := false } ∧ { State.reset with rstN := false }.rstN = false :=
  ⟨⟨rfl, rfl, fun h => (by cases h), fun h => (by cases h), fun _ => rfl, fun _ => rfl⟩, rfl⟩

end Sys2Proof.Tests
end

section
/-! ## Big-endian byte strings (00_scope.md R11) -/

namespace Sys2Proof.Machine

/-- Counting from the top, byte `i` of the string is an 8-bit field of the value. -/
theorem toBytesBE_toNat_getElem (n : Nat) {w : Nat} (v : BitVec w) (i : Nat)
    (h : i < (toBytesBE n v.toNat).length) :
    (toBytesBE n v.toNat)[i] = v.extractLsb' (8 * (n - 1) - 8 * i) 8 := by
  rw [toBytesBE_getElem, Nat.mul_sub, BitVec.extractLsb']

/-- An `8n`-bit value fits the `n` bytes of its string, so int_be recovers it. -/
theorem intBE_toBytesBE_toNat (n : Nat) (v : BitVec (8 * n)) : intBE (toBytesBE n v.toNat) = v.toNat := by
  have hv : v.toNat < 256 ^ n := by
    simpa [Nat.pow_mul] using v.isLt
  exact intBE_toBytesBE n v.toNat hv

/-- What R11 says of `be32`, `be12` and `be16`, at every width of whole bytes. -/
theorem toBytesBE_toNat_bigEndian (n : Nat) (v : BitVec (8 * n)) :
    (toBytesBE n v.toNat).length = n ∧ intBE (toBytesBE n v.toNat) = v.toNat ∧
      ∀ (i : Nat) (h : i < (toBytesBE n v.toNat).length),
        (toBytesBE n v.toNat)[i] = v.extractLsb' (8 * (n - 1) - 8 * i) 8 :=
  ⟨toBytesBE_length n v.toNat, intBE_toBytesBE_toNat n v, toBytesBE_toNat_getElem n v⟩

/-- Settles O31: the three strings are the 32-, 12- and 16-byte instances of one fact about `toBytesBE`. -/
theorem bigEndianByteStrings : Obligations.BigEndianByteStrings :=
  ⟨toBytesBE_toNat_bigEndian 32, toBytesBE_toNat_bigEndian 12, toBytesBE_toNat_bigEndian 16⟩

end Sys2Proof.Machine
end

section
/-! ## What each agent's step can do (00_scope.md R5) -/

namespace Sys2Proof.Machine

open Sys2Proof.Safety

/-- A failing command completes on the old state, or (DCHK) on it with DICT_VALID cleared. -/
theorem failureBase_cases (i : Instr) (s : State) :
    failureBase i s = s ∨ failureBase i s = { s with dictValid := false } := by
  cases i
  case dchk => exact .inr rfl
  all_goals exact .inl rfl

/-- The engine's turn: nothing (idle, or waiting), an error, or the completion of a command in flight. -/
theorem engineStep_cases {s t : State} (h : engineStep s = .next t) :
    t = s ∨
    (∃ c u, t = failedWith c u ∧ (u = s ∨ u = { s with dictValid := false })) ∨
    (∃ i u, s.eng = .busy ∧ decode s.cmdl = .ok i ∧ CommitFrame i s u ∧ t = succeeded u) := by
  unfold engineStep at h
  split at h
  case h_1 => exact .inl (Host.Outcome.next.inj h).symm
  case h_2 hbusy =>
    split at h
    case h_1 i hi =>
      rcases exec_cases i s with ⟨_, -, he⟩ | ⟨c, -, -, -, he⟩ | ⟨u, -, hframe, he⟩
      all_goals obtain rfl := Host.Outcome.next.inj (he.symm.trans h)
      · exact .inl rfl
      · exact .inr (.inl ⟨c, _, rfl, failureBase_cases i s⟩)
      · exact .inr (.inr ⟨i, u, hbusy, hi, hframe, rfl⟩)
    case h_2 => exact .inr (.inl ⟨.illegalCmd, s, (Host.Outcome.next.inj h).symm, .inl rfl⟩)

/-- A step is one agent's, on the state that the taken input has left. -/
theorem step_cases {s t : State} (h : step s = .next t) :
    ∃ es, engineStep { s with inputs := es } = .next t ∨
      (∃ x, t = busStep x { s with inputs := es }) ∨
      (∃ a, t = entropyStep a { s with inputs := es }) ∨
      t = { s with inputs := es } ∨
      (∃ l, t = rstStep l { s with inputs := es }) := by
  unfold step nextStep at h
  split at h
  case h_1 hin => exact ⟨[], .inl (hin ▸ h)⟩
  case h_2 e es _ =>
    refine ⟨es, ?_⟩
    cases e with
    | engine => exact .inl h
    | bus x => exact .inr (.inl ⟨x, (Host.Outcome.next.inj h).symm⟩)
    | entropy a => exact .inr (.inr (.inl ⟨a, (Host.Outcome.next.inj h).symm⟩))
    | lateEntropy a => exact .inr (.inr (.inr (.inl (Host.Outcome.next.inj h).symm)))
    | rst l => exact .inr (.inr (.inr (.inr ⟨l, (Host.Outcome.next.inj h).symm⟩)))

/-- The entropy source only appends an answer to those of a command in flight. -/
theorem entropyStep_cases (a : Answer) (s : State) :
    entropyStep a s = s ∨ (s.eng = .busy ∧ entropyStep a s = { s with answers := s.answers ++ [a] }) := by
  unfold entropyStep
  split
  · exact .inl rfl
  case h_2 hreq =>
    refine .inr ⟨?_, rfl⟩
    cases heng : s.eng with
    | idle => simp [entropyRequest, heng] at hreq
    | busy => rfl

/-- A change of the reset pin resets the unit, or the pin already stood high. -/
theorem rstStep_cases (l : Bool) (s : State) : rstStep l s = s ∨ rstStep l s = resetUnit l s := by
  unfold rstStep
  split
  · exact .inr rfl
  · exact .inr rfl
  · exact .inl rfl

end Sys2Proof.Machine
end

section
/-! ## The invariant of the machine -/

namespace Sys2Proof.Machine

open Sys2Proof.Safety

theorem inv_resetUnit (l : Bool) (s : State) : Inv (resetUnit l s) :=
  ⟨rfl, rfl, nofun, nofun, fun _ => rfl, fun _ => rfl⟩

theorem inv_failedWith {s : State} (h : Inv s) (c : ErrCode) : Inv (failedWith c s) :=
  { h with busyNotDone := nofun, idleNoAnswers := fun _ => rfl, resetIdle := fun _ => rfl }

theorem inv_clearDictValid {s : State} (h : Inv s) : Inv { s with dictValid := false } :=
  { h with dictSound := nofun }

/-- A committed state has the old dictionary bytes, so DICT_VALID stays sound when kept, and DCHK sets it on a
dictionary that passes. -/
theorem CommitFrame.dictSound {i : Instr} {s u : State} (hf : CommitFrame i s u) (h : Inv s) (hv : u.dictValid = true) :
    dictOk u.mem = true := by
  have hmem : dictOk u.mem = dictOk s.mem := dictOk_congr fun a ha => hf.mem.2.1 a (.inr (by omega))
  rw [hmem]
  rcases hf.dict with hkept | ⟨-, -, hok⟩
  · exact h.dictSound (hkept ▸ hv)
  · exact hok

theorem inv_succeeded {i : Instr} {s u : State} (h : Inv s) (hf : CommitFrame i s u) : Inv (succeeded u) where
  memWf := hf.mem.1 h.memWf
  memIn := hf.mem.2.2 h.memIn
  dictSound := hf.dictSound h
  busyNotDone := nofun
  idleNoAnswers _ := rfl
  resetIdle _ := rfl

theorem engineStep_keeps_inv {s t : State} (h : Inv s) (hs : engineStep s = .next t) : Inv t := by
  rcases engineStep_cases hs with rfl | ⟨c, u, rfl, rfl | rfl⟩ | ⟨i, u, -, -, hf, rfl⟩
  · exact h
  · exact inv_failedWith h c
  · exact inv_failedWith (inv_clearDictValid h) c
  · exact inv_succeeded h hf

theorem entropyStep_keeps_inv {s : State} (h : Inv s) (a : Answer) : Inv (entropyStep a s) := by
  rcases entropyStep_cases a s with e | ⟨hbusy, e⟩ <;> rw [e]
  · exact h
  · exact { h with idleNoAnswers := fun hidle => Eng.noConfusion (hbusy.symm.trans hidle) }

/-- The only command that can start a command in flight is an idle unit's CMD write, which clears DONE. -/
theorem inv_writeCmd {s : State} (h : Inv s) (hr : s.rstN = true) (v : Word) : Inv (writeCmd v s) := by
  unfold writeCmd
  split
  · exact { h with
      busyNotDone := fun _ => rfl
      idleNoAnswers := fun _ => rfl
      resetIdle := fun e => Bool.noConfusion (hr.symm.trans e) }
  · exact { h with }

theorem inv_writeCtrl {s : State} (h : Inv s) (v : Word) : Inv (writeCtrl v s) := by
  unfold writeCtrl
  split
  · exact inv_resetUnit _ s
  · exact { h with }

theorem inv_acknowledge {s : State} (h : Inv s) (v : Word) : Inv (acknowledge v s) :=
  { h with busyNotDone := fun hb => by simp [h.busyNotDone hb] }

/-- `inWindows_memWriteBytes` for the four bytes of a word. -/
theorem inWindows_memWriteWord {m : Memory} (h : inWindows m = true) {a : Nat} (v : Word)
    (ha : (0x0780 ≤ a ∧ a + 4 ≤ 0x0790) ∨ (0x1000 ≤ a ∧ a + 4 ≤ 0x2000) ∨ (0x8000 ≤ a ∧ a + 4 ≤ 0x10000)) :
    inWindows (memWriteWord m a v) = true :=
  inWindows_memWriteBytes h ha

/-- A word written below DICT leaves the dictionary as it is. -/
theorem inv_writeWord_belowDict {s : State} (h : Inv s) {a : Nat} (v : Word)
    (ha : (0x0780 ≤ a ∧ a + 4 ≤ 0x0790) ∨ (0x1000 ≤ a ∧ a + 4 ≤ 0x2000)) :
    Inv { s with mem := memWriteWord s.mem a v } :=
  { h with
    memWf := wf_memWriteWord h.memWf a v
    memIn := inWindows_memWriteWord h.memIn v (by omega)
    dictSound := fun hv => by
      rw [dictOk_congr fun x hx => memRead_memWriteWord_outside v (.inr (by omega))]
      exact h.dictSound hv }

/-- A word written to DICT clears DICT_VALID (10_state.md R41). -/
theorem inv_writeWord_dict {s : State} (h : Inv s) {a : Nat} (v : Word) (ha : 0x8000 ≤ a ∧ a + 4 ≤ 0x10000) :
    Inv { s with mem := memWriteWord s.mem a v, dictValid := false } :=
  { h with
    memWf := wf_memWriteWord h.memWf a v
    memIn := inWindows_memWriteWord h.memIn v (.inr (.inr ha))
    dictSound := nofun }

theorem inv_writeTarget {s : State} (h : Inv s) (hr : s.rstN = true) (v : Word) {tg : Target} (hv : validTarget tg)
    (hlt : offsetOf tg < 2 ^ 16) : Inv (writeTarget v s tg) := by
  cases tg
  case ctrl => exact inv_writeCtrl h v
  case status => exact inv_acknowledge h v
  case cmd => exact inv_writeCmd h hr v
  case wordbuf a =>
    obtain ⟨hlo, hhi, h4⟩ := hv
    exact inv_writeWord_belowDict h v (by omega)
  case buf a =>
    obtain ⟨hlo, hhi, h4⟩ := hv
    exact inv_writeWord_belowDict h v (by omega)
  case dict a =>
    obtain ⟨hlo, h4⟩ := hv
    have hlt : a < 2 ^ 16 := hlt
    exact inv_writeWord_dict h v (by omega)
  all_goals exact { h with }

theorem busStep_keeps_inv {s : State} (h : Inv s) (x : Txn) : Inv (busStep x s) := by
  rcases busStep_cases x s with ⟨b, acc, e⟩ | ⟨hr, a, v, tg, -, ht, -, e⟩ <;> rw [e]
  · exact { h with }
  · obtain ⟨hoff, hv⟩ := target_eq_some.mp ht
    have hw : Inv (writeTarget v s tg) := inv_writeTarget h hr v hv (hoff ▸ a.isLt)
    exact { hw with }

theorem rstStep_keeps_inv {s : State} (h : Inv s) (l : Bool) : Inv (rstStep l s) := by
  rcases rstStep_cases l s with e | e <;> rw [e]
  · exact h
  · exact inv_resetUnit l s

/-- Settles O60, agent by agent; taking an input from the list touches nothing the invariant speaks of. -/
theorem stepKeepsTheInvariant : Obligations.StepKeepsTheInvariant := by
  intro s t h hs
  obtain ⟨es, hs⟩ := step_cases hs
  have h' : Inv { s with inputs := es } := { h with }
  rcases hs with he | ⟨x, rfl⟩ | ⟨a, rfl⟩ | rfl | ⟨l, rfl⟩
  · exact engineStep_keeps_inv h' he
  · exact busStep_keeps_inv h' x
  · exact entropyStep_keeps_inv h' a
  · exact h'
  · exact rstStep_keeps_inv h' l

end Sys2Proof.Machine
end

section
/-! ## DICT_VALID (10_state.md R41) -/

namespace Sys2Proof.Machine

open Sys2Proof.Safety

theorem writeTarget_dictValid {v : Word} {s : State} {tg : Target} (h : (writeTarget v s tg).dictValid = true) :
    s.dictValid = true := by
  cases tg
  case ctrl =>
    simp only [writeTarget, writeCtrl] at h
    split at h
    · exact Bool.noConfusion h
    · exact h
  case cmd =>
    simp only [writeTarget, writeCmd] at h
    split at h <;> exact h
  case dict => exact Bool.noConfusion h
  all_goals exact h

theorem busStep_dictValid {x : Txn} {s : State} (h : (busStep x s).dictValid = true) : s.dictValid = true := by
  rcases busStep_cases x s with ⟨b, acc, e⟩ | ⟨-, a, v, tg, -, -, -, e⟩ <;> rw [e] at h
  · exact h
  · exact writeTarget_dictValid h

theorem entropyStep_dictValid {a : Answer} {s : State} (h : (entropyStep a s).dictValid = true) :
    s.dictValid = true := by
  rcases entropyStep_cases a s with e | ⟨-, e⟩ <;> rw [e] at h <;> exact h

theorem rstStep_dictValid {l : Bool} {s : State} (h : (rstStep l s).dictValid = true) : s.dictValid = true := by
  rcases rstStep_cases l s with e | e <;> rw [e] at h
  · exact h
  · exact Bool.noConfusion h

/-- An engine's turn that sets DICT_VALID is the successful completion of DCHK. -/
theorem engineStep_sets_dictValid {s t : State} (hs : engineStep s = .next t) (h0 : s.dictValid = false)
    (h1 : t.dictValid = true) :
    s.eng = .busy ∧ decode s.cmdl = .ok .dchk ∧ t.eng = .idle ∧ t.errcode = .ok ∧ dictOk s.mem = true := by
  rcases engineStep_cases hs with rfl | ⟨c, u, rfl, rfl | rfl⟩ | ⟨i, u, hbusy, hi, hf, rfl⟩
  · exact Bool.noConfusion (h0.symm.trans h1)
  · exact Bool.noConfusion (h0.symm.trans h1)
  · exact Bool.noConfusion h1
  · rcases hf.dict with hkept | ⟨rfl, -, hok⟩
    · exact Bool.noConfusion (h0.symm.trans (hkept.symm.trans h1))
    · exact ⟨hbusy, hi, rfl, rfl, hok⟩

/-- Settles O55: of the agents, only the engine can set the flag. -/
theorem onlyDchkSetsDictValid : Obligations.OnlyDchkSetsDictValid := by
  intro s t hs h0 h1
  obtain ⟨es, hs⟩ := step_cases hs
  rcases hs with he | hs
  · exact engineStep_sets_dictValid (s := { s with inputs := es }) he h0 h1
  · have hkept : s.dictValid = true := by
      rcases hs with ⟨x, rfl⟩ | ⟨a, rfl⟩ | rfl | ⟨l, rfl⟩
      · exact (busStep_dictValid h1 :)
      · exact (entropyStep_dictValid h1 :)
      · exact h1
      · exact (rstStep_dictValid h1 :)
    exact Bool.noConfusion (h0.symm.trans hkept)

end Sys2Proof.Machine
end

section
/-! ## Words of WORDBUF and DICT (10_state.md R32, R34) -/

namespace Sys2Proof.Machine

/-- The word ends at the place of the first 0x00. -/
theorem untilZero_eq_take (bs : List Byte) : untilZero bs = bs.take (bs.findIdx fun b => b = 0#8) := by
  simp [untilZero, List.takeWhile_eq_take_findIdx_not]

/-- The word in the `n` bytes from `base` on. -/
theorem untilZero_memReadBytes (m : Memory) (base n : Nat) {w : List Byte}
    (hw : w = untilZero (memReadBytes m base n)) :
    w.length ≤ n ∧ (∀ (k : Nat) (h : k < w.length), w[k] = memRead m (base + k) ∧ w[k] ≠ 0#8) ∧
    (w.length = n ∨ memRead m (base + w.length) = 0#8) := by
  rw [untilZero_eq_take] at hw
  have hle : (memReadBytes m base n).findIdx (fun b => b = 0#8) ≤ n := by
    simpa using List.findIdx_le_length (xs := memReadBytes m base n)
  have hlen : w.length = (memReadBytes m base n).findIdx (fun b => b = 0#8) := by simp [hw, hle]
  refine ⟨hlen ▸ hle, fun k hk => ?_, ?_⟩
  · have hbyte : w[k] = memRead m (base + k) := by simp [hw]
    have hnot := List.not_of_lt_findIdx (hlen ▸ hk)
    exact ⟨hbyte, by simpa [hbyte] using hnot⟩
  · rcases Nat.lt_or_eq_of_le hle with hlt | heq
    · have hzero := List.findIdx_getElem (w := hlt.trans_eq (memReadBytes_length m base n).symm)
      exact .inr (by simpa [hlen] using hzero)
    · exact .inl (hlen.trans heq)

/-- Settles O22: both places hold a word of 16 bytes. -/
theorem wordsEndAtTheFirstZeroByte : Obligations.WordsEndAtTheFirstZeroByte := by
  rintro m base w (⟨rfl, hw⟩ | ⟨i, -, rfl, hw⟩)
  · exact untilZero_memReadBytes m _ 16 hw
  · exact untilZero_memReadBytes m _ 16 hw

end Sys2Proof.Machine
end

section
/-! ## W registers (10_state.md R28) -/

namespace Sys2Proof.Machine

theorem readW_reset (r : Reg) : readW State.reset r = 0#256 := by
  simp [readW, State.reset]

/-- Settles O16: the laws of `writeW`, whose frame is its definition. -/
theorem wRegistersAreIndependent : Obligations.WRegistersAreIndependent := fun s r _ v =>
  ⟨readW_writeW_same s r v, readW_writeW_other v, rfl, readW_reset r⟩

end Sys2Proof.Machine
end

section
/-! ## Control registers on the bus (10_state.md R17 to R27) -/

namespace Sys2Proof.Machine

theorem validTarget_of_register {tg : Target} (h : isOperandStorage tg = false) : validTarget tg := by
  cases tg
  case wordbuf => exact Bool.noConfusion h
  case buf => exact Bool.noConfusion h
  case dict => exact Bool.noConfusion h
  all_goals trivial

/-- Control registers are read and written at their offset, whether the unit is busy or not. -/
theorem busStep_register {s : State} {a : BitVec 16} (tg : Target) (v : Word) (hr : s.rstN = true)
    (ha : a.toNat = offsetOf tg) (hreg : isOperandStorage tg = false) :
    busStep (.read a) s = respond .okay (some (readTarget s tg)) s ∧
    busStep (.write a v) s = respond .okay none (writeTarget v s tg) :=
  busStep_open hr (target_offsetOf ha (validTarget_of_register hreg)) (by simp [isBlocked, hreg]) v

theorem writeCtrl_ie {v : Word} {s : State} (h : v.getLsbD 1 = false) : writeCtrl v s = { s with ie := v.getLsbD 0 } :=
  if_neg (ne_true_of_eq_false h)

theorem writeCtrl_softReset {v : Word} {s : State} (h : v.getLsbD 1 = true) : writeCtrl v s = resetUnit s.rstN s :=
  if_pos h

theorem writeCmd_idle {s : State} (h : s.eng = .idle) (v : Word) : writeCmd v s = acceptCommand v s := by
  simp [writeCmd, h]

theorem writeCmd_busy {s : State} (h : s.eng = .busy) (v : Word) : writeCmd v s = { s with ovr := true } := by
  simp [writeCmd, h]

theorem ctrlWord_eq (s : State) : ctrlWord s = if s.ie then 1#32 else 0#32 := by
  unfold ctrlWord
  cases s.ie <;> rfl

/-- PMOD0 to PMOD3 hold P = 2^127 − 1 (10_state.md R27). -/
theorem readTarget_pmod (s : State) (k : Fin 4) :
    readTarget s (.pmod k) = if k = 3 then 0x7FFFFFFF#32 else 0xFFFFFFFF#32 := by
  revert k
  exact (by decide +kernel :
    ∀ k : Fin 4, lane (zext128 Config.P) k.val = if k = 3 then 0x7FFFFFFF#32 else 0xFFFFFFFF#32)

/-- Settles O43: each of the six is a register whose write leaves the state. -/
theorem constantRegistersAreConstant : Obligations.ConstantRegistersAreConstant := by
  intro s a c v hr hac
  have pmod (k : Fin 4) {a : BitVec 16} (ha : a.toNat = 0x0040 + 4 * k.val) :=
    busStep_register (.pmod k) v hr ha rfl
  simp only [readTarget_pmod] at pmod
  simp only [List.mem_cons, Prod.mk.injEq, List.not_mem_nil, or_false] at hac
  rcases hac with ⟨rfl, rfl⟩ | ⟨rfl, rfl⟩ | ⟨rfl, rfl⟩ | ⟨rfl, rfl⟩ | ⟨rfl, rfl⟩ | ⟨rfl, rfl⟩
  · exact busStep_register .id v hr rfl rfl
  · exact busStep_register .caps v hr rfl rfl
  · exact pmod 0 rfl
  · exact pmod 1 rfl
  · exact pmod 2 rfl
  · exact pmod 3 rfl

/-- Settles O44: CTRL's read, and the two branches of its write. -/
theorem ctrlHoldsIeAndSoftResets : Obligations.CtrlHoldsIeAndSoftResets := by
  intro s v hr
  obtain ⟨hread, hwrite⟩ := busStep_register (a := 0x0004#16) .ctrl v hr rfl rfl
  refine ⟨?_, fun h => ?_, fun h => ?_⟩
  · rw [hread, readTarget, ctrlWord_eq]
    rfl
  · rw [hwrite, writeTarget, writeCtrl_ie h]
    rfl
  · rw [hwrite, writeTarget, writeCtrl_softReset h, hr]
    rfl

/-- STATUS bits 5:0 (10_state.md R20). -/
theorem statusWord_flags (s : State) :
    (statusWord s).getLsbD 0 = busyFlag s ∧ (statusWord s).getLsbD 1 = s.done ∧
    (statusWord s).getLsbD 2 = errFlag s ∧ (statusWord s).getLsbD 3 = s.dictValid ∧
    (statusWord s).getLsbD 4 = s.ovr ∧ (statusWord s).getLsbD 5 = s.accerr := by
  simp only [statusWord, BitVec.getLsbD_append]
  simp

/-- STATUS.ERRCODE and the reserved fields (10_state.md R20). -/
theorem statusWord_fields (s : State) :
    (statusWord s).extractLsb' 6 2 = 0#2 ∧ (statusWord s).extractLsb' 8 8 = s.errcode.toByte ∧
    (statusWord s).extractLsb' 16 16 = 0#16 := by
  refine ⟨?_, ?_, ?_⟩ <;> refine BitVec.eq_of_getLsbD_eq fun i hi => ?_
  · simp only [statusWord, BitVec.getLsbD_append, BitVec.getLsbD_extractLsb']
    interval_cases i <;> simp
  · simp (disch := omega) only [statusWord, BitVec.getLsbD_append, BitVec.getLsbD_extractLsb', if_neg, if_true,
      Nat.sub_sub, hi, decide_true, Bool.true_and, Nat.add_sub_cancel_left]
  · simp (disch := omega) only [statusWord, BitVec.getLsbD_append, BitVec.getLsbD_extractLsb', if_neg,
      BitVec.getLsbD_zero, Bool.and_false]

/-- Settles O45: the word read is `statusWord`, field by field; the write is `acknowledge`. -/
theorem statusFieldsAndAcknowledgement : Obligations.StatusFieldsAndAcknowledgement := by
  intro s v hr
  obtain ⟨hread, hwrite⟩ := busStep_register (a := 0x0008#16) .status v hr rfl rfl
  obtain ⟨hbusy, hdone, herr, hdict, hovr, hacc⟩ := statusWord_flags s
  obtain ⟨hlow, hcode, hhigh⟩ := statusWord_fields s
  refine ⟨statusWord s, hread, hbusy, hdone, herr, hdict, hovr, hacc, hlow, hcode, ?_, hhigh, hwrite⟩
  rw [hcode]
  cases s.errcode <;> decide

/-- Settles O46: the idle branch of the CMD write is `acceptCommand`. -/
theorem cmdWriteIsAcceptedWhenIdle : Obligations.CmdWriteIsAcceptedWhenIdle := by
  intro s v hr
  obtain ⟨hread, hwrite⟩ := busStep_register (a := 0x000C#16) .cmd v hr rfl rfl
  refine ⟨fun hidle => ?_, hread⟩
  rw [hwrite, writeTarget, writeCmd_idle hidle]
  rfl

/-- Settles O47: the busy branch of the CMD write. -/
theorem cmdWriteWhileBusyIsDropped : Obligations.CmdWriteWhileBusyIsDropped := by
  intro s v hr hbusy
  rw [(busStep_register .cmd v hr rfl rfl).2, writeTarget, writeCmd_busy hbusy]
  rfl

/-- Settles O48: five registers, each read and written at its offset; RES0 and ERRCMD have no write. -/
theorem argAndResultRegisters : Obligations.ArgAndResultRegisters := by
  intro s v hr
  have arg0 := busStep_register (a := 0x0010#16) .arg0 v hr rfl rfl
  have arg1 := busStep_register (a := 0x0014#16) .arg1 v hr rfl rfl
  have arg2 := busStep_register (a := 0x0018#16) .arg2 v hr rfl rfl
  have res0 := busStep_register (a := 0x001C#16) .res0 v hr rfl rfl
  have errcmd := busStep_register (a := 0x0020#16) .errcmd v hr rfl rfl
  exact ⟨arg0.2, arg1.2, arg2.2, res0.2, errcmd.2, arg0.1, arg1.1, arg2.1, res0.1, errcmd.1⟩

end Sys2Proof.Machine
end

section
/-! ## Reset values (10_state.md R45) -/

namespace Sys2Proof.Machine

/-- The tables of the reset state hold 0 in every slot (10_state.md R28 to R31). -/
theorem reset_slots (i : Fin 16) :
    State.reset.w[i] = 0#256 ∧ State.reset.coef[i] = 0#128 ∧ State.reset.shx[i] = 0#128 ∧ State.reset.shy[i] = 0#128 := by
  simp [State.reset]

theorem reset_idx (i : Fin 24) : State.reset.idx[i] = 0#11 := by
  simp [State.reset]

/-- Settles O57: the scalar elements by evaluation, the constants, tables and byte storage by their laws. -/
theorem resetValues : Obligations.ResetValues :=
  ⟨rfl, rfl, rfl, rfl, rfl, rfl, rfl, rfl, rfl, rfl, rfl, rfl, rfl, rfl, rfl, rfl, readTarget_pmod State.reset,
    reset_slots, reset_idx, memRead_nil⟩

end Sys2Proof.Machine
end

section
/-! ## The address map on the bus (20_memory.md R49, R54, R55) -/

namespace Sys2Proof.Machine

/-- A mapped access completes with OKAY, blocked or not. -/
theorem busStep_okay {s : State} {a : BitVec 16} {tg : Target} (hr : s.rstN = true) (ht : target a = some tg)
    (v : Word) :
    (∃ d, (busStep (.read a) s).busOut = some ⟨.okay, some d⟩) ∧
    (busStep (.write a v) s).busOut = some ⟨.okay, none⟩ := by
  cases hb : isBlocked s tg with
  | true =>
    obtain ⟨hread, hwrite⟩ := busStep_blocked hr ht hb v
    exact ⟨⟨0#32, by rw [hread, respond_busOut]⟩, by rw [hwrite, respond_busOut]⟩
  | false =>
    obtain ⟨hread, hwrite⟩ := busStep_open hr ht hb v
    exact ⟨⟨readTarget s tg, by rw [hread, respond_busOut]⟩, by rw [hwrite, respond_busOut]⟩

/-- Settles O49: `mapped` is `mappedOffset`, which is where the address map has a target. -/
theorem slverrExactlyOutsideTheMap : Obligations.SlverrExactlyOutsideTheMap := by
  intro s a v hr
  refine ⟨fun h => busStep_unmapped hr (target_eq_none.mpr h) v, fun h => ?_⟩
  obtain ⟨tg, hoff, hv⟩ := exists_target h a.isLt
  exact busStep_okay hr (target_offsetOf hoff hv) v

/-- Only CTRL, by a soft reset, and STATUS write ACCERR (10_state.md R19, R20). -/
theorem writeTarget_accerr {v : Word} {s : State} {tg : Target} (hctrl : tg ≠ .ctrl) (hstatus : tg ≠ .status) :
    (writeTarget v s tg).accerr = s.accerr := by
  cases tg
  case ctrl => exact absurd rfl hctrl
  case status => exact absurd rfl hstatus
  case cmd =>
    rw [writeTarget, writeCmd]
    split <;> rfl
  all_goals rfl

/-- An access reaches a target at that target's offset only. -/
theorem eq_offsetOf_of_target {a : BitVec 16} {tg : Target} (ht : target a = some tg) :
    a = BitVec.ofNat 16 (offsetOf tg) := by
  rw [← (target_eq_some.mp ht).1, BitVec.ofNat_toNat, BitVec.setWidth_eq]

/-- Settles O50: what lies below 0x0050 is a register, and the rest of the map is blocked. -/
theorem operandStorageIsBlockedWhileBusy : Obligations.OperandStorageIsBlockedWhileBusy := by
  intro s a v hr hbusy h4 hstorage
  obtain ⟨tg, hoff, hv⟩ := exists_target ⟨h4, .inr (.inr hstorage)⟩ a.isLt
  have hblocked : isBlocked s tg = true := by
    rw [isBlocked_busy hbusy, isOperandStorage_iff hv]
    omega
  obtain ⟨hread, hwrite⟩ := busStep_blocked hr (target_offsetOf hoff hv) hblocked v
  refine ⟨hread, hwrite, fun c hc4 hc => ?_⟩
  obtain ⟨reg, hregoff, hregv⟩ := exists_target ⟨hc4, by omega⟩ c.isLt
  have hreg : isOperandStorage reg = false := by
    rw [← Bool.not_eq_true, isOperandStorage_iff hregv]
    omega
  obtain ⟨hcread, hcwrite⟩ := busStep_register reg v hr hregoff hreg
  have htarget : target c = some reg := target_offsetOf hregoff hregv
  refine ⟨⟨readTarget s reg, hcread⟩, fun hctrl hstatus => ?_⟩
  rw [hcwrite, respond_accerr]
  exact writeTarget_accerr (fun h => hctrl (eq_offsetOf_of_target (h ▸ htarget)))
    (fun h => hstatus (eq_offsetOf_of_target (h ▸ htarget)))

end Sys2Proof.Machine
end

section
/-! ## Packing of the operand storage (20_memory.md R51 to R53) -/

namespace Sys2Proof.Machine

/-- An idle unit reads and writes every target, operand storage included, at its offset. -/
theorem busStep_idle {s : State} {a : BitVec 16} {tg : Target} (hr : s.rstN = true) (hidle : s.eng = .idle)
    (ht : target a = some tg) (v : Word) :
    busStep (.read a) s = respond .okay (some (readTarget s tg)) s ∧
    busStep (.write a v) s = respond .okay none (writeTarget v s tg) :=
  busStep_open hr ht (isBlocked_idle hidle tg) v

/-- `lane_setLane_same` and `lane_setLane_other` for the words of a value of at least `m` words. -/
theorem lane_setLane {n m : Nat} (v : BitVec n) (x : Word) (hm : 32 * m ≤ n) (k k' : Fin m) :
    lane (setLane v k.val x) k'.val = if k' = k then x else lane v k'.val := by
  by_cases h : k' = k
  · rw [if_pos h, h, lane_setLane_same v k.val x (by omega)]
  · rw [if_neg h, lane_setLane_other v x (Fin.val_ne_of_ne h)]

/-- Settles O51: the four tables are read by `lane` and written by `setLane`. -/
theorem wideValuesArePackedInWords : Obligations.WideValuesArePackedInWords := by
  intro s v hr hidle
  refine ⟨fun n k a ha => ?_, fun i k a ha => ?_, fun i k a ha => ?_, fun i k a ha => ?_⟩
  · obtain ⟨hread, hwrite⟩ := busStep_idle hr hidle (target_offsetOf (tg := .w n k) ha trivial) v
    exact ⟨hread, _, hwrite, lane_setLane _ v (by decide) k⟩
  · obtain ⟨hread, hwrite⟩ := busStep_idle hr hidle (target_offsetOf (tg := .coef i k) ha trivial) v
    exact ⟨hread, _, hwrite, lane_setLane _ v (by decide) k⟩
  · obtain ⟨hread, hwrite⟩ := busStep_idle hr hidle (target_offsetOf (tg := .shx i k) ha trivial) v
    exact ⟨hread, _, hwrite, lane_setLane _ v (by decide) k⟩
  · obtain ⟨hread, hwrite⟩ := busStep_idle hr hidle (target_offsetOf (tg := .shy i k) ha trivial) v
    exact ⟨hread, _, hwrite, lane_setLane _ v (by decide) k⟩

/-- Settles O52: the slot is read by zero extension and written by truncation. -/
theorem idxSlotsHoldElevenBits : Obligations.IdxSlotsHoldElevenBits := by
  intro s v i a hr hidle ha
  obtain ⟨hread, hwrite⟩ := busStep_idle hr hidle (target_offsetOf (tg := .idx i) ha trivial) v
  rw [hread, hwrite, BitVec.ofNat_toNat, ← BitVec.setWidth_eq_extractLsb' (by decide)]
  exact ⟨rfl, rfl⟩

/-- The three byte windows read and write the byte storage alike, but that a DICT write clears DICT_VALID. -/
theorem target_byteWindow {a : BitVec 16} (h4 : a.toNat % 4 = 0)
    (h : (0x0780 ≤ a.toNat ∧ a.toNat ≤ 0x078F) ∨ (0x1000 ≤ a.toNat ∧ a.toNat ≤ 0x1FFF) ∨ 0x8000 ≤ a.toNat) :
    ∃ tg, target a = some tg ∧ ∀ (s : State) (v : Word), readTarget s tg = memReadWord s.mem a.toNat ∧
      writeTarget v s tg = { s with mem := memWriteWord s.mem a.toNat v,
                                    dictValid := s.dictValid && decide (a.toNat < 0x8000) } := by
  obtain ⟨hwordbuf, hbuf, hdict⟩ := target_of_window h4
  rcases h with h | h | h
  · have hlt : a.toNat < 0x8000 := by omega
    exact ⟨_, hwordbuf h, fun s v => ⟨rfl, by simp [writeTarget, hlt]⟩⟩
  · have hlt : a.toNat < 0x8000 := by omega
    exact ⟨_, hbuf h, fun s v => ⟨rfl, by simp [writeTarget, hlt]⟩⟩
  · exact ⟨_, hdict h, fun s v => ⟨rfl, by simp [writeTarget, Nat.not_lt.mpr h]⟩⟩

/-- Settles O53: the byte lanes are those of `memReadWord` and `memWriteWord`. -/
theorem byteWindowsAreLittleEndian : Obligations.ByteWindowsAreLittleEndian := by
  intro s v a hr hidle hmem h4 hwin
  obtain ⟨tg, ht, hacc⟩ := target_byteWindow h4 hwin
  obtain ⟨hread, hwrite⟩ := busStep_idle hr hidle ht v
  rw [(hacc s v).1] at hread
  rw [(hacc s v).2] at hwrite
  refine ⟨⟨_, hread, fun o ho => extract_memReadWord s.mem a.toNat o ho⟩, _, hwrite, rfl, fun o ho => ?_, fun x hx => ?_⟩
  · exact memRead_memWriteWord_inside hmem a.toNat v o ho
  · exact memRead_memWriteWord_outside v hx

end Sys2Proof.Machine
end

section
/-! ## Repeated accesses, and accesses beside a command in flight (20_memory.md R57, R58, R60) -/

namespace Sys2Proof.Machine

open Sys2Proof.Safety

theorem busy_of_isBlocked {s : State} {tg : Target} (h : isBlocked s tg = true) : s.eng = .busy := by
  cases heng : s.eng with
  | idle => exact Bool.noConfusion ((isBlocked_idle heng tg).symm.trans h)
  | busy => rfl

/-- A read changes the response alone, but that a blocked one sets ACCERR. -/
theorem busStep_read_cases (a : BitVec 16) (s : State) :
    (∃ b, busStep (.read a) s = { s with busOut := b }) ∨
    (s.eng = .busy ∧ ∃ b, busStep (.read a) s = { s with busOut := b, accerr := true }) := by
  rcases (Bool.eq_false_or_eq_true s.rstN).symm with hr | hr
  · exact .inl ⟨none, busStep_inReset hr _⟩
  cases ht : target a with
  | none => exact .inl ⟨_, (busStep_unmapped hr ht 0).1⟩
  | some tg =>
    cases hb : isBlocked s tg with
    | false => exact .inl ⟨_, (busStep_open hr ht hb 0).1⟩
    | true => exact .inr ⟨busy_of_isBlocked hb, _, (busStep_blocked hr ht hb 0).1⟩

theorem acknowledge_acknowledge (v : Word) (s : State) : acknowledge v (acknowledge v s) = acknowledge v s := by
  simp [acknowledge]

theorem writeCtrl_writeCtrl (v : Word) (s : State) : writeCtrl v (writeCtrl v s) = writeCtrl v s := by
  cases h : v.getLsbD 1 with
  | true => simp only [writeCtrl_softReset h]; rfl
  | false => simp only [writeCtrl_ie h]

/-- Every register, slot and window but CMD takes a repeated write as one. -/
theorem writeTarget_writeTarget {s : State} (hmem : s.mem.wf = true) (v : Word) {tg : Target} (hcmd : tg ≠ .cmd) :
    writeTarget v (writeTarget v s tg) tg = writeTarget v s tg := by
  cases tg
  case cmd => exact absurd rfl hcmd
  case ctrl => exact writeCtrl_writeCtrl v s
  case status => exact acknowledge_acknowledge v s
  case w | coef | shx | shy | idx => simp [writeTarget, setLane_setLane]
  case wordbuf | buf | dict => simp [writeTarget, memWriteWord_memWriteWord hmem]
  all_goals rfl

/-- No write depends on the response of the transaction before it. -/
theorem respond_writeTarget_respond (r r' : Resp) (d d' : Option Word) (v : Word) (s : State) (tg : Target) :
    respond r d (writeTarget v (respond r' d' s) tg) = respond r d (writeTarget v s tg) := by
  cases tg
  case ctrl =>
    simp only [writeTarget, writeCtrl]
    split <;> rfl
  case cmd =>
    simp only [writeTarget, writeCmd, respond_eng]
    split <;> rfl
  all_goals rfl

theorem writeTarget_rstN (v : Word) (s : State) (tg : Target) : (writeTarget v s tg).rstN = s.rstN := by
  cases tg
  case ctrl =>
    simp only [writeTarget, writeCtrl]
    split <;> rfl
  case cmd =>
    simp only [writeTarget, writeCmd]
    split <;> rfl
  all_goals rfl

/-- A write of operand storage starts no command, and a register is never blocked. -/
theorem isBlocked_writeTarget (v : Word) (s : State) (tg : Target) :
    isBlocked (writeTarget v s tg) tg = isBlocked s tg := by
  cases tg <;> rfl

/-- The second write meets the same response, the same block, or the state its target was left in. -/
theorem busStep_write_repeated {s : State} {a : BitVec 16} (hmem : s.mem.wf = true) (ha : a ≠ 0x000C#16) (v : Word) :
    busStep (.write a v) (busStep (.write a v) s) = busStep (.write a v) s := by
  rcases (Bool.eq_false_or_eq_true s.rstN).symm with hr | hr
  · rw [busStep_inReset hr]
    exact busStep_inReset (s := { s with busOut := none }) hr _
  cases ht : target a with
  | none =>
    rw [(busStep_unmapped hr ht v).2]
    exact (busStep_unmapped (s := respond .slverr none s) hr ht v).2
  | some tg =>
    cases hb : isBlocked s tg with
    | true =>
      rw [(busStep_blocked hr ht hb v).2]
      exact (busStep_blocked (s := respond .okay none { s with accerr := true }) hr ht hb v).2
    | false =>
      have hagain := busStep_open (s := respond .okay none (writeTarget v s tg))
        ((writeTarget_rstN v s tg).trans hr) ht ((isBlocked_writeTarget v s tg).trans hb) v
      have hcmd : tg ≠ .cmd := fun h => ha (eq_offsetOf_of_target (h ▸ ht))
      rw [(busStep_open hr ht hb v).2, hagain.2, respond_writeTarget_respond, writeTarget_writeTarget hmem v hcmd]

/-- Settles O54: the cases of a read, and the repeated write. -/
theorem readsAndRepeatedWritesHaveNoFurtherEffect : Obligations.ReadsAndRepeatedWritesHaveNoFurtherEffect := by
  intro s a v hmem
  refine ⟨?_, fun ha => busStep_write_repeated hmem ha v⟩
  rcases busStep_read_cases a s with ⟨b, e⟩ | ⟨hbusy, b, e⟩
  · exact ⟨b, s.accerr, e, fun _ => rfl⟩
  · exact ⟨b, true, e, fun hidle => Eng.noConfusion (hbusy.symm.trans hidle)⟩

theorem sameCommandView_refl (s : State) : SameCommandView s s :=
  ⟨rfl, rfl, rfl, rfl, rfl, rfl, rfl, rfl, rfl, rfl, rfl, rfl, rfl⟩

/-- A busy unit's register writes reach nothing the command works with, but for the soft reset. -/
theorem writeTarget_sameCommandView {s : State} {v : Word} {tg : Target} (hbusy : s.eng = .busy)
    (hreg : isOperandStorage tg = false) (hctrl : tg = .ctrl → v.getLsbD 1 = false) :
    SameCommandView s (writeTarget v s tg) := by
  cases tg
  case ctrl =>
    rw [writeTarget, writeCtrl_ie (hctrl rfl)]
    exact sameCommandView_refl s
  case cmd =>
    rw [writeTarget, writeCmd_busy hbusy]
    exact sameCommandView_refl s
  case w | coef | shx | shy | idx | wordbuf | buf | dict => exact Bool.noConfusion hreg
  all_goals exact sameCommandView_refl s

/-- Settles O56: an access that reaches its target while a command is in flight is a register's. -/
theorem hostCannotDisturbACommandInFlight : Obligations.HostCannotDisturbACommandInFlight := by
  intro s t hbusy _ hnoReset
  rcases busStep_cases t s with ⟨b, acc, e⟩ | ⟨-, a, v, tg, rfl, ht, hopen, e⟩ <;> rw [e]
  · exact sameCommandView_refl s
  · have hreg : isOperandStorage tg = false := (isBlocked_busy hbusy tg).symm.trans hopen
    refine writeTarget_sameCommandView hbusy hreg fun hctrl => hnoReset v ?_
    rw [eq_offsetOf_of_target ht, hctrl]
    rfl

end Sys2Proof.Machine
end

section
/-! ## Decoding and encoding (30_encoding.md R67 to R69, R77) -/

namespace Sys2Proof

open Sys2Proof.Laws

/-- `Laws.Legal`, one lemma per command, as a fact about every command. -/
theorem fieldsOf_legal : ∀ i : Instr, Legal.Statement i
  | .nop => Legal.nop
  | .mov rd ra => Legal.mov rd ra
  | .fadd rd ra rb => Legal.fadd rd ra rb
  | .fsub rd ra rb => Legal.fsub rd ra rb
  | .fmul rd ra rb => Legal.fmul rd ra rb
  | .finv rd ra => Legal.finv rd ra
  | .rnd256 rd => Legal.rnd256 rd
  | .rndf rd => Legal.rndf rd
  | .menc ra => Legal.menc ra
  | .mdec rd => Legal.mdec rd
  | .dchk => Legal.dchk
  | .dfind => Legal.dfind
  | .peval rd ra => Legal.peval rd ra
  | .split ra k => Legal.split ra k
  | .recon rd => Legal.recon rd
  | .aenc ra => Legal.aenc ra
  | .adec ra => Legal.adec ra

theorem ofBool_decide_eq_one (b : BitVec 1) : BitVec.ofBool (decide (b = 1#1)) = b := by
  revert b
  decide

/-- A command is built again from its fields. -/
theorem buildInstr_fieldsOf (i : Instr) : buildInstr (opOfInstr i) (fieldsOf i) = i := by
  cases i
  case split ra k => cases k <;> rfl
  all_goals rfl

/-- Legal fields are the fields of the command they stand for: what the opcode does not use is 0 in both. -/
theorem fieldsOf_buildInstr {op : Op} {f : CmdFields} (hopc : f.opc = opcode op)
    (hcheck : f.check (some (usesOf op)) = none) : fieldsOf (buildInstr op f) = f := by
  obtain ⟨opc, rd, ra, rb, rsvLo, k, rsvHi⟩ := f
  obtain ⟨hlo, hhi, hrd, hra, hrb, hk⟩ := check_eq_none.mp hcheck
  dsimp only at hopc hlo hhi hrd hra hrb hk
  subst hopc hlo hhi
  cases op <;> simp_all [usesOf, buildInstr, fieldsOf, mkFields, ofBool_decide_eq_one]

/-- Settles O1: the word's fields are the command's, they pass the checks, and they build the command. -/
theorem decodeOfEncodeIsTheCommand : Obligations.DecodeOfEncodeIsTheCommand := by
  intro i
  obtain ⟨hopc, hlegal⟩ := fieldsOf_legal i
  rw [decode_eq_ok, encode, splitWord_joinFields]
  exact ⟨opOfInstr i, opOf_eq_some.mpr hopc, Option.isNone_iff_eq_none.mp hlegal, (buildInstr_fieldsOf i).symm⟩

/-- Settles O2: the command's fields are the word's, and a word is the join of its fields. -/
theorem encodeOfDecodeIsTheWord : Obligations.EncodeOfDecodeIsTheWord := by
  intro w i h
  obtain ⟨op, hop, hcheck, rfl⟩ := decode_eq_ok.mp h
  rw [encode, fieldsOf_buildInstr (opOf_eq_some.mp hop) hcheck, joinFields_splitWord]

/-- When a word decodes at all (30_encoding.md R68). -/
theorem decode_isOk_iff {w : Word} :
    (∃ i, decode w = .ok i) ↔
      ∃ op, (splitWord w).opc = opcode op ∧ (splitWord w).check (some (usesOf op)) = none := by
  constructor
  · rintro ⟨i, h⟩
    obtain ⟨op, hop, hcheck, -⟩ := decode_eq_ok.mp h
    exact ⟨op, opOf_eq_some.mp hop, hcheck⟩
  · rintro ⟨op, hopc, hcheck⟩
    exact ⟨_, decode_eq_ok.mpr ⟨op, opOf_eq_some.mpr hopc, hcheck, rfl⟩⟩

/-- Settles O4, word by word. -/
theorem workedDecodings : Obligations.WorkedDecodings :=
  ⟨rfl, rfl, rfl, rfl, rfl, rfl, rfl⟩

end Sys2Proof

namespace Sys2Proof.Machine

open Sys2Proof.Safety

theorem engineStep_illegal {s : State} {e : Illegal} (hbusy : s.eng = .busy) (h : decode s.cmdl = .error e) :
    engineStep s = .next (failedWith .illegalCmd s) := by
  simp only [engineStep, hbusy, h]
  rfl

/-- Settles O3: `check` is the list of R68's conditions, and a refused word is an error of the decoder. -/
theorem legalWordsDecodeAndOthersRaise : Obligations.LegalWordsDecodeAndOthersRaise := by
  refine ⟨fun w => ?_, fun s hbusy hnone => ?_⟩
  · simp only [decode_isOk_iff, check_eq_none, splitWord]
  · cases h : decode s.cmdl with
    | ok i => exact absurd h (hnone i)
    | error e => exact engineStep_illegal hbusy h

/-- Settles O8: the CMD write does not look at the word, and the engine's turn refuses it. -/
theorem illegalWordIsAcceptedAndCompletes : Obligations.IllegalWordIsAcceptedAndCompletes := by
  intro s v e hv hidle hr
  have hwrite := (busStep_register (a := 0x000C#16) .cmd v hr rfl rfl).2
  rw [writeTarget, writeCmd_idle hidle] at hwrite
  refine ⟨_, rfl, hwrite, ?_⟩
  rw [hwrite]
  exact engineStep_illegal rfl hv

end Sys2Proof.Machine
end

section
/-! ## What a command reads (30_encoding.md R80, 10_state.md R26, R39) -/

namespace Sys2Proof.Machine

open Sys2Proof.Safety

/-- `s` with every field that no command reads taken from `h`. -/
def withUnread (h s : State) : State :=
  { s with ie := h.ie, done := h.done, ovr := h.ovr, accerr := h.accerr, errcode := h.errcode, arg0 := h.arg0,
           arg1 := h.arg1, arg2 := h.arg2, errcmd := h.errcmd, rstN := h.rstN, busOut := h.busOut, inputs := h.inputs }

/-- Two states with one view differ in the unread fields alone. -/
theorem eq_withUnread {s s' : State} (hv : SameCommandView s s') (hres : s'.res0 = s.res0) : s' = withUnread s' s := by
  obtain ⟨heng, hcmdl, harg0, harg1, harg2, hans, hdict, hw, hcoef, hshx, hshy, hidx, hmem⟩ := hv
  cases s'
  simp_all [withUnread]

/-- The same end of a pseudocode, with its committed state changed by `f`. -/
def CmdResult.mapCommit (f : State → State) : CmdResult → CmdResult
  | .wait n => .wait n
  | .raise c => .raise c
  | .commit u => .commit (f u)

theorem mapCommit_withDraw {α : Type} (f : State → State) (d : Drawn α) (k : α → CmdResult) :
    (withDraw d k).mapCommit f = withDraw d fun v => (k v).mapCommit f := by
  cases d <;> rfl

theorem failureBase_withUnread (i : Instr) (h s : State) :
    failureBase i (withUnread h s) = withUnread h (failureBase i s) := by
  cases i <;> rfl

/-! The operations that pseudocodes read the state with. -/

theorem withUnread_mem (h s : State) : (withUnread h s).mem = s.mem := rfl

theorem argNat0_withUnread (h s : State) : argNat0 (withUnread h s) = argNat0 s := rfl

theorem argNat1_withUnread (h s : State) : argNat1 (withUnread h s) = argNat1 s := rfl

theorem bufRead_withUnread (h s : State) : bufRead (withUnread h s) = bufRead s := rfl

theorem aeadKey_withUnread (h s : State) : aeadKey (withUnread h s) = aeadKey s := rfl

/-- No pseudocode reads an unread field, and its staged writes leave those fields alone. -/
theorem commandResult_withUnread (i : Instr) (h s : State) :
    commandResult i (withUnread h s) = (commandResult i s).mapCommit (withUnread h) := by
  cases i
  case dfind =>
    simp only [commandResult, dfindResult, withUnread_mem, apply_ite (CmdResult.mapCommit _)]
    cases dictFind s.mem (wordbufWord s.mem) <;> rfl
  case adec ra =>
    simp only [commandResult, adecResult, argNat0_withUnread, argNat1_withUnread, bufRead_withUnread,
      aeadKey_withUnread, apply_ite (CmdResult.mapCommit _)]
    cases Config.aead.openBytes (aeadKey s ra) _ _ _ <;> rfl
  case split ra k =>
    cases k
    all_goals
      simp only [commandResult, splitResult, apply_ite (CmdResult.mapCommit _), mapCommit_withDraw]
      rfl
  all_goals
    simp only [commandResult, fieldBinary, finvResult, rnd256Result, rndfResult, mencResult, mdecResult, pevalResult,
      reconResult, aencResult, apply_ite (CmdResult.mapCommit _), mapCommit_withDraw]
    rfl

/-- Settles O38: the second run is the first with the unread fields changed, and ends alike. -/
theorem commandsReadOnlyStorageDictValidLatchAndAnswers :
    Obligations.CommandsReadOnlyStorageDictValidLatchAndAnswers := by
  intro i s s' t t' hv hres ht ht'
  rw [exec_eq] at ht
  rw [eq_withUnread hv hres, exec_eq, commandResult_withUnread, failureBase_withUnread] at ht'
  cases hr : commandResult i s
  all_goals
    simp only [hr, CmdResult.mapCommit, Host.Outcome.next.injEq] at ht ht'
    subst ht ht'
    refine ⟨sameCommandView_refl _, rfl, fun hbusy hidle => ?_⟩
  case wait => exact Eng.noConfusion (hbusy.symm.trans hidle)
  case raise => exact ⟨rfl, rfl⟩
  case commit => exact ⟨rfl, rfl⟩

end Sys2Proof.Machine
end

section
/-! ## Command words (30_encoding.md R67) -/

namespace Sys2Proof

open Sys2Proof.Safety

/-- Concatenation is a sum: the lower part is below the weight of the upper one. -/
theorem toNat_append_eq_add {n m : Nat} (a : BitVec n) (b : BitVec m) :
    (a ++ b).toNat = 2 ^ m * a.toNat + b.toNat := by
  rw [BitVec.toNat_append, ← Nat.shiftLeft_add_eq_or_of_lt b.isLt, Nat.shiftLeft_eq, Nat.mul_comm]

/-- The word of an opcode and its fields is R67's sum of them at their places. -/
theorem joinFields_mkFields (op : Op) (rd ra rb : Reg) (k : BitVec 1) :
    joinFields (mkFields op (regField rd) (regField ra) (regField rb) k) =
      commandWord (opcode op).toNat rd ra rb k.toNat := by
  have hopc := (opcode op).isLt
  have hk := k.isLt
  apply BitVec.eq_of_toNat_eq
  simp only [joinFields, mkFields, regField, commandWord, toNat_append_eq_add, BitVec.toNat_ofFin, BitVec.toNat_ofNat]
  omega

/-- The word of a command's fields decodes to the command. -/
theorem decode_commandWord (i : Instr) (op : Op) (rd ra rb : Reg) (k : BitVec 1)
    (h : fieldsOf i = mkFields op (regField rd) (regField ra) (regField rb) k) :
    decode (commandWord (opcode op).toNat rd ra rb k.toNat) = .ok i := by
  rw [← joinFields_mkFields, ← h]
  exact decodeOfEncodeIsTheCommand i

end Sys2Proof
end

section
/-! ## General and field commands (40_field.md R82 to R87) -/

namespace Sys2Proof.Machine

open Sys2Proof.Safety

theorem isField_eq_false_iff {v : Nat} : isField v = false ↔ Config.P ≤ v := by simp [isField]

/-- A command over two field operands: the result on field elements, VALUE_RANGE where either one is not. -/
theorem complete_fieldBinary (op : Nat → Nat → Nat) (rd ra rb : Reg) (s : State) {x y : Nat}
    (hx : (readW s ra).toNat = x) (hy : (readW s rb).toNat = y) :
    (x < Config.P → y < Config.P →
      complete s (fieldBinary op rd ra rb s) = .next (succeeded (writeW s rd (zext256 (op x y))))) ∧
    (Config.P ≤ x → complete s (fieldBinary op rd ra rb s) = .next (failedWith .valueRange s)) ∧
    (Config.P ≤ y → complete s (fieldBinary op rd ra rb s) = .next (failedWith .valueRange s)) := by
  simp only [fieldBinary, hx, hy, isField_eq_false_iff]
  refine ⟨fun hxlt hylt => ?_, fun hxle => ?_, fun hyle => ?_⟩
  · rw [if_neg hxlt.not_ge, if_neg hylt.not_ge]
    rfl
  · rw [if_pos hxle]
    rfl
  · rw [if_pos hyle, ite_self]
    rfl

/-- FINV on a field element other than 0, and its two checks in their order. -/
theorem complete_finvResult (rd ra : Reg) (s : State) {x : Nat} (hx : (readW s ra).toNat = x) :
    (0 < x → x < Config.P →
      complete s (finvResult rd ra s) = .next (succeeded (writeW s rd (zext256 (fieldInv x))))) ∧
    (Config.P ≤ x → complete s (finvResult rd ra s) = .next (failedWith .valueRange s)) ∧
    (x = 0 → complete s (finvResult rd ra s) = .next (failedWith .valueZeroInv s)) := by
  simp only [finvResult, hx, isField_eq_false_iff]
  refine ⟨fun hpos hlt => ?_, fun hle => ?_, fun hzero => ?_⟩
  · rw [if_neg hlt.not_ge, if_neg hpos.ne']
    rfl
  · rw [if_pos hle]
    rfl
  · rw [if_neg (hzero ▸ P_pos.not_ge), if_pos hzero]
    rfl

/-- Below the prime P, a number other than 0 can be cancelled, so it has at most one inverse. -/
theorem eq_of_mul_mod_P_eq_one {x y z : Nat} (hpos : 0 < x) (hlt : x < Config.P) (hy : y < Config.P)
    (hz : z < Config.P) (hxy : x * y % Config.P = 1) (hxz : x * z % Config.P = 1) : z = y := by
  have hco : Nat.Coprime Config.P x := Nat.coprime_of_lt_prime hpos.ne' hlt prime_P
  have hmod : x * z ≡ x * y [MOD Config.P] := hxz.trans hxy.symm
  exact (Nat.ModEq.cancel_left_of_coprime hco hmod).eq_of_lt_of_lt hz hy

/-- Settles O15: `fieldInv` is the inverse, and P is prime. -/
theorem finvWritesTheInverse : Obligations.FinvWritesTheInverse := by
  intro rd ra
  refine ⟨decode_commandWord (.finv rd ra) .finv rd ra 0 0 rfl, fun s x hx => ?_⟩
  obtain ⟨hinverse, hrange, hzero⟩ := complete_finvResult rd ra s hx
  refine ⟨fun hpos hlt => ?_, hrange, hzero⟩
  obtain ⟨hone, hltP, hmul⟩ := fieldInv_spec hpos hlt
  exact ⟨fieldInv x, hone, hltP, hmul,
    fun z _ hz hxz => eq_of_mul_mod_P_eq_one hpos hlt hltP hz hmul hxz, hinverse hpos hlt⟩

/-- Settles O10: the committed state is the old one. -/
theorem nopOnlyCompletes : Obligations.NopOnlyCompletes :=
  ⟨decode_commandWord .nop .nop 0 0 0 0 rfl, fun _ => rfl⟩

/-- Settles O11: MOV's pseudocode is one write and has no check. -/
theorem movCopiesARegister : Obligations.MovCopiesARegister := fun rd ra =>
  ⟨decode_commandWord (.mov rd ra) .mov rd ra 0 0 rfl, fun _ => rfl⟩

/-- Settles O12: `fieldAdd` is the sum modulo P. -/
theorem faddAddsModuloP : Obligations.FaddAddsModuloP := fun rd ra rb =>
  ⟨decode_commandWord (.fadd rd ra rb) .fadd rd ra rb 0 rfl,
    fun s _ _ hx hy => complete_fieldBinary fieldAdd rd ra rb s hx hy⟩

/-- Settles O13: on field elements the natural difference is the integer one. -/
theorem fsubSubtractsModuloP : Obligations.FsubSubtractsModuloP := by
  intro rd ra rb
  refine ⟨decode_commandWord (.fsub rd ra rb) .fsub rd ra rb 0 rfl, fun s x y hx hy => ?_⟩
  obtain ⟨hdiff, hrange⟩ := complete_fieldBinary fieldSub rd ra rb s hx hy
  refine ⟨fun hxlt hylt => ?_, hrange⟩
  rw [← fieldSub_eq_int hylt]
  exact hdiff hxlt hylt

/-- Settles O14: `fieldMul` is the product modulo P. -/
theorem fmulMultipliesModuloP : Obligations.FmulMultipliesModuloP := fun rd ra rb =>
  ⟨decode_commandWord (.fmul rd ra rb) .fmul rd ra rb 0 rfl,
    fun s _ _ hx hy => complete_fieldBinary fieldMul rd ra rb s hx hy⟩

end Sys2Proof.Machine
end

section
/-! ## Entropy commands (41_entropy.md R88 to R91) -/

namespace Sys2Proof.Machine

open Sys2Proof.Safety

/-! The three ends of a draw, in the command that draws it. -/

theorem complete_withDraw_got {α : Type} {d : Drawn α} {v : α} {rest : List Answer} (h : d = .got v rest)
    (k : α → CmdResult) (s : State) : complete s (withDraw d k) = complete s (k v) := by
  rw [h, withDraw]

theorem complete_withDraw_failed {α : Type} {d : Drawn α} (h : d = .failed) (k : α → CmdResult) (s : State) :
    complete s (withDraw d k) = .next (failedWith .entropyFail s) := by
  rw [h, withDraw, complete, raiseError_eq]

theorem complete_withDraw_pending {α : Type} {d : Drawn α} {n : Nat} (h : d = .pending n) (k : α → CmdResult)
    (s : State) : complete s (withDraw d k) = .next s ∧ (withDraw d k).request = some n := by
  rw [h]
  exact ⟨rfl, rfl⟩

/-! Draw.Field from the outcomes of its draws: the readings of `drawField_eq`. -/

theorem drawField_of_accepted {as : List Answer} {v : Nat} {outs : List (Option Nat)}
    (h : fieldDraws as = some v :: outs) : 1 ≤ v ∧ v < Config.P ∧ ∃ rest, drawField as = .got v rest := by
  rcases drawField_eq as with ⟨hf, -⟩ | ⟨rest, hf, -⟩ | ⟨u, rest, hf, hpos, hlt, hd⟩ <;> rw [hf] at h
  · simp at h
  · simp at h
  · obtain ⟨rfl, -⟩ : u = v ∧ fieldDraws rest = outs := by simpa using h
    exact ⟨hpos, hlt, rest, hd⟩

theorem drawField_of_fail {as : List Answer} {outs : List (Option Nat)} (h : fieldDraws as = none :: outs) :
    drawField as = .failed := by
  rcases drawField_eq as with ⟨hf, -⟩ | ⟨_, -, hd⟩ | ⟨_, _, hf, -, -, -⟩
  · simp [hf] at h
  · exact hd
  · simp [hf] at h

theorem drawField_of_no_outcome {as : List Answer} (h : fieldDraws as = []) : drawField as = .pending 127 := by
  rcases drawField_eq as with ⟨-, hd⟩ | ⟨_, hf, -⟩ | ⟨_, _, hf, -, -, -⟩
  · exact hd
  · simp [hf] at h
  · simp [hf] at h

/-- Settles O18: RNDF is one Draw.Field, which the outcomes of the draws decide. -/
theorem rndfWritesTheFirstAcceptedDraw : Obligations.RndfWritesTheFirstAcceptedDraw := by
  intro rd
  refine ⟨decode_commandWord (.rndf rd) .rndf rd 0 0 0 rfl, fun s => ⟨fun v _ h => ?_, fun _ h => ?_, fun h => ?_⟩⟩
  · obtain ⟨hpos, hlt, _, hd⟩ := drawField_of_accepted h
    exact ⟨hpos, hlt, complete_withDraw_got hd _ s⟩
  · exact complete_withDraw_failed (drawField_of_fail h) _ s
  · exact complete_withDraw_pending (drawField_of_no_outcome h) _ s

/-- A draw of 256 bits takes the whole answer (41_entropy.md R88). -/
theorem drawBits_256 (d : BitVec 256) (as : List Answer) : drawBits 256 (.bits d :: as) = .got d.toNat as := by
  rw [drawBits, Nat.mod_eq_of_lt d.isLt]

/-- Settles O17: RND256 is one draw of 256 bits, which the first answer decides. -/
theorem rnd256WritesTheAnswer : Obligations.Rnd256WritesTheAnswer := by
  intro rd
  refine ⟨decode_commandWord (.rnd256 rd) .rnd256 rd 0 0 0 rfl, fun s as => ⟨fun d h => ?_, fun h => ?_, fun h => ?_⟩⟩
  · have hd : drawBits 256 s.answers = .got d.toNat as := h ▸ drawBits_256 d as
    have hz : zext256 d.toNat = d := by rw [zext256, BitVec.ofNat_toNat, BitVec.setWidth_eq]
    have hwrite : exec (.rnd256 rd) s = .next (succeeded (writeW s rd (zext256 d.toNat))) :=
      complete_withDraw_got hd _ s
    rw [hwrite, hz]
  · have hd : drawBits 256 s.answers = .failed := by rw [h, drawBits]
    exact complete_withDraw_failed hd _ s
  · have hd : drawBits 256 s.answers = .pending 256 := by rw [h, drawBits]
    exact complete_withDraw_pending hd _ s

end Sys2Proof.Machine
end

section
/-! ## The entropy port (41_entropy.md R88, 70_reset_and_hazards.md R132) -/

namespace Sys2Proof.Machine

open Sys2Proof.Safety

theorem entropyRequest_idle {s : State} (h : s.eng = .idle) : entropyRequest s = none := by
  rw [entropyRequest, h]

theorem entropyStep_no_request {s : State} (h : entropyRequest s = none) (a : Answer) : entropyStep a s = s := by
  rw [entropyStep, h]

theorem entropyStep_request {s : State} (h : entropyRequest s ≠ none) (a : Answer) :
    entropyStep a s = { s with answers := s.answers ++ [a] } := by
  obtain ⟨n, hn⟩ := Option.ne_none_iff_exists'.mp h
  rw [entropyStep, hn]

/-- Settles O41: the port looks at the request alone, and a late answer is an input of its own. -/
theorem entropyAnswersGoToTheOutstandingRequest : Obligations.EntropyAnswersGoToTheOutstandingRequest := fun a _ =>
  ⟨fun h => entropyStep_no_request h a, fun h => entropyStep_request h a, rfl, entropyRequest_idle⟩

end Sys2Proof.Machine
end

section
/-! ## Mnemonic codec commands (42_mnemonic.md R92 to R100) -/

namespace Sys2Proof.Machine

open Sys2Proof.Safety

/-! ### Packing (R94) -/

/-- The 24 indices of a secret with its own checksum, as MENC packs them. -/
def mnemonicIndices (e : U256) : Vector (BitVec 11) 24 := Vector.ofFn fun i => packIndex e (checksum e) i.val

theorem mnemonicIndices_toNat (e : U256) (i : Fin 24) :
    ((mnemonicIndices e)[i]).toNat = (e.toNat * 2 ^ 8 + (checksum e).toNat) / 2 ^ (253 - 11 * i.val) % 2 ^ 11 := by
  rw [← packIndex_toNat]
  simp [mnemonicIndices]

theorem unpackE_mnemonicIndices (e : U256) : unpackE (mnemonicIndices e) = e := by
  apply BitVec.eq_of_toNat_eq
  have he := e.isLt
  have hc := (checksum e).isLt
  rw [unpackE_toNat, mnemonicIndices, unpackValue_pack, append_toNat]
  omega

theorem unpackC_mnemonicIndices (e : U256) : unpackC (mnemonicIndices e) = checksum e := by
  apply BitVec.eq_of_toNat_eq
  have hc := (checksum e).isLt
  rw [unpackC_toNat, mnemonicIndices, unpackValue_pack, append_toNat]
  omega

/-- Joining 11-bit groups, the first the most significant, is R94's sum of them at their weights. -/
theorem foldl_ofFn_groups {n : Nat} (f : Fin n → BitVec 11) (a : Nat) :
    (List.ofFn f).foldl (fun acc (i : BitVec 11) => acc * 2 ^ 11 + i.toNat) a =
      a * 2 ^ (11 * n) + ∑ i : Fin n, (f i).toNat * 2 ^ (11 * (n - 1 - i.val)) := by
  induction n generalizing a with
  | zero => simp
  | succ n ih =>
    have hweight (i : Fin n) : n + 1 - 1 - i.succ.val = n - 1 - i.val := by
      rw [Fin.val_succ]
      omega
    rw [List.ofFn_succ, List.foldl_cons, ih, Fin.sum_univ_succ]
    simp only [hweight]
    rw [Fin.val_zero, Nat.add_sub_cancel, Nat.sub_zero]
    ring

theorem unpackValue_eq_sum (idx : Vector (BitVec 11) 24) :
    unpackValue idx = BitVec.ofNat 264 (∑ i : Fin 24, (idx[i]).toNat * 2 ^ (11 * (23 - i.val))) := by
  have hlist : idx.toList = List.ofFn fun i : Fin 24 => idx[i] := by
    rw [← Vector.toList_ofFn]
    exact congrArg Vector.toList Vector.ofFn_getElem.symm
  rw [unpackValue, hlist, foldl_ofFn_groups, Nat.zero_mul, Nat.zero_add]

/-- E is V[263:8]: what lies above bit 263 of the sum does not count. -/
theorem unpackE_of_value {idx : Vector (BitVec 11) 24} {v : Nat} (h : unpackValue idx = BitVec.ofNat 264 v) :
    unpackE idx = BitVec.ofNat 256 (v / 2 ^ 8) := by
  apply BitVec.eq_of_toNat_eq
  rw [unpackE_toNat, h, BitVec.toNat_ofNat, BitVec.toNat_ofNat]
  omega

/-- c is V[7:0]. -/
theorem unpackC_of_value {idx : Vector (BitVec 11) 24} {v : Nat} (h : unpackValue idx = BitVec.ofNat 264 v) :
    (unpackC idx).toNat = v % 2 ^ 8 := by
  rw [unpackC_toNat, h, BitVec.toNat_ofNat]
  omega

/-! ### MENC and MDEC -/

theorem writeRes0_res0_toNat (s : State) {v : Nat} (h : v < 2 ^ 32) : (writeRes0 s v).res0.toNat = v := by
  rw [writeRes0_res0, BitVec.toNat_ofNat, Nat.mod_eq_of_lt h]

/-- MENC and its one check. -/
theorem complete_mencResult (ra : Reg) (s : State) :
    (s.dictValid = true → complete s (mencResult ra s) = .next (succeeded
      (writeRes0 { s with idx := mnemonicIndices (readW s ra) } (checksum (readW s ra)).toNat))) ∧
    (s.dictValid = false → complete s (mencResult ra s) = .next (failedWith .formatDict s)) := by
  unfold mencResult
  refine ⟨fun hvalid => ?_, fun hinvalid => ?_⟩
  · rw [if_neg (ne_false_of_eq_true hvalid)]
    rfl
  · rw [if_pos hinvalid]
    rfl

/-- Settles O19: the indices are groups of V, and a checksum fits RES0. -/
theorem mencWritesTheIndices : Obligations.MencWritesTheIndices := by
  intro ra
  refine ⟨decode_commandWord (.menc ra) .menc 0 ra 0 0 rfl, fun s => ?_⟩
  obtain ⟨hvalid, hinvalid⟩ := complete_mencResult ra s
  refine ⟨⟨hash256_length _, hash256_zero _⟩, fun hd => ?_, hinvalid⟩
  have hc := (checksum (readW s ra)).isLt
  exact ⟨_, hvalid hd, rfl, writeRes0_res0_toNat s (by omega), mnemonicIndices_toNat (readW s ra)⟩

/-- MDEC on what IDX unpacks to, and its three checks in their order. -/
theorem complete_mdecResult (rd : Reg) (s : State) :
    (s.dictValid = true → argNat0 s = 24 → checksum (unpackE s.idx) = unpackC s.idx →
      complete s (mdecResult rd s) =
        .next (succeeded (writeRes0 (writeW s rd (unpackE s.idx)) (unpackC s.idx).toNat))) ∧
    (s.dictValid = false → complete s (mdecResult rd s) = .next (failedWith .formatDict s)) ∧
    (s.dictValid = true → argNat0 s ≠ 24 →
      complete s (mdecResult rd s) = .next (failedWith .formatWordCount s)) ∧
    (s.dictValid = true → argNat0 s = 24 → checksum (unpackE s.idx) ≠ unpackC s.idx →
      complete s (mdecResult rd s) = .next (failedWith .checksumMismatch s)) := by
  unfold mdecResult
  refine ⟨fun hvalid hcount hsum => ?_, fun hinvalid => ?_, fun hvalid hcount => ?_, fun hvalid hcount hsum => ?_⟩
  · rw [if_neg (ne_false_of_eq_true hvalid), if_neg (not_not_intro hcount), if_neg (not_not_intro hsum)]
    rfl
  · rw [if_pos hinvalid]
    rfl
  · rw [if_neg (ne_false_of_eq_true hvalid), if_pos hcount]
    rfl
  · rw [if_neg (ne_false_of_eq_true hvalid), if_neg (not_not_intro hcount), if_pos hsum]
    rfl

/-- Settles O20: IDX unpacks to the parts of R94's sum. -/
theorem mdecVerifiesAndWritesTheSecret : Obligations.MdecVerifiesAndWritesTheSecret := by
  intro rd
  refine ⟨decode_commandWord (.mdec rd) .mdec rd 0 0 0 rfl, fun s v e hv he => ?_⟩
  have hvalue : unpackValue s.idx = BitVec.ofNat 264 v := hv ▸ unpackValue_eq_sum s.idx
  have hE : unpackE s.idx = e := he ▸ unpackE_of_value hvalue
  have hC : (unpackC s.idx).toNat = v % 2 ^ 8 := unpackC_of_value hvalue
  obtain ⟨hok, hdict, hcount, hsum⟩ := complete_mdecResult rd s
  rw [← BitVec.toNat_inj, hE, hC] at hok
  rw [ne_eq, ← BitVec.toNat_inj, hE, hC] at hsum
  exact ⟨⟨hash256_length _, hash256_zero e⟩, hok, hdict, hcount, hsum⟩

/-- Settles O21: unpacking inverts packing, and the recomputed checksum is the packed one. -/
theorem mnemonicRoundTrip : Obligations.MnemonicRoundTrip := by
  intro ra rd s hd
  refine ⟨_, (complete_mencResult ra s).1 hd, fun u hvalid hcount hidx => ?_⟩
  have hidx : u.idx = mnemonicIndices (readW s ra) := hidx
  have hE : unpackE u.idx = readW s ra := hidx ▸ unpackE_mnemonicIndices _
  have hC : unpackC u.idx = checksum (readW s ra) := hidx ▸ unpackC_mnemonicIndices _
  refine ⟨_, (complete_mdecResult rd u).1 hvalid hcount (by rw [hE, hC]), ?_, rfl, rfl⟩
  exact (readW_writeW_same u rd _).trans hE

/-! ### The dictionary: DCHK and DFIND -/

theorem isBlank_eq_false_iff (w : List Byte) :
    isBlank w = false ↔ ∃ b ∈ w, b ∉ [0x09#8, 0x0A#8, 0x0B#8, 0x0C#8, 0x0D#8, 0x20#8] := by
  simp [isBlank, isBlankByte, and_assoc]

theorem exec_dchk_of_dictOk {s : State} (h : dictOk s.mem = true) :
    exec .dchk s = .next (succeeded { s with dictValid := true }) := by
  rw [exec, execDchk, if_pos h]
  rfl

theorem exec_dchk_of_not_dictOk {s : State} (h : ¬dictOk s.mem = true) :
    exec .dchk s = .next (failedWith .formatDict { s with dictValid := false }) := by
  rw [exec, execDchk, if_neg h]
  rfl

/-- Settles O23: the condition is `dictOk`, word by word. -/
theorem dchkValidatesTheDictionary : Obligations.DchkValidatesTheDictionary := by
  refine ⟨decode_commandWord .dchk .dchk 0 0 0 0 rfl, fun s good hgood => ?_⟩
  simp only [← isBlank_eq_false_iff, ← dictOk_eq_true] at hgood
  rw [hgood]
  exact ⟨exec_dchk_of_dictOk, exec_dchk_of_not_dictOk⟩

/-- In a dictionary that passed DCHK the lookup has one result: no lower entry holds the same word. -/
theorem dictFind_eq_some {m : Memory} (hok : dictOk m = true) {i : Nat} (hi : i < 2048) {w : List Byte}
    (h : dictWord m i = w) : dictFind m w = some i := by
  obtain ⟨-, hdistinct⟩ := (dictOk_eq_true m).mp hok
  have hlower : ∀ j < i, dictWord m j ≠ w := fun j hj => h ▸ hdistinct j (hj.trans hi) i hi hj
  rw [dictFind, List.find?_range_eq_some]
  exact ⟨by simpa using h, List.mem_range.mpr hi, by simpa using hlower⟩

theorem dictFind_eq_none {m : Memory} {w : List Byte} (h : ∀ i < 2048, dictWord m i ≠ w) : dictFind m w = none := by
  rw [dictFind, List.find?_range_eq_none]
  simpa [Config.dictEntries] using h

theorem writeIdx_of_lt (s : State) {i : Nat} (v : BitVec 11) (h : i < 24) :
    writeIdx s i v = { s with idx := s.idx.set i v h } := by
  have hset : s.idx.setIfInBounds i v = s.idx.set i v h := by
    apply Vector.ext
    intro j hj
    rw [Vector.getElem_setIfInBounds, Vector.getElem_set]
  rw [writeIdx, hset]

/-- DFIND by the outcome of its lookup, and its two checks before it, in their order. -/
theorem complete_dfindResult (s : State) :
    (∀ i, s.dictValid = true → argNat0 s < 24 → dictFind s.mem (wordbufWord s.mem) = some i →
      complete s (dfindResult s) = .next (succeeded (writeRes0 (writeIdx s (argNat0 s) (BitVec.ofNat 11 i)) i))) ∧
    (s.dictValid = false → complete s (dfindResult s) = .next (failedWith .formatDict s)) ∧
    (s.dictValid = true → 24 ≤ argNat0 s → complete s (dfindResult s) = .next (failedWith .valueParam s)) ∧
    (s.dictValid = true → argNat0 s < 24 → dictFind s.mem (wordbufWord s.mem) = none →
      complete s (dfindResult s) = .next (failedWith .formatUnknownWord s)) := by
  unfold dfindResult
  refine ⟨fun i hvalid hslot hfind => ?_, fun hinvalid => ?_, fun hvalid hslot => ?_, fun hvalid hslot hfind => ?_⟩
  · rw [if_neg (ne_false_of_eq_true hvalid), if_neg hslot.not_ge, hfind]
    rfl
  · rw [if_pos hinvalid]
    rfl
  · rw [if_neg (ne_false_of_eq_true hvalid), if_pos hslot]
    rfl
  · rw [if_neg (ne_false_of_eq_true hvalid), if_neg hslot.not_ge, hfind]
    rfl

/-- Settles O24: DICT_VALID = 1 makes the dictionary's words distinct, so the index named is the one found. -/
theorem dfindFindsTheWord : Obligations.DfindFindsTheWord := by
  refine ⟨decode_commandWord .dfind .dfind 0 0 0 0 rfl, fun s hsound => ?_⟩
  obtain ⟨hfound, hdict, hslot, hunknown⟩ := complete_dfindResult s
  refine ⟨fun i h hvalid hi hword => ?_, hdict, hslot, fun hvalid h hnone => ?_⟩
  · have hdone : exec .dfind s = _ := hfound i hvalid h (dictFind_eq_some (hsound hvalid) hi hword)
    rw [hdone, writeIdx_of_lt (i := argNat0 s) s _ h]
    rfl
  · exact hunknown hvalid h (dictFind_eq_none hnone)

end Sys2Proof.Machine
end

section
/-! ## Polynomials and threshold sharing (43_sharing.md R101 to R106) -/

namespace Sys2Proof.Machine

open Sys2Proof.Safety

/-! ### Polynomials (R101) -/

/-- Taking x out of every term but the first. -/
theorem polyAt_cons (c : Nat) (cs : List Nat) (x : Nat) :
    polyAt (c :: cs) x = (polyAt cs x * x + c) % Config.P := by
  have hsum : ∑ i ∈ Finset.range (c :: cs).length, (c :: cs).getD i 0 * x ^ i =
      (∑ i ∈ Finset.range cs.length, cs.getD i 0 * x ^ i) * x + c := by
    rw [List.length_cons, Finset.sum_range_succ', Finset.sum_mul]
    simp [pow_succ, mul_assoc]
  rw [polyAt, hsum]
  exact (((Nat.mod_modEq _ _).mul_right x).add_right c).symm

/-- Settles O25, by induction on the coefficients. -/
theorem hornerIsThePolynomialValue : Obligations.HornerIsThePolynomialValue := by
  intro c x
  induction c with
  | nil => simp [horner, polyAt]
  | cons c cs ih => rw [horner, polyAt_cons, ih]

theorem polyAt_lt (c : List Nat) (x : Nat) : polyAt c x < Config.P := Nat.mod_lt _ P_pos

/-! ### PEVAL (R102) -/

theorem all_isField_eq_false_iff {l : List Nat} : l.all isField = false ↔ ∃ v ∈ l, Config.P ≤ v := by
  simp [isField]

/-- PEVAL and its checks in their order; a bad coefficient raises the code of a bad point. -/
theorem complete_pevalResult (rd ra : Reg) (s : State) {d x : Nat} (hd : argNat0 s = d) (hx : (readW s ra).toNat = x) :
    (d < 16 → x < Config.P → (∀ v ∈ slots s.coef (d + 1), v < Config.P) →
      complete s (pevalResult rd ra s) =
        .next (succeeded (writeW s rd (zext256 (horner (slots s.coef (d + 1)) x))))) ∧
    (16 ≤ d → complete s (pevalResult rd ra s) = .next (failedWith .valueParam s)) ∧
    (d < 16 → Config.P ≤ x → complete s (pevalResult rd ra s) = .next (failedWith .valueRange s)) ∧
    (d < 16 → (∃ v ∈ slots s.coef (d + 1), Config.P ≤ v) →
      complete s (pevalResult rd ra s) = .next (failedWith .valueRange s)) := by
  simp only [pevalResult, hd, hx, isField_eq_false_iff, all_isField_eq_false_iff]
  refine ⟨fun hdeg hpoint hcoef => ?_, fun hdeg => ?_, fun hdeg hpoint => ?_, fun hdeg hcoef => ?_⟩
  · have hnone : ¬∃ v ∈ slots s.coef (d + 1), Config.P ≤ v := fun ⟨v, hv, hle⟩ => (hcoef v hv).not_ge hle
    rw [if_neg hdeg.not_ge, if_neg hpoint.not_ge, if_neg hnone]
    rfl
  · rw [if_pos hdeg]
    rfl
  · rw [if_neg hdeg.not_ge, if_pos hpoint]
    rfl
  · rw [if_neg hdeg.not_ge, if_pos hcoef, ite_self]
    rfl

/-- Settles O26: Horner's accumulation is the value. -/
theorem pevalEvaluatesThePolynomial : Obligations.PevalEvaluatesThePolynomial := by
  intro rd ra
  refine ⟨decode_commandWord (.peval rd ra) .peval rd ra 0 0 rfl, fun s d x c hd hx hc => ?_⟩
  subst hc
  rw [← hornerIsThePolynomialValue]
  exact complete_pevalResult rd ra s hd hx

/-! ### SPLIT and SPLIT.K (R104) -/

theorem all_isNonzeroField_eq_false_iff {l : List Nat} :
    l.all isNonzeroField = false ↔ ∃ v ∈ l, v = 0 ∨ Config.P ≤ v := by
  simp [isNonzeroField, isField, or_iff_not_imp_left]

/-- The slots a list is written to, and those it leaves. -/
theorem writeSlots_slot (v : Vector U128 16) (l : List Nat) (i : Fin 16) :
    (writeSlots v l)[i] = if i.val < l.length then BitVec.ofNat 128 (l.getD i.val 0) else v[i] := by
  rw [Fin.getElem_fin, writeSlots_getElem]
  split <;> simp [zext128, *]

/-- Writing a computed list to the first `n` slots. -/
theorem writeSlots_map_range (v : Vector U128 16) (f : Nat → Nat) (n : Nat) (i : Fin 16) :
    (writeSlots v ((List.range n).map f))[i] = if i.val < n then BitVec.ofNat 128 (f i.val) else v[i] := by
  rw [Fin.getElem_fin, writeSlots_getElem]
  simp [zext128]

/-- The writes of SPLIT are the slots and RES0 that R104 names. -/
theorem splitDone_splitCommit (c : List Nat) (n : Nat) (s : State) :
    SplitDone s (succeeded (splitCommit c n s)) c n := by
  have hval : ((List.range n).map (· + 1)).map (horner c) = (List.range n).map fun j => polyAt c (j + 1) := by
    simp [← hornerIsThePolynomialValue c]
  have hshy (i : Fin 16) := writeSlots_map_range s.shy (fun j => polyAt c (j + 1)) n i
  rw [← hval] at hshy
  exact ⟨rfl, fun i => ⟨writeSlots_slot s.coef c i, writeSlots_map_range s.shx (· + 1) n i, hshy i⟩⟩

/-- The parameter check and the range check of the secret come first, whichever way the coefficients are got. -/
theorem complete_splitResult_checks (ra : Reg) (k : Bool) (s : State) {th n x : Nat} (hth : argNat0 s = th)
    (hn : argNat1 s = n) (hx : (readW s ra).toNat = x) :
    (th < 1 ∨ n < th ∨ 16 < n → complete s (splitResult ra k s) = .next (failedWith .valueParam s)) ∧
    (1 ≤ th → th ≤ n → n ≤ 16 → Config.P ≤ x →
      complete s (splitResult ra k s) = .next (failedWith .valueRange s)) := by
  simp only [splitResult, hth, hn, hx, isField_eq_false_iff]
  refine ⟨fun hbad => ?_, fun h1 h2 h3 hle => ?_⟩
  · rw [if_pos (by omega)]
    rfl
  · rw [if_neg (not_not_intro ⟨h1, h2, h3⟩), if_pos hle]
    rfl

section
variable {ra : Reg} {s : State} {th n x : Nat} (hth : argNat0 s = th) (hn : argNat1 s = n)
  (hx : (readW s ra).toNat = x) (h1 : 1 ≤ th) (h2 : th ≤ n) (h3 : n ≤ 16) (hlt : x < Config.P)
include hth hn hx h1 h2 h3 hlt

/-- SPLIT.K past its first two checks. -/
theorem splitResult_true_eq :
    splitResult ra true s =
      if ∃ v ∈ (slots s.coef th).drop 1, v = 0 ∨ Config.P ≤ v then .raise .valueRange
      else .commit (splitCommit (x :: (slots s.coef th).drop 1) n s) := by
  simp only [splitResult, hth, hn, hx, isField_eq_false_iff, all_isNonzeroField_eq_false_iff]
  rw [if_neg (not_not_intro ⟨h1, h2, h3⟩), if_neg hlt.not_ge]

/-- SPLIT past its two checks. -/
theorem splitResult_false_eq :
    splitResult ra false s =
      withDraw (drawFields (th - 1) s.answers) fun cs => .commit (splitCommit (x :: cs) n s) := by
  simp only [splitResult, hth, hn, hx, isField_eq_false_iff]
  rw [if_neg (not_not_intro ⟨h1, h2, h3⟩), if_neg hlt.not_ge]

end

/-- Settles O27: a coefficient out of range raises the code of a secret out of range. -/
theorem splitKMakesSharesFromTheHostsCoefficients : Obligations.SplitKMakesSharesFromTheHostsCoefficients := by
  intro ra
  refine ⟨decode_commandWord (.split ra true) .split 0 ra 0 1 rfl, fun s th n x cs hth hn hx hcs => ?_⟩
  have hslots : (slots s.coef th).drop 1 = cs := hcs ▸ List.map_drop.symm
  obtain ⟨hparam, hrange⟩ := complete_splitResult_checks ra true s hth hn hx
  refine ⟨fun h1 h2 h3 hlt hgood => ?_, hparam, hrange, fun h1 h2 h3 hbad => ?_⟩
  · have hnone : ¬∃ v ∈ cs, v = 0 ∨ Config.P ≤ v := fun ⟨v, hv, h⟩ => by
      obtain ⟨hpos, hvlt⟩ := hgood v hv
      omega
    refine ⟨_, ?_, splitDone_splitCommit (x :: cs) n s⟩
    rw [exec, execSplit, splitResult_true_eq hth hn hx h1 h2 h3 hlt, hslots, if_neg hnone]
    rfl
  · rcases Nat.lt_or_ge x Config.P with hlt | hle
    · rw [exec, execSplit, splitResult_true_eq hth hn hx h1 h2 h3 hlt, hslots, if_pos hbad]
      rfl
    · exact hrange h1 h2 h3 hle

/-- Settles O28: past the checks the outcome is that of the T − 1 draws. -/
theorem splitMakesSharesFromDrawnCoefficients : Obligations.SplitMakesSharesFromDrawnCoefficients := by
  intro ra
  refine ⟨decode_commandWord (.split ra false) .split 0 ra 0 0 rfl, fun s th n x hth hn hx => ?_⟩
  obtain ⟨hparam, hrange⟩ := complete_splitResult_checks ra false s hth hn hx
  refine ⟨fun cs h1 h2 h3 hlt hlen hdraws => ?_, hparam, hrange, fun cs h1 h2 h3 hlt hlen hdraws => ?_,
    fun cs h1 h2 h3 hlt hlen hdraws => ?_⟩
  · have hcount : cs.length = th - 1 := by omega
    obtain ⟨⟨rest, hd⟩, -⟩ := drawFields_got (th - 1) s.answers cs hcount (hcount ▸ hdraws)
    refine ⟨_, ?_, splitDone_splitCommit (x :: cs) n s⟩
    rw [exec, execSplit, splitResult_false_eq hth hn hx h1 h2 h3 hlt]
    exact complete_withDraw_got hd _ s
  · have hd := drawFields_failed (th - 1) s.answers cs (by omega) hdraws
    rw [exec, execSplit, splitResult_false_eq hth hn hx h1 h2 h3 hlt]
    exact complete_withDraw_failed hd _ s
  · have hd := drawFields_pending (th - 1) s.answers cs (by omega) hdraws
    rw [exec, execSplit, commandRequest, splitResult_false_eq hth hn hx h1 h2 h3 hlt]
    exact complete_withDraw_pending hd _ s

/-! ### RECON (R103, R105) -/

/-- The weight of share `i` among `k` shares in lagrange0, in GF(P). -/
def lagrangeWeight (x : Nat → Nat) (k i : Nat) : ZMod Config.P :=
  ∏ j ∈ (Finset.range k).erase i, (x j : ZMod Config.P) * ((x j : ZMod Config.P) - x i)⁻¹

section
variable {x : Nat → Nat} {k : Nat} (hx : ∀ i < k, x i < Config.P) (hd : ∀ i < k, ∀ j < k, x i = x j → i = j)
include hx hd

/-- The inner loop multiplies by the weight: place `i` is left out. -/
theorem lagrangeTerm_range_cast {i : Nat} (hi : i < k) (term : Nat) :
    (lagrangeTerm i (x i) ((List.range k).map x) 0 term : ZMod Config.P) = term * lagrangeWeight x k i := by
  have hskip : lagrangeWeight x k i = ∏ j ∈ Finset.range k,
      if j = i then 1 else (x j : ZMod Config.P) * ((x j : ZMod Config.P) - x i)⁻¹ :=
    (Finset.prod_congr rfl fun j hj => (if_neg (Finset.ne_of_mem_erase hj)).symm).trans
      (Finset.prod_erase _ (if_pos rfl))
  rw [lagrangeTerm_cast x i _ 0 term (by simp) (by simpa using hx) (hx i hi), hskip]
  · simp
  · simp only [List.length_map, List.length_range, Nat.zero_add]
    exact fun m hm hne heq => hne (hd m hm i hi heq)

/-- The outer loop from place `i` on adds the weighted values of the last `n` shares. -/
theorem lagrangeSum_cast (y : Nat → Nat) (n i acc : Nat) (hin : i + n = k) :
    (lagrangeSum ((List.range k).map x) ((List.range' i n).map fun m => (x m, y m)) i acc : ZMod Config.P) =
      acc + ∑ m ∈ Finset.Ico i k, (y m : ZMod Config.P) * lagrangeWeight x k m := by
  induction n generalizing i acc with
  | zero => simp [lagrangeSum, ← hin]
  | succ n ih =>
    have hi : i < k := by omega
    rw [List.range'_succ, List.map_cons, lagrangeSum, ih (i + 1) _ (by omega), fieldAdd_cast,
      lagrangeTerm_range_cast hx hd hi, Finset.sum_eq_sum_Ico_succ_bot hi, add_assoc]

/-- In GF(P), lagrange0 is the weighted sum of the values. -/
theorem lagrange0_cast (y : Nat → Nat) :
    (lagrange0 ((List.range k).map x) ((List.range k).map y) : ZMod Config.P) =
      ∑ i ∈ Finset.range k, (y i : ZMod Config.P) * lagrangeWeight x k i := by
  have hsum := lagrangeSum_cast hx hd y k 0 0 (Nat.zero_add k)
  rw [← List.range_eq_range', ← Finset.range_eq_Ico, Nat.cast_zero, zero_add] at hsum
  rwa [lagrange0, List.zip_map']

end

/-- The first `k` slots of a table whose values `f` lists. -/
theorem slots_eq_map_range {v : Vector U128 16} {f : Nat → Nat} (hf : ∀ i : Fin 16, f i.val = (v[i]).toNat) {k : Nat}
    (hk : k ≤ 16) : slots v k = (List.range k).map f := by
  apply List.ext_getElem
  · simp [slots_length, hk]
  · intro i hi _
    rw [slots_length] at hi
    rw [slots_getElem, List.getElem_map, List.getElem_range]
    exact (hf ⟨i, by omega⟩).symm

theorem all_shareInRange_eq_false_iff {l : List (Nat × Nat)} :
    l.all (fun p => isNonzeroField p.1 && isField p.2) = false ↔
      ∃ p ∈ l, p.1 = 0 ∨ Config.P ≤ p.1 ∨ Config.P ≤ p.2 := by
  simp only [List.all_eq_false, Bool.and_eq_true, isNonzeroField_iff, isField_iff]
  refine exists_congr fun p => and_congr_right fun _ => ?_
  omega

/-- RECON outside its legal counts. -/
theorem complete_reconResult_count (rd : Reg) {s : State} {k : Nat} (hk : argNat0 s = k) (h : k < 1 ∨ 16 < k) :
    complete s (reconResult rd s) = .next (failedWith .valueParam s) := by
  rw [reconResult, hk, if_pos h]
  rfl

/-- RECON with a legal count on the shares (x i, y i), and its two other checks in their order. -/
theorem complete_reconResult (rd : Reg) {s : State} {k : Nat} {x y : Nat → Nat} (hk : argNat0 s = k) (h1 : 1 ≤ k)
    (h16 : k ≤ 16) (hx : slots s.shx k = (List.range k).map x) (hy : slots s.shy k = (List.range k).map y) :
    ((∀ i < k, 1 ≤ x i ∧ x i < Config.P ∧ y i < Config.P) → (∀ i < k, ∀ j < k, x i = x j → i = j) →
      complete s (reconResult rd s) = .next (succeeded (writeW s rd
        (zext256 (lagrange0 ((List.range k).map x) ((List.range k).map y)))))) ∧
    ((∃ i < k, x i = 0 ∨ Config.P ≤ x i ∨ Config.P ≤ y i) →
      complete s (reconResult rd s) = .next (failedWith .valueRange s)) ∧
    ((∀ i < k, 1 ≤ x i ∧ x i < Config.P ∧ y i < Config.P) → ¬(∀ i < k, ∀ j < k, x i = x j → i = j) →
      complete s (reconResult rd s) = .next (failedWith .valueDupShare s)) := by
  have hcount : ¬(k < 1 ∨ 16 < k) := by omega
  have hranges (h : ∀ i < k, 1 ≤ x i ∧ x i < Config.P ∧ y i < Config.P) :
      ¬∃ i < k, x i = 0 ∨ Config.P ≤ x i ∨ Config.P ≤ y i := fun ⟨i, hi, hbad⟩ => by
    obtain ⟨hpos, hxlt, hylt⟩ := h i hi
    omega
  have hdistinct : ((List.range k).map x).Nodup ↔ ∀ i < k, ∀ j < k, x i = x j → i = j := by
    simp [List.nodup_map_iff_inj_on List.nodup_range]
  have hbad : (∃ p ∈ (List.range k).map fun i => (x i, y i), p.1 = 0 ∨ Config.P ≤ p.1 ∨ Config.P ≤ p.2) ↔
      ∃ i < k, x i = 0 ∨ Config.P ≤ x i ∨ Config.P ≤ y i := by
    simp
  simp only [reconResult, hk, hx, hy, List.zip_map', all_shareInRange_eq_false_iff, hbad, hdistinct]
  rw [if_neg hcount]
  refine ⟨fun hgood hinj => ?_, fun hrange => ?_, fun hgood hdup => ?_⟩
  · rw [if_neg (hranges hgood), if_neg (not_not_intro hinj)]
    rfl
  · rw [if_pos hrange]
    rfl
  · rw [if_neg (hranges hgood), if_pos hdup]
    rfl

/-- Settles O29: lagrange0 is a field element, the one R103 writes as a sum. -/
theorem reconInterpolatesAtZero : Obligations.ReconInterpolatesAtZero := by
  intro rd
  refine ⟨decode_commandWord (.recon rd) .recon rd 0 0 0 rfl, fun s k x y hk hxy => ?_⟩
  have hrecon (h1 : 1 ≤ k) (h16 : k ≤ 16) := complete_reconResult rd hk h1 h16
    (slots_eq_map_range (fun i => (hxy i).1) h16) (slots_eq_map_range (fun i => (hxy i).2) h16)
  refine ⟨fun h1 h16 hgood hinj => ?_, fun h => complete_reconResult_count rd hk h, fun h1 h16 hbad => ?_,
    fun h1 h16 hgood ⟨i, hi, j, hj, hlt, heq⟩ => ?_⟩
  · obtain ⟨hok, -, -⟩ := hrecon h1 h16
    exact ⟨_, lagrange0_lt _ _, hok hgood hinj, lagrange0_cast (fun i hi => (hgood i hi).2.1) hinj y⟩
  · obtain ⟨-, hrange, -⟩ := hrecon h1 h16
    exact hrange hbad
  · obtain ⟨-, -, hdup⟩ := hrecon h1 h16
    exact hdup hgood fun hinj => hlt.ne (hinj i hi j hj heq)

/-! ### Threshold correctness (R106) -/

/-- A command in flight that ends with success has committed a state. -/
theorem exec_committed {i : Instr} {s t : State} (h : exec i s = .next t) (hbusy : s.eng = .busy)
    (hidle : t.eng = .idle) (hok : t.errcode = .ok) : ∃ u, commandResult i s = .commit u ∧ t = succeeded u := by
  rw [exec_eq] at h
  cases hr : commandResult i s with
  | wait n =>
    simp only [hr, Host.Outcome.next.injEq] at h
    exact Eng.noConfusion (hbusy.symm.trans (h ▸ hidle))
  | raise c =>
    simp only [hr, Host.Outcome.next.injEq] at h
    have hc : c = .ok := by rw [← hok, ← h, raiseError_errcode]
    exact absurd hc (resultOk i s _ hr).2
  | commit u =>
    simp only [hr, Host.Outcome.next.injEq] at h
    exact ⟨u, rfl, h.symm⟩

/-- The only way SPLIT commits: its parameters and the secret are legal, and it has T − 1 more coefficients. -/
theorem splitResult_eq_commit {ra : Reg} {k : Bool} {s u : State} (h : splitResult ra k s = .commit u) :
    (1 ≤ argNat0 s ∧ argNat0 s ≤ argNat1 s ∧ argNat1 s ≤ 16) ∧ (readW s ra).toNat < Config.P ∧
    ∃ cs : List Nat, cs.length + 1 = argNat0 s ∧ u = splitCommit ((readW s ra).toNat :: cs) (argNat1 s) s := by
  by_cases hparam : 1 ≤ argNat0 s ∧ argNat0 s ≤ argNat1 s ∧ argNat1 s ≤ 16
  case neg => simp [splitResult, hparam] at h
  rcases Nat.lt_or_ge (readW s ra).toNat Config.P with hlt | hle
  case inr => simp [splitResult, hparam, isField_eq_false_iff, hle] at h
  obtain ⟨h1, h2, h3⟩ := hparam
  refine ⟨⟨h1, h2, h3⟩, hlt, ?_⟩
  cases k with
  | true =>
    rw [splitResult_true_eq rfl rfl rfl h1 h2 h3 hlt] at h
    split at h
    case isTrue => cases h
    case isFalse =>
      refine ⟨_, ?_, (CmdResult.commit.inj h).symm⟩
      rw [List.length_drop, slots_length]
      omega
  | false =>
    rw [splitResult_false_eq rfl rfl rfl h1 h2 h3 hlt] at h
    rcases drawFields_cases (argNat0 s - 1) s.answers with ⟨cs, rest, hd, hlen, -⟩ | hd | ⟨hd, -⟩ <;> rw [hd] at h
    · exact ⟨cs, by omega, (CmdResult.commit.inj h).symm⟩
    · cases h
    · cases h

/-- A natural in a slot of a table. -/
def slotNat (v : Vector U128 16) (i : Nat) : Nat := ((v[i]?).getD 0).toNat

theorem slotNat_fin (v : Vector U128 16) (i : Fin 16) : slotNat v i.val = (v[i]).toNat := by
  simp [slotNat]

/-- Share `j` of a SPLIT: j + 1 and the value there. -/
theorem slotNat_of_splitDone {s t : State} {c : List Nat} {n : Nat} (h : SplitDone s t c n) (hn : n ≤ 16) {j : Nat}
    (hj : j < n) : slotNat t.shx j = j + 1 ∧ slotNat t.shy j = polyAt c (j + 1) := by
  obtain ⟨-, hshx, hshy⟩ := h.2 ⟨j, by omega⟩
  rw [if_pos hj] at hshx hshy
  have hpoly := (polyAt_lt c (j + 1)).trans P_lt_128
  refine ⟨?_, ?_⟩
  · rw [slotNat_fin t.shx ⟨j, by omega⟩, hshx, BitVec.toNat_ofNat, Nat.mod_eq_of_lt (by omega)]
  · rw [slotNat_fin t.shy ⟨j, by omega⟩, hshy, BitVec.toNat_ofNat, Nat.mod_eq_of_lt hpoly]

/-- A field element is determined by its class in GF(P). -/
theorem eq_of_cast_eq {a b : Nat} (ha : a < Config.P) (hb : b < Config.P) (h : (a : ZMod Config.P) = b) : a = b :=
  Nat.ModEq.eq_of_lt_of_lt ((ZMod.natCast_eq_natCast_iff a b Config.P).mp h) ha hb

/-- The polynomial over GF(P) with these coefficients, lowest degree first. -/
noncomputable def sharePolynomial (c : List Nat) : Polynomial (ZMod Config.P) :=
  ∑ i : Fin c.length, Polynomial.C (c.get i : ZMod Config.P) * Polynomial.X ^ i.val

theorem degree_sharePolynomial_lt (c : List Nat) : (sharePolynomial c).degree < c.length :=
  Polynomial.degree_sum_fin_lt _

theorem eval_sharePolynomial (c : List Nat) (x : Nat) :
    (sharePolynomial c).eval (x : ZMod Config.P) = (polyAt c x : ZMod Config.P) := by
  simp [sharePolynomial, polyAt, Polynomial.eval_finsetSum, Finset.sum_range]

/-- Lagrange interpolation at 0: a polynomial of degree below `k` is the interpolant of its values at `k` points. -/
theorem eval_zero_eq_lagrange_sum {F : Type} [Field F] {f : Polynomial F} {v : Nat → F} {k : Nat}
    (hv : Set.InjOn v (Finset.range k)) (hdeg : f.degree < k) :
    f.eval 0 = ∑ i ∈ Finset.range k, f.eval (v i) * ∏ j ∈ (Finset.range k).erase i, v j * (v j - v i)⁻¹ := by
  have hfactor (i j : Nat) : (Lagrange.basisDivisor (v i) (v j)).eval 0 = v j * (v j - v i)⁻¹ := by
    rw [← neg_sub (v i) (v j), inv_neg]
    simp [Lagrange.basisDivisor, mul_comm]
  have hinterpolant := congrArg (Polynomial.eval 0)
    (Lagrange.eq_interpolate hv (hdeg.trans_eq (by rw [Finset.card_range])))
  simpa [Lagrange.interpolate_apply, Lagrange.basis, Polynomial.eval_finsetSum, Polynomial.eval_prod, hfactor]
    using hinterpolant

/-- Enough shares of a polynomial determine its value at 0. -/
theorem sum_shares_eq {c : List Nat} {x y : Nat → Nat} {k : Nat} (hlen : c.length ≤ k)
    (hx : ∀ i < k, x i < Config.P) (hd : ∀ i < k, ∀ j < k, x i = x j → i = j) (hy : ∀ i < k, y i = polyAt c (x i)) :
    ∑ i ∈ Finset.range k, (y i : ZMod Config.P) * lagrangeWeight x k i = (polyAt c 0 : ZMod Config.P) := by
  have : Fact (Nat.Prime Config.P) := ⟨prime_P⟩
  have hinj : Set.InjOn (fun i => (x i : ZMod Config.P)) (Finset.range k) := fun i hi j hj heq => by
    rw [Finset.mem_coe, Finset.mem_range] at hi hj
    exact hd i hi j hj (eq_of_cast_eq (hx i hi) (hx j hj) heq)
  have hdeg : (sharePolynomial c).degree < k := (degree_sharePolynomial_lt c).trans_le (by exact_mod_cast hlen)
  rw [← eval_sharePolynomial, Nat.cast_zero, eval_zero_eq_lagrange_sum hinj hdeg]
  refine Finset.sum_congr rfl fun i hi => ?_
  rw [eval_sharePolynomial, hy i (Finset.mem_range.mp hi), lagrangeWeight]

/-- RECON on enough shares of a polynomial writes the polynomial's value at 0. -/
theorem exec_recon_of_shares (rd : Reg) {u : State} {c : List Nat} {k : Nat} (hk : u.argl0.toNat = k) (h1 : 1 ≤ k)
    (h16 : k ≤ 16) (hlen : c.length ≤ k) (hx : ∀ i < k, 1 ≤ slotNat u.shx i ∧ slotNat u.shx i < Config.P)
    (hd : ∀ i < k, ∀ j < k, slotNat u.shx i = slotNat u.shx j → i = j)
    (hy : ∀ i < k, slotNat u.shy i = polyAt c (slotNat u.shx i)) :
    exec (.recon rd) u = .next (succeeded (writeW u rd (BitVec.ofNat 256 (polyAt c 0)))) := by
  have hgood : ∀ i < k, 1 ≤ slotNat u.shx i ∧ slotNat u.shx i < Config.P ∧ slotNat u.shy i < Config.P :=
    fun i hi => ⟨(hx i hi).1, (hx i hi).2, hy i hi ▸ polyAt_lt _ _⟩
  obtain ⟨hrecon, -⟩ := (reconInterpolatesAtZero rd).2 u k (slotNat u.shx) (slotNat u.shy) hk
    fun i => ⟨slotNat_fin _ i, slotNat_fin _ i⟩
  obtain ⟨r, hr, hexec, hsum⟩ := hrecon h1 h16 hgood hd
  have hvalue : r = polyAt c 0 :=
    eq_of_cast_eq hr (polyAt_lt c 0) (hsum.trans (sum_shares_eq hlen (fun i hi => (hx i hi).2) hd hy))
  rw [hexec, hvalue]

/-- Settles O30: the shares are points of a polynomial with T coefficients, whose value at 0 is the secret. -/
theorem anyThresholdOfSharesReconstructs : Obligations.AnyThresholdOfSharesReconstructs := by
  intro ra rd k s t h hidle hok hbusy u pick hth h16 hpick hinj hshares
  obtain ⟨_, hr, rfl⟩ := exec_committed h hbusy hidle hok
  obtain ⟨⟨h1, -, hn16⟩, hsecret, cs, hlen, rfl⟩ := splitResult_eq_commit hr
  have hdone := splitDone_splitCommit ((readW s ra).toNat :: cs) (argNat1 s) s
  have hslot : ∀ i < u.argl0.toNat, slotNat u.shx i = pick i + 1 ∧
      slotNat u.shy i = polyAt ((readW s ra).toNat :: cs) (pick i + 1) := fun i hi => by
    rw [slotNat, slotNat, (hshares i hi).1, (hshares i hi).2]
    exact slotNat_of_splitDone hdone hn16 (hpick i hi)
  have hcount : ((readW s ra).toNat :: cs).length ≤ u.argl0.toNat := hlen.trans_le hth
  have hx : ∀ i < u.argl0.toNat, 1 ≤ slotNat u.shx i ∧ slotNat u.shx i < Config.P := fun i hi => by
    have hP : 16 < Config.P := by decide
    have hlt : pick i < argNat1 s := hpick i hi
    rw [(hslot i hi).1]
    omega
  have hd : ∀ i < u.argl0.toNat, ∀ j < u.argl0.toNat, slotNat u.shx i = slotNat u.shx j → i = j :=
    fun i hi j hj heq => by
      rw [(hslot i hi).1, (hslot j hj).1] at heq
      exact hinj i hi j hj (Nat.succ.inj heq)
  have hy : ∀ i < u.argl0.toNat, slotNat u.shy i = polyAt ((readW s ra).toNat :: cs) (slotNat u.shx i) :=
    fun i hi => by rw [(hslot i hi).1, (hslot i hi).2]
  rw [exec_recon_of_shares rd rfl (h1.trans hth) h16 hcount hx hd hy, polyAt_cons, Nat.mul_zero,
    Nat.zero_add, Nat.mod_eq_of_lt hsecret, BitVec.ofNat_toNat, BitVec.setWidth_eq]

end Sys2Proof.Machine
end

section
/-! ## AEAD framing commands (44_aead.md R108 to R113) -/

namespace Sys2Proof.Machine

open Sys2Proof.Safety

/-! ### The blob (R108) -/

/-- The blob of a payload: the nonce, then the sealed payload, with the empty string as associated data (R108). -/
def sealedBlob (key : List Byte) (v : Nat) (payload : List Byte) : List Byte :=
  be12 v ++ Config.aead.sealBytes key (be12 v) [] payload

@[simp] theorem sealedBlob_length (key : List Byte) (v : Nat) (payload : List Byte) :
    (sealedBlob key v payload).length = payload.length + 28 := by
  rw [sealedBlob, List.length_append, be12_length, Config.aead.sealBytes_length]
  omega

/-- Where the storage holds a blob, what ADEC takes for nonce and sealed payload opens to the payload. -/
theorem openBytes_of_sealedBlob {m : Memory} {a n : Nat} {key : List Byte} (v : Nat) {payload : List Byte}
    (hkey : key.length = 32) (hblob : memReadBytes m a (n + 28) = sealedBlob key v payload) :
    Config.aead.openBytes key (memReadBytes m a 12) [] (memReadBytes m (a + 12) (n + 28 - 12)) = some payload := by
  have hnonce : memReadBytes m a 12 = be12 v := by
    rw [← take_memReadBytes m a (show 12 ≤ n + 28 by omega), hblob, sealedBlob, List.take_left' (be12_length v)]
  have hsealed : memReadBytes m (a + 12) (n + 28 - 12) = Config.aead.sealBytes key (be12 v) [] payload := by
    rw [← drop_memReadBytes, hblob, sealedBlob, List.drop_left' (be12_length v)]
  rw [hnonce, hsealed]
  exact Config.aead.openBytes_sealBytes key (be12 v) [] payload hkey (be12_length v)

/-! ### The write to BUF (20_memory.md R59) -/

/-- A success that stages `n` bytes for BUF and a value for RES0 changes those bytes, RES0 and nothing else. -/
theorem complete_commit_bufWrite {s : State} (hm : s.mem.wf = true) (dst res : Nat) {n : Nat} {bs : List Byte}
    (hlen : bs.length = n) :
    ∃ t, complete s (.commit (writeRes0 (bufWrite s dst bs) res)) = .next t ∧
      t = succeeded { s with mem := t.mem, res0 := BitVec.ofNat 32 res } ∧
      memReadBytes t.mem (0x1000 + dst) n = bs ∧
      ∀ a, a < 0x1000 + dst ∨ 0x1000 + dst + n ≤ a → memRead t.mem a = memRead s.mem a := by
  subst hlen
  exact ⟨_, rfl, rfl, memReadBytes_memWriteBytes hm _ bs, fun _ ha => memRead_memWriteBytes_outside ha⟩

/-! ### AENC and ADEC by their ranges (R109, R110) -/

section
variable (ra : Reg) {s : State} {src n dst : Nat} (h0 : argNat0 s = src) (h1 : argNat1 s = n) (h2 : argNat2 s = dst)
include h0 h1 h2

/-- AENC outside one of its two ranges. -/
theorem exec_aenc_outOfRange (h : 4096 < src + n ∨ 4096 < dst + n + 28) :
    exec (.aenc ra) s = .next (failedWith .valueLength s) := by
  have hraise : aencResult ra s = .raise .valueLength := by
    rw [aencResult, h0, h1, h2, Config.bufBytes, ← ite_or]
    exact if_pos h
  rw [exec, execAenc, hraise]
  rfl

/-- AENC within its ranges is one draw of the nonce and the write of the blob. -/
theorem aencResult_inRange (hsrc : src + n ≤ 4096) (hdst : dst + n + 28 ≤ 4096) :
    aencResult ra s = withDraw (drawBits 96 s.answers) fun v =>
      .commit (writeRes0 (bufWrite s dst (sealedBlob (aeadKey s ra) v (bufRead s src n))) (n + 28)) := by
  rw [aencResult, h0, h1, h2, Config.bufBytes, if_neg (not_lt.mpr hsrc), if_neg (not_lt.mpr hdst)]
  rfl

/-- The checks of ADEC before the primitive, in their order. -/
theorem exec_adec_badLengths :
    (4096 < src + n → exec (.adec ra) s = .next (failedWith .valueLength s)) ∧
    (src + n ≤ 4096 → n < 12 → exec (.adec ra) s = .next (failedWith .formatDataShort s)) ∧
    (src + n ≤ 4096 → 12 ≤ n → n < 28 → exec (.adec ra) s = .next (failedWith .cryptoAuth s)) ∧
    (src + n ≤ 4096 → 28 ≤ n → 4096 < dst + (n - 28) → exec (.adec ra) s = .next (failedWith .valueLength s)) := by
  rw [exec, execAdec, adecResult, h0, h1, h2, Config.bufBytes]
  refine ⟨fun h => ?_, fun hsrc h => ?_, fun hsrc h12 h => ?_, fun hsrc h28 h => ?_⟩
  · rw [if_pos h]
    rfl
  · rw [if_neg (not_lt.mpr hsrc), if_pos h]
    rfl
  · rw [if_neg (not_lt.mpr hsrc), if_neg (not_lt.mpr h12), if_pos h]
    rfl
  · rw [if_neg (not_lt.mpr hsrc), if_neg (by omega), if_neg (not_lt.mpr h28), if_pos h]
    rfl

/-- ADEC within its ranges is decided by what the primitive answers. -/
theorem adecResult_inRange (hsrc : src + n ≤ 4096) (h28 : 28 ≤ n) (hdst : dst + (n - 28) ≤ 4096) :
    adecResult ra s =
      (Config.aead.openBytes (aeadKey s ra) (memReadBytes s.mem (0x1000 + src) 12) []
        (memReadBytes s.mem (0x1000 + src + 12) (n - 12))).elim (.raise .cryptoAuth) fun pt =>
          .commit (writeRes0 (bufWrite s dst (plaintextBytes (aeadKey s ra) (bufRead s src n) pt (n - 28)))
            (n - 28)) := by
  have hnonce : (bufRead s src n).take 12 = memReadBytes s.mem (0x1000 + src) 12 := take_memReadBytes _ _ (by omega)
  have hsealed : (bufRead s src n).drop 12 = memReadBytes s.mem (0x1000 + src + 12) (n - 12) :=
    drop_memReadBytes _ _ _ _
  rw [adecResult, h0, h1, h2, Config.bufBytes, if_neg (not_lt.mpr hsrc), if_neg (by omega), if_neg (not_lt.mpr h28),
    if_neg (not_lt.mpr hdst)]
  dsimp only
  rw [hnonce, hsealed]
  cases Config.aead.openBytes (aeadKey s ra) _ [] _ <;> rfl

end

/-- Settles O32: the two ranges, then one draw of 96 bits, which the first answer decides. -/
theorem aencSealsThePayload : Obligations.AencSealsThePayload := by
  intro ra
  refine ⟨decode_commandWord (.aenc ra) .aenc 0 ra 0 0 rfl, fun s src n dst h0 h1 h2 hm => ?_⟩
  have hrange := exec_aenc_outOfRange ra h0 h1 h2
  have hresult := aencResult_inRange ra h0 h1 h2
  refine ⟨fun d as hsrc hdst h => ?_, fun h => hrange (.inl h), fun h => hrange (.inr h), fun as hsrc hdst h => ?_,
    fun hsrc hdst h => ?_⟩
  · have hd : drawBits 96 s.answers = .got (d.toNat % 2 ^ 96) as := by rw [h, drawBits]
    rw [exec, execAenc, hresult hsrc hdst, complete_withDraw_got hd]
    exact complete_commit_bufWrite hm dst (n + 28) (by simp [bufRead])
  · have hd : drawBits 96 s.answers = .failed := by rw [h, drawBits]
    rw [exec, execAenc, hresult hsrc hdst]
    exact complete_withDraw_failed hd _ s
  · have hd : drawBits 96 s.answers = .pending 96 := by rw [h, drawBits]
    rw [exec, execAenc, commandRequest, hresult hsrc hdst]
    exact complete_withDraw_pending hd _ s

/-- Settles O33: the four checks, then the two answers of the primitive. -/
theorem adecOpensTheBlob : Obligations.AdecOpensTheBlob := by
  intro ra
  refine ⟨decode_commandWord (.adec ra) .adec 0 ra 0 0 rfl, fun s src n dst opened h0 h1 h2 hm hopened => ?_⟩
  obtain ⟨hsource, hnonce, htag, hdest⟩ := exec_adec_badLengths ra h0 h1 h2
  have hresult := adecResult_inRange ra h0 h1 h2
  rw [aeadKey, ← hopened] at hresult
  refine ⟨fun pt hsrc h28 hdst h => ?_, hsource, hnonce, htag, hdest, fun hsrc h28 hdst h => ?_⟩
  · rw [exec, execAdec, hresult hsrc h28 hdst, h]
    obtain ⟨t, hexec, ht, hbytes, hframe⟩ := complete_commit_bufWrite hm dst (n - 28)
      (plaintextBytes_length (aeadKey s ra) (bufRead s src n) pt (n - 28))
    exact ⟨t, hexec, ht, fun hlen => hbytes.trans (plaintextBytes_eq _ _ hlen), hframe⟩
  · rw [exec, execAdec, hresult hsrc h28 hdst, h]
    rfl

/-- Settles O34: AENC leaves a blob of the payload at dst (O32), and ADEC opens a blob (O33). -/
theorem aeadRoundTrip : Obligations.AeadRoundTrip := by
  intro ra ra' s src n dst d as h0 h1 h2 hm hsrc hdst hanswer
  obtain ⟨haenc, -⟩ := (aencSealsThePayload ra).2 s src n dst h0 h1 h2 hm
  obtain ⟨t, hexec, ht, hblob, -⟩ := haenc d as hsrc hdst hanswer
  refine ⟨t, hexec, by rw [ht]; rfl, fun u dst2 hu0 hu1 hu2 hdst2 hum hkey hsame => ?_⟩
  have hopens := openBytes_of_sealedBlob _ (be32_length (readW s ra)) (hsame.trans hblob)
  rw [← hkey] at hopens
  obtain ⟨hadec, -⟩ := (adecOpensTheBlob ra').2 u dst (n + 28) dst2 _ hu0 hu1 hu2 hum rfl
  obtain ⟨u', hexec', hu', hplain, -⟩ := hadec _ (by omega) (by omega) hdst2 hopens
  exact ⟨u', hexec', by rw [hu']; rfl, hplain (memReadBytes_length _ _ n)⟩

end Sys2Proof.Machine
end

section
/-! ## Completion, errors and the interrupt, over all commands (60_exceptions.md R114 to R123) -/

namespace Sys2Proof.Machine

open Sys2Proof.Safety

/-- A command in flight that ends with an error has raised one of its codes, on the state it fails on. -/
theorem exec_failed {i : Instr} {s t : State} (hbusy : s.eng = .busy) (h : exec i s = .next t) (hidle : t.eng = .idle)
    (herr : t.errcode ≠ .ok) : t.errcode ∈ raisedBy i ∧ t = failedWith t.errcode (failureBase i s) := by
  rcases exec_cases i s with ⟨_, -, he⟩ | ⟨c, -, hc, -, he⟩ | ⟨u, -, -, he⟩
  all_goals obtain rfl := Host.Outcome.next.inj (he.symm.trans h)
  · exact Eng.noConfusion (hbusy.symm.trans hidle)
  · exact ⟨hc, rfl⟩
  · exact absurd rfl herr

/-- DCHK is the one command whose failure writes more than the completion does (60_exceptions.md R116). -/
theorem failureBase_of_ne_dchk {i : Instr} (h : i ≠ .dchk) (s : State) : failureBase i s = s := by
  cases i
  case dchk => exact absurd rfl h
  all_goals rfl

/-- Settles O35: a failing command completes on the old state, DCHK on the one with DICT_VALID cleared. -/
theorem failingCommandsChangeNothingElse : Obligations.FailingCommandsChangeNothingElse := by
  intro i s t hbusy h hidle herr
  obtain ⟨hmem, ht⟩ := exec_failed hbusy h hidle herr
  refine ⟨fun hne => ?_, fun hdchk => ?_⟩
  · rwa [failureBase_of_ne_dchk hne] at ht
  · subst hdchk
    have hcode : t.errcode = .formatDict := List.mem_singleton.mp hmem
    rwa [hcode] at ht

/-- Settles O36: the codes half of `exec_failed`. -/
theorem commandsRaiseOnlyTheirCodes : Obligations.CommandsRaiseOnlyTheirCodes :=
  fun _ _ _ hbusy h hidle herr => (exec_failed hbusy h hidle herr).1

/-! ### What no command writes (R118) -/

theorem sameHostView_refl (s : State) : SameHostView s s :=
  ⟨rfl, rfl, rfl, rfl, rfl, rfl, rfl, rfl, rfl, rfl, rfl, rfl, rfl⟩

theorem sameHostView_failedWith (c : ErrCode) (i : Instr) (s : State) :
    SameHostView s (failedWith c (failureBase i s)) := by
  rcases failureBase_cases i s with hbase | hbase <;> rw [hbase]
  · exact sameHostView_refl s
  · exact sameHostView_refl s

/-- The staged writes of a command are of operand storage, RES0 and DICT_VALID. -/
theorem CommitFrame.sameHostView {i : Instr} {s u : State} (hf : CommitFrame i s u) :
    SameHostView s u ∧ u.errcmd = s.errcmd := by
  rw [hf.eq]
  exact ⟨sameHostView_refl s, rfl⟩

/-- Settles O37: the three ends of a command, of which only an error writes ERRCMD. -/
theorem commandsLeaveTheHostsRegisters : Obligations.CommandsLeaveTheHostsRegisters := by
  intro i s t h
  rcases exec_cases i s with ⟨_, -, he⟩ | ⟨c, -, -, hc, he⟩ | ⟨u, -, hf, he⟩
  all_goals obtain rfl := Host.Outcome.next.inj (he.symm.trans h)
  · exact ⟨sameHostView_refl s, fun _ => rfl⟩
  · exact ⟨sameHostView_failedWith c i s, fun hok => absurd hok hc⟩
  · obtain ⟨hview, herrcmd⟩ := hf.sameHostView
    exact ⟨hview, fun _ => herrcmd⟩

/-! ### Waiting and completing (R115) -/

/-- A busy unit's turn and its entropy request are those of the command in the latch. -/
theorem engineStep_legal {s : State} {i : Instr} (hbusy : s.eng = .busy) (h : decode s.cmdl = .ok i) :
    engineStep s = exec i s ∧ entropyRequest s = commandRequest i s := by
  simp only [engineStep, entropyRequest, hbusy, h, and_self]

theorem entropyRequest_illegal {s : State} {e : Illegal} (hbusy : s.eng = .busy) (h : decode s.cmdl = .error e) :
    entropyRequest s = none := by
  simp only [entropyRequest, hbusy, h]

/-- Settles O39: of a command's three ends only the wait has a request, and an illegal word never waits. -/
theorem engineWaitsExactlyOnARequest : Obligations.EngineWaitsExactlyOnARequest := by
  intro s hbusy
  cases hdec : decode s.cmdl with
  | error e =>
    have hnone := entropyRequest_illegal hbusy hdec
    exact ⟨fun hreq => absurd hnone hreq, fun _ => ⟨_, engineStep_illegal hbusy hdec, rfl, rfl, rfl⟩⟩
  | ok i =>
    obtain ⟨hstep, hrequest⟩ := engineStep_legal hbusy hdec
    rw [hstep, hrequest]
    rcases exec_cases i s with ⟨n, hn, he⟩ | ⟨c, hnone, -, -, he⟩ | ⟨u, hnone, -, he⟩
    · exact ⟨fun _ => he, fun hnone => absurd (hn.symm.trans hnone) (Option.some_ne_none n)⟩
    · exact ⟨fun hreq => absurd hnone hreq, fun _ => ⟨_, he, rfl, rfl, rfl⟩⟩
    · exact ⟨fun hreq => absurd hnone hreq, fun _ => ⟨_, he, rfl, rfl, rfl⟩⟩

/-! ### The interrupt output (R123) -/

theorem irq_of_not_done {s : State} (h : s.done = false) : irq s = false := by
  rw [irq, h, Bool.and_false]

theorem irq_of_not_ie {s : State} (h : s.ie = false) : irq s = false := by
  rw [irq, h, Bool.false_and]

/-- A completion sets DONE and leaves IE, so that `irq` is IE. -/
theorem irq_after_completion {s t : State} (hbusy : s.eng = .busy) (h : engineStep s = .next t) (hidle : t.eng = .idle) :
    irq t = s.ie := by
  rcases engineStep_cases h with rfl | ⟨c, u, rfl, rfl | rfl⟩ | ⟨i, u, -, -, hf, rfl⟩
  · exact Eng.noConfusion (hbusy.symm.trans hidle)
  · exact Bool.and_true _
  · exact Bool.and_true _
  · obtain ⟨hie, -⟩ := hf.sameHostView.1
    exact (Bool.and_true u.ie).trans hie

/-- The four bus writes that drop `irq`: an acknowledgement, an accepted command, IE cleared, and a soft reset. -/
theorem irq_dropped_by_writes {s : State} (v : Word) (hr : s.rstN = true) :
    (v.getLsbD 1 = true → irq (busStep (.write 0x0008#16 v) s) = false) ∧
    (s.eng = .idle → irq (busStep (.write 0x000C#16 v) s) = false) ∧
    (v.getLsbD 0 = false → v.getLsbD 1 = false →
      irq (busStep (.write 0x0004#16 v) s) = false ∧ (busStep (.write 0x0004#16 v) s).done = s.done) ∧
    (v.getLsbD 1 = true → irq (busStep (.write 0x0004#16 v) s) = false) := by
  refine ⟨fun hack => irq_of_not_done ?_, fun hidle => irq_of_not_done ?_, fun hie hsrst => ?_, fun hsrst => ?_⟩
  · rw [(busStep_register .status v hr rfl rfl).2, respond_done, writeTarget, acknowledge_done, hack, Bool.not_true,
      Bool.and_false]
  · rw [(busStep_register .cmd v hr rfl rfl).2, respond_done, writeTarget, writeCmd_idle hidle, acceptCommand_done]
  · rw [(busStep_register .ctrl v hr rfl rfl).2, writeTarget, writeCtrl_ie hsrst]
    exact ⟨irq_of_not_ie hie, rfl⟩
  · rw [(busStep_register .ctrl v hr rfl rfl).2, writeTarget, writeCtrl_softReset hsrst]
    rfl

/-- Settles O42: a completion sets DONE and keeps IE, and each way of dropping `irq` clears DONE or IE. -/
theorem irqFollowsIeAndDone : Obligations.IrqFollowsIeAndDone :=
  ⟨fun _ => rfl, fun _ _ => irq_after_completion, fun _ v hr => irq_dropped_by_writes v hr, fun _ => ⟨rfl, rfl⟩⟩

end Sys2Proof.Machine
end

section
/-! ## Reset and hazards (70_reset_and_hazards.md R132, R144, R146) -/

namespace Sys2Proof.Machine

open Sys2Proof.Safety

/-! ### Which commands wait, and for how many bits (R144) -/

/-- A command that commits whatever it draws has a request only while the draw is pending. -/
theorem pending_of_request {α : Type} {d : Drawn α} {f : α → State} {n : Nat}
    (h : (withDraw d fun v => .commit (f v)).request = some n) : d = .pending n := by
  cases d with
  | got v rest => cases h
  | failed => cases h
  | pending m => exact congrArg Drawn.pending (Option.some.inj h)

theorem drawBits_eq_pending {n m : Nat} {as : List Answer} (h : drawBits n as = .pending m) : m = n := by
  rcases drawBits_cases n as with ⟨-, hd⟩ | ⟨rest, -, hd⟩ | ⟨d, rest, -, hd⟩
  · exact Drawn.pending.inj (h.symm.trans hd)
  · cases h.symm.trans hd
  · cases h.symm.trans hd

theorem drawField_eq_pending {m : Nat} {as : List Answer} (h : drawField as = .pending m) : m = 127 := by
  rcases drawField_eq as with ⟨-, hd⟩ | ⟨rest, -, hd⟩ | ⟨v, rest, -, -, -, hd⟩
  · exact Drawn.pending.inj (h.symm.trans hd)
  · cases h.symm.trans hd
  · cases h.symm.trans hd

theorem drawFields_eq_pending {n m : Nat} {as : List Answer} (h : drawFields n as = .pending m) : 1 ≤ n ∧ m = 127 := by
  rcases drawFields_cases n as with ⟨cs, rest, hd, -⟩ | hd | ⟨hd, hn⟩
  · cases h.symm.trans hd
  · cases h.symm.trans hd
  · exact ⟨hn, Drawn.pending.inj (h.symm.trans hd)⟩

/-- SPLIT waits only past its two checks, with K = 0, and only when there is a coefficient to draw (43_sharing.md R104). -/
theorem splitResult_request {ra : Reg} {k : Bool} {s : State} {n : Nat} (h : (splitResult ra k s).request = some n) :
    k = false ∧ 2 ≤ argNat0 s ∧ n = 127 := by
  by_cases hparam : 1 ≤ argNat0 s ∧ argNat0 s ≤ argNat1 s ∧ argNat1 s ≤ 16
  case neg => simp [splitResult, hparam, CmdResult.request] at h
  rcases Nat.lt_or_ge (readW s ra).toNat Config.P with hlt | hle
  case inr => simp [splitResult, hparam, isField_eq_false_iff, hle, CmdResult.request] at h
  obtain ⟨h1, h2, h3⟩ := hparam
  cases k with
  | true =>
    rw [splitResult_true_eq rfl rfl rfl h1 h2 h3 hlt] at h
    split at h <;> cases h
  | false =>
    rw [splitResult_false_eq rfl rfl rfl h1 h2 h3 hlt] at h
    obtain ⟨hdraws, hn⟩ := drawFields_eq_pending (pending_of_request h)
    exact ⟨rfl, by omega, hn⟩

/-- AENC waits only for its nonce, past its two range checks (44_aead.md R109). -/
theorem aencResult_request {ra : Reg} {s : State} {n : Nat} (h : (aencResult ra s).request = some n) : n = 96 := by
  rw [aencResult] at h
  split_ifs at h
  · cases h
  · cases h
  · exact drawBits_eq_pending (pending_of_request h)

theorem commandRequest_eq_some {i : Instr} {s : State} {n : Nat} (h : commandRequest i s = some n) :
    (∃ rd, i = .rnd256 rd ∧ n = 256) ∨ (∃ rd, i = .rndf rd ∧ n = 127) ∨
    (∃ ra, i = .split ra false ∧ 2 ≤ s.argl0.toNat ∧ n = 127) ∨ (∃ ra, i = .aenc ra ∧ n = 96) := by
  cases i
  case rnd256 rd => exact .inl ⟨rd, rfl, drawBits_eq_pending (pending_of_request h)⟩
  case rndf rd => exact .inr (.inl ⟨rd, rfl, drawField_eq_pending (pending_of_request h)⟩)
  case split ra k =>
    obtain ⟨rfl, hth, hn⟩ := splitResult_request h
    exact .inr (.inr (.inl ⟨ra, rfl, hth, hn⟩))
  case aenc ra => exact .inr (.inr (.inr ⟨ra, rfl, aencResult_request h⟩))
  all_goals cases h

/-! ### A wait without an answer (R144, R146) -/

theorem run_succ_of_next {M : Host.Core} {s t : M.State} (h : M.step s = .next t) (k : Nat) :
    M.run (k + 1) s = M.run k t := by
  rw [Host.Core.run, h]

/-- A step that leads nowhere leads nowhere however often it is taken. -/
theorem run_of_step_eq_self {s : State} (h : step s = .next s) (k : Nat) : Sys2Proof.core.run k s = .next s := by
  induction k with
  | zero => rfl
  | succ k ih => exact (run_succ_of_next (M := Sys2Proof.core) h k).trans ih

theorem step_without_inputs {s : State} (h : s.inputs = []) : step s = engineStep s := by
  rw [step, nextStep, h]

theorem busy_of_entropyRequest {s : State} (h : entropyRequest s ≠ none) : s.eng = .busy := by
  cases heng : s.eng with
  | idle => exact absurd (entropyRequest_idle heng) h
  | busy => rfl

/-- A unit that waits, in a silent environment, never leaves its state. -/
theorem run_waiting {s : State} (hin : s.inputs = []) (hreq : entropyRequest s ≠ none) (k : Nat) :
    Sys2Proof.core.run k s = .next s := by
  have hwait : engineStep s = .next s := (engineWaitsExactlyOnARequest s (busy_of_entropyRequest hreq)).1 hreq
  exact run_of_step_eq_self ((step_without_inputs hin).trans hwait) k

theorem not_runEnded_of_busy {s : State} (h : s.eng = .busy) : ¬runEnded s := fun ⟨_, hidle⟩ => by
  simp [busyFlag, h] at hidle

theorem softReset_eng {s : State} (hr : s.rstN = true) : (busStep (.write 0x0004#16 2#32) s).eng = .idle := by
  rw [(busStep_register .ctrl 2#32 hr rfl rfl).2, respond_eng, writeTarget, writeCtrl_softReset rfl, resetUnit_eng]
  rfl

/-- Settles O40: a wait is a pending draw, and the step of a waiting unit is a fixed point at which BUSY = 1. -/
theorem onlyDrawingCommandsWaitAndTheyHang : Obligations.OnlyDrawingCommandsWaitAndTheyHang := by
  refine ⟨fun _ _ _ => commandRequest_eq_some, fun k s hin hreq => ?_, fun _ => ⟨rfl, softReset_eng⟩⟩
  have hrun := run_waiting hin hreq k
  refine ⟨hrun, fun t ⟨hend, hended, _⟩ => ?_⟩
  obtain rfl : s = t := Host.Outcome.next.inj (hrun.symm.trans hend)
  exact not_runEnded_of_busy (busy_of_entropyRequest hreq) hended

/-! ### The reset pin (R132) -/

theorem rstStep_fall (s : State) : rstStep false s = resetUnit false s := rfl

theorem rstStep_rise {s : State} (hr : s.rstN = false) : rstStep true s = resetUnit true s := by
  simp only [rstStep, hr]

/-- Out of reset, a reset unit is `State.reset` but for what the environment does next. -/
theorem resetUnit_true (s : State) : resetUnit true s = { State.reset with inputs := s.inputs, busOut := none } := rfl

/-- Settles O58: a change of the pin resets the unit, and the invariant makes a unit held in reset idle, so that it has
no request to answer. -/
theorem hardwareResetErasesEverything : Obligations.HardwareResetErasesEverything := by
  intro s hinv
  have hfall : (rstStep false s).rstN = false := rfl
  refine ⟨⟨none, ?_⟩, rfl, rfl, rfl, fun _ => rfl, fun hr => ?_⟩
  · rw [rstStep_rise hfall, resetUnit_true, rstStep_fall, resetUnit_inputs]
  · have hnone : entropyRequest s = none := entropyRequest_idle (hinv.resetIdle hr)
    exact ⟨⟨none, (rstStep_rise hr).trans (resetUnit_true s)⟩, hnone, fun x => ⟨none, busStep_inReset hr x⟩,
      entropyStep_no_request hnone⟩

end Sys2Proof.Machine
end

section
/-! ## Whose step it is (00_scope.md R5), and that there is one -/

namespace Sys2Proof.Machine

/-! ### The first pending input is taken -/

theorem step_with_input {s : State} {e : Event} {es : List Event} (h : s.inputs = e :: es) :
    step s = eventStep e { s with inputs := es } := by
  rw [step, nextStep, h]

theorem engineStep_idle {s : State} (h : s.eng = .idle) : engineStep s = .next s := by
  rw [engineStep, h]

/-- Settles O7: each agent's input is an arm of `eventStep`, and an idle engine's turn is the identity. -/
theorem stepTakesThePendingInput : Obligations.StepTakesThePendingInput := by
  intro s es
  refine ⟨fun _ => step_with_input, fun _ => step_with_input, fun _ => step_with_input, fun _ => step_with_input,
    fun hin hidle => ?_, fun hin hidle => ?_⟩
  · exact (step_with_input hin).trans (engineStep_idle hidle)
  · exact (step_without_inputs hin).trans (engineStep_idle hidle)

/-- Settles O5: with no input and with the engine's input alike the step is the engine's turn, which is the latched
command's. -/
theorem stepRunsTheLatchedCommand : Obligations.StepRunsTheLatchedCommand := by
  intro s i hbusy hdec
  refine ⟨fun hin => ?_, fun es hin => ?_⟩
  · exact (step_without_inputs hin).trans (engineStep_legal hbusy hdec).1
  · exact (step_with_input hin).trans (engineStep_legal (s := { s with inputs := es }) hbusy hdec).1

/-! ### A placed command (assumption log 2) -/

theorem withFetchWord_toNat (s : State) (w : Word) : s.withFetchWord 32 w.toNat = placeCommand w s := by
  rw [State.withFetchWord, Nat.mod_eq_of_lt w.isLt, BitVec.ofNat_toNat, BitVec.setWidth_eq]

/-- The engine's turn is the input that `placeCommand` puts first, so the step takes the accepted command. -/
theorem step_placeCommand (w : Word) (s : State) : step (placeCommand w s) = engineStep (acceptCommand w s) :=
  step_with_input (s := placeCommand w s) (e := .engine) (es := s.inputs) rfl

/-- Settles O6: the placed word is the accepted command's, and the engine's turn is next. -/
theorem stepRunsThePlacedWord : Obligations.StepRunsThePlacedWord := by
  intro s w i hdec
  rw [withFetchWord_toNat, step_placeCommand]
  exact (engineStep_legal (acceptCommand_eng w s) hdec).1

/-! ### Every step has a next state (assumption log 13) -/

theorem exec_isNext (i : Instr) (s : State) : ∃ t, exec i s = .next t := by
  rcases exec_cases i s with ⟨_, -, he⟩ | ⟨_, -, -, -, he⟩ | ⟨_, -, -, he⟩
  all_goals exact ⟨_, he⟩

theorem engineStep_isNext (s : State) : ∃ t, engineStep s = .next t := by
  cases heng : s.eng with
  | idle => exact ⟨s, engineStep_idle heng⟩
  | busy =>
    cases hdec : decode s.cmdl with
    | ok i => exact (engineStep_legal heng hdec).1 ▸ exec_isNext i s
    | error e => exact ⟨_, engineStep_illegal heng hdec⟩

theorem eventStep_isNext (e : Event) (s : State) : ∃ t, eventStep e s = .next t := by
  cases e with
  | engine => exact engineStep_isNext s
  | bus x => exact ⟨busStep x s, rfl⟩
  | entropy a => exact ⟨entropyStep a s, rfl⟩
  | lateEntropy a => exact ⟨lateEntropyStep a s, rfl⟩
  | rst l => exact ⟨rstStep l s, rfl⟩

/-- Settles O9: a step is the engine's turn or takes one input, and a command waits, raises or commits: each of these
is a next state. -/
theorem noStepStops : Obligations.NoStepStops := by
  intro s
  cases hin : s.inputs with
  | nil => exact step_without_inputs hin ▸ engineStep_isNext s
  | cons e es => exact step_with_input hin ▸ eventStep_isNext e { s with inputs := es }

/-! ### The base case of the invariant -/

/-- Settles O59: the reset state is what resetting a unit with `rst_n` high leaves. -/
theorem resetMeetsTheInvariant : Obligations.ResetMeetsTheInvariant :=
  inv_resetUnit true State.reset

end Sys2Proof.Machine
end
